-- ==== Sys2Proof/Word.lean ====
section
/-! DEFINITION. The word types of CORE: bytes, 32-bit words, four-word blocks, and the one-bit padding selector
of the command set (spec 00_scope.md R6, R8; 10_state.md R15). -/

namespace Sys2Proof

/-- A byte: a field element of GF(2^8), a buffer byte, a pad value (R80). -/
abbrev Byte := BitVec 8

/-- A 32-bit word: a register, a state column, a round-key word, a command word (R6 "word width"). -/
abbrev Word := BitVec 32

/-- Four 32-bit words, one per column (`NB` = 4): the shape of `STATE`, `IV`, `IVIN`, a round key and a
data block after `BlockToWords` (R10, R15, R40). -/
structure Block where
  w0 : Word
  w1 : Word
  w2 : Word
  w3 : Word
  deriving DecidableEq, Repr

/-- The operand `P` of `ECBENC` and `CBCENC`, under the assembler's names (R62, R69): 0 = `NOPAD`, 1 = `PKCS7`. -/
inductive PadSelect where
  | noPad
  | pkcs7
  deriving DecidableEq, Repr

end Sys2Proof
end

