-- ==== Sys2Proof/Syntax.lean ====
section
/-! DEFINITION. The command set of CORE, version 1: one constructor per row of spec/opcode_table.json
(30_encoding.md R66). Operand fields have the widths of R61 and R62. -/

namespace Sys2Proof

/-- The commands. `KEXP` is one command with four rows in the table (three legal key lengths and the catch-all),
hence four constructors; all four run the one definition of `KEXP n` (R123). -/
inductive Instr where
  /-- no operation (R195) -/
  | nop
  /-- SubBytes on `STATE` (R101) -/
  | subb
  /-- InvSubBytes on `STATE` (R102) -/
  | isubb
  /-- ShiftRows on `STATE` (R103) -/
  | shrow
  /-- InvShiftRows on `STATE` (R104) -/
  | ishrow
  /-- MixColumns on `STATE` (R105) -/
  | mixc
  /-- InvMixColumns on `STATE` (R106) -/
  | imixc
  /-- AddRoundKey on `STATE` with round key `RND` (R107) -/
  | addrk (rnd : BitVec 4)
  /-- `KEXP 16`: expand a 128-bit key (R123) -/
  | kexp128
  /-- `KEXP 24`: expand a 192-bit key (R123) -/
  | kexp192
  /-- `KEXP 32`: expand a 256-bit key (R123) -/
  | kexp256
  /-- `KEXP n` for every other `n`: fault `KEY_SIZE` (R123) -/
  | kexpOther (klen : BitVec 8)
  /-- discard the cipher and the mode instance (R126) -/
  | drop
  /-- encrypt the block in `STATE` (R137) -/
  | encblk
  /-- decrypt the block in `STATE` (R138) -/
  | decblk
  /-- encrypt the block at `BUF[OFF..OFF+15]` in place (R139) -/
  | encblkm (off : BitVec 24)
  /-- decrypt the block at `BUF[OFF..OFF+15]` in place (R140) -/
  | decblkm (off : BitVec 24)
  /-- ECB-encrypt `BUF[0..BUFLEN-1]` in place, after the selected padding (R151) -/
  | ecbenc (p : PadSelect)
  /-- ECB-decrypt `BUF[0..BUFLEN-1]` in place (R152) -/
  | ecbdec
  /-- latch `IVIN` into `IV` (R161) -/
  | setiv
  /-- CBC-encrypt `BUF[0..BUFLEN-1]` in place, after the selected padding (R162) -/
  | cbcenc (p : PadSelect)
  /-- CBC-decrypt `BUF[0..BUFLEN-1]` in place (R163) -/
  | cbcdec
  /-- PKCS#7-pad `BUF[MLEN..BUFLEN-1]` (R176) -/
  | pad
  /-- unchecked unpad (R177) -/
  | unpad
  /-- checked unpad (R178) -/
  | unpadchk
  deriving DecidableEq, Repr

end Sys2Proof
end

