-- ==== Sys2Proof/WellFormed.lean ====
section
/-! DEFINITION. Well-formed commands. The field widths are in the types, so one check is left: the catch-all row
of `KEXP` has lower precedence than the three rows of the legal key lengths (spec 30_encoding.md R66). -/

namespace Sys2Proof

/-- The legal `KLEN` values, in bytes (R62). -/
def legalKeyLengths : List (BitVec 8) := [16, 24, 32]

/-- A command term stands for exactly one command word: the catch-all `KEXP` is not used for a legal length. -/
def Instr.wellFormed : Instr → Bool
  | .kexpOther klen => !(legalKeyLengths.contains klen)
  | .nop | .subb | .isubb | .shrow | .ishrow | .mixc | .imixc | .addrk _ | .kexp128 | .kexp192 | .kexp256
  | .drop | .encblk | .decblk | .encblkm _ | .decblkm _ | .ecbenc _ | .ecbdec | .setiv | .cbcenc _ | .cbcdec
  | .pad | .unpad | .unpadchk => true

end Sys2Proof
end

