-- ==== Sys2Proof/Decode.lean ====
section
/-! DEFINITION. Decoding and encoding of command words (spec 30_encoding.md R60 to R68), the opcode table as data
(R66), and the host's `decodeTableWord`. -/

namespace Sys2Proof

/-- Why a word is illegal (R67): its opcode is unassigned, or must-be-zero bits are set. -/
inductive IllegalWord where
  | unassignedOpcode (op : BitVec 8)
  | mustBeZero (op : BitVec 8) (arg : BitVec 24)
  deriving DecidableEq, Repr

/-- `OP = w[31:24]` (R60). -/
def opField (w : Word) : BitVec 8 := w.extractLsb' 24 8

/-- `ARG = w[23:0]` (R60). -/
def argField (w : Word) : BitVec 24 := w.extractLsb' 0 24

/-- `RND`, bits 3:0 of the argument (R61 format R). -/
def rndField (arg : BitVec 24) : BitVec 4 := arg.extractLsb' 0 4

/-- `KLEN`, bits 7:0 of the argument (R61 format K). -/
def klenField (arg : BitVec 24) : BitVec 8 := arg.extractLsb' 0 8

/-- `P`, bit 0 of the argument (R61 format P, R62). -/
def padField (arg : BitVec 24) : PadSelect :=
  if arg.extractLsb' 0 1 = 1#1 then .pkcs7 else .noPad

/-- The bit of a padding selector (R62). -/
def padBit : PadSelect → BitVec 1
  | .noPad => 0#1
  | .pkcs7 => 1#1

/-- Accept `i` when the must-be-zero part of the argument is zero, else reject the word (R61, R64). -/
def whenZero {n : Nat} (w : Word) (mbz : BitVec n) (i : Instr) : Except IllegalWord Instr :=
  if mbz = 0#n then .ok i else .error (.mustBeZero (opField w) (argField w))

/-- Format N: the whole argument is zero (R61). -/
def formatN (w : Word) (i : Instr) : Except IllegalWord Instr :=
  whenZero w (argField w) i

/-- The `KEXP` row that a key length selects: the row with the larger mask takes precedence (R66). -/
def kexpRow (klen : BitVec 8) : Instr :=
  if klen = 16#8 then .kexp128
  else if klen = 24#8 then .kexp192
  else if klen = 32#8 then .kexp256
  else .kexpOther klen

/-- The decoder: a total function on all 2^32 words (R64), reading the opcode list of R66. -/
def decode (w : Word) : Except IllegalWord Instr :=
  match (opField w).toNat with
  | 0x00 => formatN w .nop
  | 0x10 => formatN w .subb
  | 0x11 => formatN w .isubb
  | 0x12 => formatN w .shrow
  | 0x13 => formatN w .ishrow
  | 0x14 => formatN w .mixc
  | 0x15 => formatN w .imixc
  | 0x16 => whenZero w ((argField w).extractLsb' 4 20) (.addrk (rndField (argField w)))
  | 0x20 => whenZero w ((argField w).extractLsb' 8 16) (kexpRow (klenField (argField w)))
  | 0x21 => formatN w .drop
  | 0x30 => formatN w .encblk
  | 0x31 => formatN w .decblk
  | 0x32 => .ok (.encblkm (argField w))
  | 0x33 => .ok (.decblkm (argField w))
  | 0x40 => whenZero w ((argField w).extractLsb' 1 23) (.ecbenc (padField (argField w)))
  | 0x41 => formatN w .ecbdec
  | 0x50 => formatN w .setiv
  | 0x51 => whenZero w ((argField w).extractLsb' 1 23) (.cbcenc (padField (argField w)))
  | 0x52 => formatN w .cbcdec
  | 0x60 => formatN w .pad
  | 0x61 => formatN w .unpad
  | 0x62 => formatN w .unpadchk
  | _ => .error (.unassignedOpcode (opField w))

/-- A word from its opcode and argument (R60). -/
def wordOf (op : BitVec 8) (arg : BitVec 24) : Word := op ++ arg

/-- Format R (R61). -/
def argR (rnd : BitVec 4) : BitVec 24 := 0#20 ++ rnd

/-- Format K (R61). -/
def argK (klen : BitVec 8) : BitVec 24 := 0#16 ++ klen

/-- Format P (R61). -/
def argP (p : PadSelect) : BitVec 24 := 0#23 ++ padBit p

/-- The encoder: the word each assembler line gives (R69), field by field from the formats of R61. -/
def encode : Instr → Word
  | .nop            => wordOf 0x00 0
  | .subb           => wordOf 0x10 0
  | .isubb          => wordOf 0x11 0
  | .shrow          => wordOf 0x12 0
  | .ishrow         => wordOf 0x13 0
  | .mixc           => wordOf 0x14 0
  | .imixc          => wordOf 0x15 0
  | .addrk rnd      => wordOf 0x16 (argR rnd)
  | .kexp128        => wordOf 0x20 (argK 16)
  | .kexp192        => wordOf 0x20 (argK 24)
  | .kexp256        => wordOf 0x20 (argK 32)
  | .kexpOther klen => wordOf 0x20 (argK klen)
  | .drop           => wordOf 0x21 0
  | .encblk         => wordOf 0x30 0
  | .decblk         => wordOf 0x31 0
  | .encblkm off    => wordOf 0x32 off
  | .decblkm off    => wordOf 0x33 off
  | .ecbenc p       => wordOf 0x40 (argP p)
  | .ecbdec         => wordOf 0x41 0
  | .setiv          => wordOf 0x50 0
  | .cbcenc p       => wordOf 0x51 (argP p)
  | .cbcdec         => wordOf 0x52 0
  | .pad            => wordOf 0x60 0
  | .unpad          => wordOf 0x61 0
  | .unpadchk       => wordOf 0x62 0

/-- A row of the machine-readable table: `w` selects it exactly when `w &&& mask = pattern` (R66). -/
structure OpcodeRow where
  pattern : Word
  mask    : Word
  deriving DecidableEq, Repr

/-- The row of each command, with the `match` and `mask` columns of R66. -/
def rowOf : Instr → OpcodeRow
  | .nop         => ⟨0x00000000, 0xFFFFFFFF⟩
  | .subb        => ⟨0x10000000, 0xFFFFFFFF⟩
  | .isubb       => ⟨0x11000000, 0xFFFFFFFF⟩
  | .shrow       => ⟨0x12000000, 0xFFFFFFFF⟩
  | .ishrow      => ⟨0x13000000, 0xFFFFFFFF⟩
  | .mixc        => ⟨0x14000000, 0xFFFFFFFF⟩
  | .imixc       => ⟨0x15000000, 0xFFFFFFFF⟩
  | .addrk _     => ⟨0x16000000, 0xFFFFFFF0⟩
  | .kexp128     => ⟨0x20000010, 0xFFFFFFFF⟩
  | .kexp192     => ⟨0x20000018, 0xFFFFFFFF⟩
  | .kexp256     => ⟨0x20000020, 0xFFFFFFFF⟩
  | .kexpOther _ => ⟨0x20000000, 0xFFFFFF00⟩
  | .drop        => ⟨0x21000000, 0xFFFFFFFF⟩
  | .encblk      => ⟨0x30000000, 0xFFFFFFFF⟩
  | .decblk      => ⟨0x31000000, 0xFFFFFFFF⟩
  | .encblkm _   => ⟨0x32000000, 0xFF000000⟩
  | .decblkm _   => ⟨0x33000000, 0xFF000000⟩
  | .ecbenc _    => ⟨0x40000000, 0xFFFFFFFE⟩
  | .ecbdec      => ⟨0x41000000, 0xFFFFFFFF⟩
  | .setiv       => ⟨0x50000000, 0xFFFFFFFF⟩
  | .cbcenc _    => ⟨0x51000000, 0xFFFFFFFE⟩
  | .cbcdec      => ⟨0x52000000, 0xFFFFFFFF⟩
  | .pad         => ⟨0x60000000, 0xFFFFFFFF⟩
  | .unpad       => ⟨0x61000000, 0xFFFFFFFF⟩
  | .unpadchk    => ⟨0x62000000, 0xFFFFFFFF⟩

/-- `w` selects the row `r` (R66). -/
abbrev OpcodeRow.selects (r : OpcodeRow) (w : Word) : Prop := w &&& r.mask = r.pattern

/-- The whole table of R66, in its order: 25 rows. -/
def opcodeTable : List OpcodeRow :=
  [rowOf .nop, rowOf .subb, rowOf .isubb, rowOf .shrow, rowOf .ishrow, rowOf .mixc, rowOf .imixc,
    rowOf (.addrk 0), rowOf .kexp128, rowOf .kexp192, rowOf .kexp256, rowOf (.kexpOther 0), rowOf .drop]
  ++ [rowOf .encblk, rowOf .decblk, rowOf (.encblkm 0), rowOf (.decblkm 0), rowOf (.ecbenc .noPad),
    rowOf .ecbdec, rowOf .setiv, rowOf (.cbcenc .noPad), rowOf .cbcdec, rowOf .pad, rowOf .unpad,
    rowOf .unpadchk]

/-- A table word of `nbits` bits as the 32-bit command word it is: a command word is one 32-bit value delivered
whole (R41, R60), so its bits are the table's and the bits above `nbits` are 0. -/
def tableWord (nbits w : Nat) : Word := BitVec.ofNat 32 (w % 2 ^ nbits)

/-- The host's question to the decoder: which command an opcode-table word decodes to. -/
def decodeTableWord (nbits w : Nat) : Option Instr :=
  match decode (tableWord nbits w) with
  | .ok i => some i
  | .error _ => none

end Sys2Proof
end

