-- ==== Sys2Proof/Config.lean ====
section
/-! DEFINITION. What an implementation of CORE fixes (spec 00_scope.md R7, 92_eei_decisions.md D4, D21) and the
one free value of the model: what a buffer byte that nothing has written since power-on holds
(93_implementation_defined.md U1, U2). -/

namespace Sys2Proof

/-- The error kind that `UNPADCHK` reports for a last byte 0: the open parameter `ERR_ZERO_PAD`, whose legal
values are the two codes 1 and 2 (R7, D21, U11). -/
inductive ZeroPadError where
  | paddingTooLarge
  | mismatchingPaddingBytes
  deriving DecidableEq, Repr

/-- The two parameters that R7 leaves OPEN, the "named arguments of the model". State carries one value of them
(log entry 2), so that every statement over all states is a statement for every value of the parameters. -/
structure Params where
  /-- `BUF_BYTES`: the size of the buffer memory in bytes. -/
  bufBytes   : Nat
  /-- `ERR_ZERO_PAD`. -/
  errZeroPad : ZeroPadError
  deriving DecidableEq, Repr

/-- The legal parameter values of R7: `32 <= BUF_BYTES <= 2^24` and `BUF_BYTES mod 16 = 0`. -/
abbrev Params.Legal (p : Params) : Prop :=
  32 ≤ p.bufBytes ∧ p.bufBytes ≤ 2 ^ 24 ∧ p.bufBytes % 16 = 0

/-- The defaults of R7: `BUF_BYTES` = 4096, `ERR_ZERO_PAD` = `MismatchingPaddingBytes`. -/
def Params.default : Params where
  bufBytes   := 4096
  errZeroPad := .mismatchingPaddingBytes

/-- FREE VALUE (log entry 1). `powerOnByte n a` is the unknown byte that buffer address `a` holds between the
`n`-th power-on and the first write to `a`: R30 "every byte holds an unknown value". It has no body, so nothing
can be proved of its value. -/
opaque Config.powerOnByte : Nat → Nat → Byte

end Sys2Proof
end

