-- ==== Sys2Proof/Machine/State.lean ====
section
/-! DEFINITION. The architectural state of CORE (spec 10_state.md R10 to R31), the host's pending transactions and
the answer to the last one (47_system.md R190 to R194), the ways a step can stop, and the state after reset. -/

namespace Sys2Proof.Machine

/-- `STATUS.KSZ`: 0, 1, 2 for a 128, 192, 256-bit key. The value 3 never occurs, so the field is a three-valued
type (R21, 93_implementation_defined.md U17). -/
inductive KeySize where
  | k128
  | k192
  | k256
  deriving DecidableEq, Repr

/-- The fields of `STATUS`; bits 31:5 are hardwired 0 and the register is read-only (R21, U16), so the fields are
all there is. `STATUS` as a word is `Status.toWord` of Flags.lean. -/
structure Status where
  fault   : Bool
  kvalid  : Bool
  ivvalid : Bool
  ksz     : KeySize
  deriving DecidableEq, Repr

/-- The twelve fault causes (60_exceptions.md R201); their numbers are `FaultCode.number` of Flags.lean. -/
inductive FaultCode where
  | illegalCmd
  | keySize
  | noKey
  | noIv
  | bufRange
  | unalignedLen
  | lenExceeds
  | padRange
  | emptyBuffer
  | unpadRange
  | padExceedsBuffer
  | roundIndex
  deriving DecidableEq, Repr

/-- `raise Fault(code, info)` (00_scope.md R8): the cause a check finds, and its detail value. -/
structure Raise where
  code : FaultCode
  info : Word
  deriving DecidableEq, Repr

/-- The result codes of a command that completes (60_exceptions.md R203); numbers in Flags.lean. -/
inductive ResultCode where
  | ok
  | paddingTooLarge
  | mismatchingPaddingBytes
  deriving DecidableEq, Repr

/-- What the outside world does to the block, one thing at a time: a host transaction on the port (R194), or a
reset asserted by the environment between two transactions (70_reset_and_hazards.md R230). Offsets are byte offsets
from the base of the register window (R11); buffer address `a` is offset 0x1000 + `a`. -/
inductive Event where
  /-- `RD`: a 32-bit read (R190) -/
  | rd (offset : Nat)
  /-- `WR`: a 32-bit write (R191); at offset 0 it issues a command (R25) -/
  | wr (offset : Nat) (value : Word)
  /-- `RDB`: an 8-bit read (R192) -/
  | rdb (offset : Nat)
  /-- `WRB`: an 8-bit write (R193) -/
  | wrb (offset : Nat) (value : Byte)
  /-- a transaction of any other width, which is always refused (20_memory.md R44, R45) -/
  | otherWidth (offset : Nat)
  /-- a reset with power kept: registers are reset, the buffer keeps its bytes (R230) -/
  | reset
  /-- a power-on reset: registers are reset, every buffer byte is unknown (R225, R230) -/
  | powerOn
  deriving DecidableEq, Repr

/-- What the host port answered to the last event (the model's own field, log entry 3). -/
inductive Response where
  /-- nothing yet, or the last event was a reset -/
  | noData
  /-- a 32-bit read returned this value (R190) -/
  | word (v : Word)
  /-- an 8-bit read returned this value (R192) -/
  | byte (v : Byte)
  /-- a write completed, whether it had an effect, was ignored, or issued a command (R191, R193, R206) -/
  | completed
  deriving DecidableEq, Repr

/-- The buffer memory as plain data: the bytes written since power-on, addresses strictly rising. An address that
is not listed has no listed value (log entry 1). -/
abbrev Memory := List Host.Cell

/-- The state of CORE (R10), its parameters (R7), and the host's side of the port. -/
structure State where
  /-- the parameters `BUF_BYTES` and `ERR_ZERO_PAD`; no step changes them (R7, log entry 2) -/
  params   : Params
  /-- `KEY[0..7]` (R12) -/
  key      : Vector Word 8
  /-- `IVIN[0..3]` (R13) -/
  ivin     : Block
  /-- `IV[0..3]` (R14) -/
  iv       : Block
  /-- `STATE[0..3]` (R15) -/
  state    : Block
  /-- `RK[0..59]` (R16) -/
  rk       : Vector Word 60
  /-- `BUFLEN` (R17) -/
  buflen   : Word
  /-- `MLEN` (R17) -/
  mlen     : Word
  /-- `STATUS` (R21) -/
  status   : Status
  /-- `RESULT` (R22) -/
  result   : Word
  /-- `OUTLEN` (R23) -/
  outlen   : Word
  /-- `FCODE` (R24) -/
  fcode    : Word
  /-- `FINFO` (R24) -/
  finfo    : Word
  /-- `FCMD` (R24) -/
  fcmd     : Word
  /-- `BUF[0 .. BUF_BYTES-1]`: the bytes written since power-on (R28, R30) -/
  mem      : Memory
  /-- how many power-on resets there have been: the model's own counter that the free value of an unwritten
  buffer byte is applied to (log entry 1) -/
  powerOns : Nat
  /-- the transactions and resets still to come, in order: the host's program (R194, log entry 3) -/
  pending  : List Event
  /-- the answer to the last event: the host's view of the port (log entry 3) -/
  resp     : Response
  deriving DecidableEq, Repr

/-- The four kinds of refused transaction (20_memory.md R45). -/
inductive BusRefusal where
  /-- (a) a reserved register offset -/
  | reservedOffset
  /-- (b) the register space with a width other than 32 bits or an offset that is not a multiple of 4 -/
  | registerWidth
  /-- (c) the buffer window with a width other than 8 bits -/
  | bufferWidth
  /-- (d) an offset at or above 0x1000 + `BUF_BYTES` -/
  | beyondWindow
  deriving DecidableEq, Repr

/-- Why the MODEL stops. The block's own faults (R201) are not among these: taking one is a next state. -/
inductive Fault where
  /-- A refused host transaction: the port reports a bus error and the model gives the transaction no step, as R45
  and U14 direct. Raised by `step` for `RD`, `WR`, `RDB`, `WRB` and other widths, never by a command. Safe: the
  model stops where the block, whose state is unchanged, would go on. -/
  | busError (why : BusRefusal) (offset : Nat)
  deriving DecidableEq, Repr

/-- Why the model gives no meaning. -/
inductive Refusal where
  /-- An instruction without a meaning yet, raised by `exec` alone; in this model no arm raises it. Safe. -/
  | notModelled (mnemonic : String)
  deriving DecidableEq, Repr

/-- `STATUS` = 0 (R30). -/
def Status.zero : Status where
  fault   := false
  kvalid  := false
  ivvalid := false
  ksz     := .k128

/-- Four zero words. -/
def zeroBlock : Block := ⟨0, 0, 0, 0⟩

/-- The state right after power-on with nothing to do (R30, R230): every register 0, no buffer byte written, no
transaction pending, default parameters (R7). -/
def State.reset : State where
  params   := Params.default
  key      := Vector.replicate 8 0
  ivin     := zeroBlock
  iv       := zeroBlock
  state    := zeroBlock
  rk       := Vector.replicate 60 0
  buflen   := 0
  mlen     := 0
  status   := Status.zero
  result   := 0
  outlen   := 0
  fcode    := 0
  finfo    := 0
  fcmd     := 0
  mem      := []
  powerOns := 0
  pending  := []
  resp     := .noData

end Sys2Proof.Machine
end

