-- ==== Sys2Proof/Machine/Flags.lean ====
section
/-! DEFINITION. The flag-like values of CORE: the numbers of fault and result codes, the word form of `STATUS` and
the sizes that `STATUS.KSZ` selects (spec 10_state.md R21, R26; 42_key_schedule.md R120; 60_exceptions.md R201,
R203). CORE has no arithmetic condition codes (R26). -/

namespace Sys2Proof.Machine

/-- The `FCODE` number of a cause (R201). -/
def FaultCode.number : FaultCode → Word
  | .illegalCmd       => 1
  | .keySize          => 2
  | .noKey            => 3
  | .noIv             => 4
  | .bufRange         => 5
  | .unalignedLen     => 6
  | .lenExceeds       => 7
  | .padRange         => 8
  | .emptyBuffer      => 9
  | .unpadRange       => 10
  | .padExceedsBuffer => 11
  | .roundIndex       => 12

/-- The `RESULT` number of a result code (R203). -/
def ResultCode.number : ResultCode → Word
  | .ok                      => 0
  | .paddingTooLarge         => 1
  | .mismatchingPaddingBytes => 2

/-- The result code that the parameter `ERR_ZERO_PAD` stands for (R7, R178). -/
def zeroPadCode : ZeroPadError → ResultCode
  | .paddingTooLarge         => .paddingTooLarge
  | .mismatchingPaddingBytes => .mismatchingPaddingBytes

/-- The two-bit code in `STATUS[4:3]` (R21). -/
def KeySize.code : KeySize → BitVec 2
  | .k128 => 0
  | .k192 => 1
  | .k256 => 2

/-- `Nk = 4 + 2 * KSZ` (R21). -/
def KeySize.nk (k : KeySize) : Nat := 4 + 2 * k.code.toNat

/-- `Nr = 10 + 2 * KSZ` (R21). -/
def KeySize.nr (k : KeySize) : Nat := 10 + 2 * k.code.toNat

/-- `Nw = 44 + 8 * KSZ` (R21). -/
def KeySize.nw (k : KeySize) : Nat := 44 + 8 * k.code.toNat

/-- The key size of a key length in bytes: 16, 24 and 32 are legal, no other length is (R62, R120). -/
def KeySize.ofKlen (n : Nat) : Option KeySize :=
  if n = 16 then some .k128
  else if n = 24 then some .k192
  else if n = 32 then some .k256
  else none

/-- `STATUS` as the host reads it: bits 31:5 zero, then `KSZ`, `IVVALID`, `KVALID`, `FAULT` (R21, R190). -/
def Status.toWord (t : Status) : Word :=
  0#27 ++ t.ksz.code ++ BitVec.ofBool t.ivvalid ++ BitVec.ofBool t.kvalid ++ BitVec.ofBool t.fault

end Sys2Proof.Machine
end

