-- ==== Sys2Proof/Machine/Ops.lean ====
section
/-! DEFINITION. The shared operations over the buffer memory and the registers: reading and writing buffer bytes
(spec 00_scope.md R8), reading register arrays, completing a command (10_state.md R22), taking a fault
(60_exceptions.md R206), running a command behind its checks (R207, R212), and the reset event, which is the only
way out of a fault (R209, 70_reset_and_hazards.md R230). -/

namespace Sys2Proof.Machine

/-! ### The buffer memory -/

/-- The canonical form: addresses strictly rising. An unlisted address has no listed value, so no entry can equal
what an unlisted address holds (log entry 1). -/
def Memory.wf : Memory → Bool
  | [] => true
  | [_] => true
  | (a, _) :: (b, w) :: rest => decide (a < b) && Memory.wf ((b, w) :: rest)

/-- Every listed address lies inside a buffer memory of `n` bytes (R28). -/
def Memory.within (n : Nat) (m : Memory) : Bool :=
  m.all fun c => decide (c.1 < n)

/-- The listed value of an address, if there is one. -/
def Memory.lookup : Memory → Nat → Option Byte
  | [], _ => none
  | (b, v) :: rest, a => if a = b then some v else Memory.lookup rest a

/-- Store one byte, keeping the canonical form. -/
def Memory.store : Memory → Nat → Byte → Memory
  | [], a, v => [(a, v)]
  | (b, w) :: rest, a, v =>
    if a < b then (a, v) :: (b, w) :: rest
    else if a = b then (a, v) :: rest
    else (b, w) :: Memory.store rest a v

/-- Store a byte sequence, lowest address first (R8 `MemWrite`). -/
def Memory.storeBytes : Memory → Nat → List Byte → Memory
  | m, _, [] => m
  | m, a, v :: vs => Memory.storeBytes (m.store a v) (a + 1) vs

/-- `BUF[a]`. A byte that nothing has written since power-on has an unknown value: the free value (R30, U1, U2). -/
def State.bufByte (s : State) (a : Nat) : Byte :=
  (s.mem.lookup a).getD (Config.powerOnByte s.powerOns a)

/-- `MemRead(a, n)`: the bytes `BUF[a], ..., BUF[a+n-1]`, lowest address first (R8). -/
def State.memRead (s : State) : Nat → Nat → List Byte
  | _, 0 => []
  | a, n + 1 => s.bufByte a :: s.memRead (a + 1) n

/-- `MemWrite(a, n, v)`: store the byte sequence `v` from address `a` on (R8). -/
def State.memWrite (s : State) (a : Nat) (v : List Byte) : State :=
  { s with mem := s.mem.storeBytes a v }

/-! ### Register arrays -/

/-- `KEY[0 .. n-1]` (R12). -/
def State.keyWords (s : State) (n : Nat) : List Word := s.key.toList.take n

/-- `RoundKey(r) = (RK[4r], RK[4r+1], RK[4r+2], RK[4r+3])` (R135). Every use has `r <= Nr`, so no index reaches
past `RK[59]`. -/
def roundKey (rk : Vector Word 60) (r : Nat) : Block :=
  ⟨rk.getD (4 * r) 0, rk.getD (4 * r + 1) 0, rk.getD (4 * r + 2) 0, rk.getD (4 * r + 3) 0⟩

/-- The number of rounds of the current cipher instance (R21). -/
def State.rounds (s : State) : Nat := s.status.ksz.nr

/-! ### Completing and faulting -/

/-- A command that completes writes its result code (R22, R203). -/
def State.complete (s : State) (c : ResultCode) : State :=
  { s with result := c.number }

/-- Fault entry (R206): set `FAULT`, record cause, detail and the command word, change nothing else. -/
def State.faultEntry (s : State) (r : Raise) (w : Word) : State :=
  { s with
    status := { s.status with fault := true }
    fcode  := r.code.number
    finfo  := r.info
    fcmd   := w }

/-- The first failing check, if any: exactly one fault is reported (R212). -/
def firstRaise : List (Option Raise) → Option Raise
  | [] => none
  | some r :: _ => some r
  | none :: rest => firstRaise rest

/-- A check that raises `Fault(code, info)` when `bad` holds. -/
def failWhen (bad : Bool) (code : FaultCode) (info : Word) : Option Raise :=
  if bad then some ⟨code, info⟩ else none

/-- Run the command with word `w` on `s`. While `FAULT` = 1 it is ignored (R207); otherwise its checks are made in
order, the first that fails is taken as a fault (R206, R212), and only when none fails is the command's effect
`done` the next state: every check comes before the first write (R8). -/
def runCommand (w : Word) (s : State) (checks : List (Option Raise)) (done : State) :
    Host.Outcome State Fault Refusal :=
  if s.status.fault then .next s
  else match firstRaise checks with
    | some r => .next (s.faultEntry r w)
    | none => .next done

/-! ### Reset -/

/-- The reset event with power kept: every register at its reset value, the buffer keeps its bytes (R230). There is
no return from a fault other than this and power-on (R209). The parameters, the host's remaining events and the
power-on count are not registers of the block. -/
def State.resetRegisters (s : State) : State :=
  { State.reset with
    params   := s.params
    mem      := s.mem
    powerOns := s.powerOns
    pending  := s.pending }

/-- A power-on reset: as the reset event, and every buffer byte is unknown afresh (R230). -/
def State.powerCycle (s : State) : State :=
  { s.resetRegisters with
    mem      := []
    powerOns := s.powerOns + 1 }

end Sys2Proof.Machine
end

