-- ==== Sys2Proof/Machine/Operands.lean ====
section
/-! DEFINITION. Operand forms and byte order: bytes of a word, the big-endian mapping between byte sequences and
words (spec 00_scope.md R8, 20_memory.md R40), blocks in the buffer, and the columns of a block (10_state.md R15). -/

namespace Sys2Proof.Machine

/-- `byte(w, r) = w[31-8r : 24-8r]` for `r` in 0..3 (R8): byte 0 is the most significant. -/
def byteOf (w : Word) (r : Nat) : Byte := (w >>> (24 - 8 * r)).setWidth 8

/-- `word(b0, b1, b2, b3)`: the word with `byte(w, r) = b_r` (R8). -/
def wordOfBytes (b0 b1 b2 b3 : Byte) : Word := b0 ++ b1 ++ b2 ++ b3

/-- Column `c` of a block (R15). -/
def col (b : Block) (c : Fin 4) : Word :=
  match c with
  | 0 => b.w0
  | 1 => b.w1
  | 2 => b.w2
  | 3 => b.w3

/-- The block with the given columns. -/
def ofCols (f : Fin 4 → Word) : Block := ⟨f 0, f 1, f 2, f 3⟩

/-- The block with column `c` replaced (a host write to one word of a register array, R191). -/
def setCol (b : Block) (c : Fin 4) (v : Word) : Block :=
  match c with
  | 0 => { b with w0 := v }
  | 1 => { b with w1 := v }
  | 2 => { b with w2 := v }
  | 3 => { b with w3 := v }

/-- The grid byte `s(r, c) = byte(STATE[c], r)` (R15). -/
def gridByte (b : Block) (r : Nat) (c : Fin 4) : Byte := byteOf (col b c) r

/-- `A ^ B` on blocks, word by word (R160). -/
def xorBlock (a b : Block) : Block := ⟨a.w0 ^^^ b.w0, a.w1 ^^^ b.w1, a.w2 ^^^ b.w2, a.w3 ^^^ b.w3⟩

/-- The word at byte index `k` of a byte sequence, first byte most significant (R40). -/
def wordAt (b : List Byte) (k : Nat) : Word :=
  wordOfBytes (b.getD k 0) (b.getD (k + 1) 0) (b.getD (k + 2) 0) (b.getD (k + 3) 0)

/-- `BlockToWords` on 16 bytes: `W[c] = word(b[4c], b[4c+1], b[4c+2], b[4c+3])` (R40). -/
def blockToWords (b : List Byte) : Block := ⟨wordAt b 0, wordAt b 4, wordAt b 8, wordAt b 12⟩

/-- The four bytes of a word, most significant first (R40). -/
def wordBytes (w : Word) : List Byte := [byteOf w 0, byteOf w 1, byteOf w 2, byteOf w 3]

/-- `WordsToBlock`: the 16 bytes of a block (R40). -/
def wordsToBlock (b : Block) : List Byte :=
  wordBytes b.w0 ++ wordBytes b.w1 ++ wordBytes b.w2 ++ wordBytes b.w3

/-- `LoadBlock(a) = BlockToWords(MemRead(a, 16))` (R8). -/
def State.loadBlock (s : State) (a : Nat) : Block := blockToWords (s.memRead a 16)

/-- `StoreBlock(a, W)` is `MemWrite(a, 16, WordsToBlock(W))` (R8). -/
def State.storeBlock (s : State) (a : Nat) (b : Block) : State := s.memWrite a (wordsToBlock b)

end Sys2Proof.Machine
end

