-- ==== Sys2Proof/Machine/Checks.lean ====
section
/-! DEFINITION. The precondition checks of the commands, each a possible fault (spec 60_exceptions.md R201, R212;
44_ecb.md R150; 46_padding.md R175). -/

namespace Sys2Proof.Machine

/-- `STATUS.KVALID = 0`: `NO_KEY` (R201 code 3). -/
def needKey (s : State) : Option Raise := failWhen (!s.status.kvalid) .noKey 0

/-- `STATUS.IVVALID = 0`: `NO_IV` (R201 code 4). -/
def needIv (s : State) : Option Raise := failWhen (!s.status.ivvalid) .noIv 0

/-- `r > Nr`: `ROUND_INDEX` (R107, R201 code 12). -/
def roundInRange (s : State) (rnd : BitVec 4) : Option Raise :=
  failWhen (decide (rnd.toNat > s.rounds)) .roundIndex (rnd.setWidth 32)

/-- `KLEN` not 16, 24 or 32: `KEY_SIZE` (R123, R201 code 2). -/
def legalKlen (klen : BitVec 8) : Option Raise :=
  failWhen (KeySize.ofKlen klen.toNat).isNone .keySize (klen.setWidth 32)

/-- `OFF + 16 > BUF_BYTES`: `BUF_RANGE` with the offset (R139, R201 code 5). -/
def blockInBuf (s : State) (off : BitVec 24) : Option Raise :=
  failWhen (decide (off.toNat + 16 > s.params.bufBytes)) .bufRange (off.setWidth 32)

/-- `BUFLEN > BUF_BYTES`: `BUF_RANGE` with the length (R150, R201 code 5). -/
def bufferInBuf (s : State) : Option Raise :=
  failWhen (decide (s.buflen.toNat > s.params.bufBytes)) .bufRange s.buflen

/-- `BUFLEN mod 16 != 0`: `UNALIGNED_LEN` (R150, R201 code 6). -/
def bufferAligned (s : State) : Option Raise :=
  failWhen (decide (s.buflen.toNat % 16 ≠ 0)) .unalignedLen s.buflen

/-- `CheckBuffer()` (R150): inside the memory, then a whole number of blocks. -/
def checkBuffer (s : State) : List (Option Raise) := [bufferInBuf s, bufferAligned s]

/-- The pad length `BUFLEN - MLEN`, once `MLEN <= BUFLEN` (R175). -/
def State.padLength (s : State) : Nat := s.buflen.toNat - s.mlen.toNat

/-- `CheckPad()` (R175): `LEN_EXCEEDS`, then `PAD_RANGE`. -/
def checkPad (s : State) : List (Option Raise) :=
  [failWhen (decide (s.mlen.toNat > s.buflen.toNat)) .lenExceeds s.mlen,
   failWhen (decide (s.padLength > 255)) .padRange (BitVec.ofNat 32 s.padLength)]

/-- The padding checks a padding selector asks for: none for the no-op padding (R151, R179). -/
def checkSelectedPad (s : State) : PadSelect → List (Option Raise)
  | .noPad => []
  | .pkcs7 => checkPad s

/-- `BUFLEN = 0` in an unpad command: `EMPTY_BUFFER` (R177, R201 code 9). -/
def bufferNonempty (s : State) : Option Raise :=
  failWhen (decide (s.buflen.toNat = 0)) .emptyBuffer 0

/-- The pad-length byte `p = BUF[BUFLEN-1]` (R177, R178). -/
def State.padByte (s : State) : Byte := s.bufByte (s.buflen.toNat - 1)

/-- `UNPAD_MAX` = 16 (R7, 90_conflicts.md C4). -/
def unpadMax : Nat := 16

/-- `p > 16` in `UNPAD`: `UNPAD_RANGE` (R177, R201 code 10). -/
def padByteInRange (s : State) : Option Raise :=
  failWhen (decide (s.padByte.toNat > unpadMax)) .unpadRange (s.padByte.setWidth 32)

/-- `p > BUFLEN`: `PAD_EXCEEDS_BUFFER` (R177, R201 code 11). -/
def padFitsBuffer (s : State) : Option Raise :=
  failWhen (decide (s.padByte.toNat > s.buflen.toNat)) .padExceedsBuffer (s.padByte.setWidth 32)

/-- The same check in `UNPADCHK`, which makes it only after the data checks `p > 16` and `p = 0` (R178). -/
def padFitsBufferChecked (s : State) : Option Raise :=
  if s.padByte.toNat > 16 ∨ s.padByte = 0 then none else padFitsBuffer s

end Sys2Proof.Machine
end

