-- ==== Sys2Proof/Machine/Field.lean ====
section
/-! DEFINITION. Arithmetic of GF(2^8) and the constant tables (spec 40_field_and_tables.md R80 to R88). -/

namespace Sys2Proof.Machine

/-- `xtime(a)`: multiplication by 2, reducing with 0x1B when the shift pushes out a 1 (R81). -/
def xtime (a : Byte) : Byte :=
  if a.msb then (a <<< 1) ^^^ 0x1B#8 else a <<< 1

/-- The loop of `gmul`, for a multiplier `k` below 2^n: add `a` for the low bit of `k`, double `a`, halve `k` (R82). -/
def gmulLoop : Nat → Byte → Nat → Byte → Byte
  | 0, _, _, r => r
  | n + 1, a, k, r => gmulLoop n (xtime a) (k / 2) (if k % 2 = 1 then r ^^^ a else r)

/-- `gmul(a, k)` for a byte `a` and a natural number `k < 256` (R82). -/
def gmul (a : Byte) (k : Nat) : Byte := gmulLoop 8 a k 0

/-- Rows `0x` to `fx` of `SBOX`, sixteen bytes a row, column 0 first (R84, from general knowledge: G1). -/
def sboxRows : List (BitVec 128) :=
  [0x637c777bf26b6fc53001672bfed7ab76#128, 0xca82c97dfa5947f0add4a2af9ca472c0#128,
   0xb7fd9326363ff7cc34a5e5f171d83115#128, 0x04c723c31896059a071280e2eb27b275#128]
  ++ [0x09832c1a1b6e5aa0523bd6b329e32f84#128, 0x53d100ed20fcb15b6acbbe394a4c58cf#128,
   0xd0efaafb434d338545f9027f503c9fa8#128, 0x51a3408f929d38f5bcb6da2110fff3d2#128]
  ++ [0xcd0c13ec5f974417c4a77e3d645d1973#128, 0x60814fdc222a908846eeb814de5e0bdb#128,
   0xe0323a0a4906245cc2d3ac629195e479#128, 0xe7c8376d8dd54ea96c56f4ea657aae08#128]
  ++ [0xba78252e1ca6b4c6e8dd741f4bbd8b8a#128, 0x703eb5664803f60e613557b986c11d9e#128,
   0xe1f8981169d98e949b1e87e9ce5528df#128, 0x8ca1890dbfe6426841992d0fb054bb16#128]

/-- Rows `0x` to `fx` of `INVSBOX` (R85, from general knowledge: G1). -/
def invSboxRows : List (BitVec 128) :=
  [0x52096ad53036a538bf40a39e81f3d7fb#128, 0x7ce339829b2fff87348e4344c4dee9cb#128,
   0x547b9432a6c2233dee4c950b42fac34e#128, 0x082ea16628d924b2765ba2496d8bd125#128]
  ++ [0x72f8f66486689816d4a45ccc5d65b692#128, 0x6c704850fdedb9da5e154657a78d9d84#128,
   0x90d8ab008cbcd30af7e45805b8b34506#128, 0xd02c1e8fca3f0f02c1afbd0301138a6b#128]
  ++ [0x3a9111414f67dcea97f2cfcef0b4e673#128, 0x96ac7422e7ad3585e2f937e81c75df6e#128,
   0x47f11a711d29c5896fb7620eaa18be1b#128, 0xfc563e4bc6d279209adbc0fe78cd5af4#128]
  ++ [0x1fdda8338807c731b11210592780ec5f#128, 0x60517fa919b54a0d2de57a9f93c99cef#128,
   0xa0e03b4dae2af5b0c8ebbb3c83539961#128, 0x172b047eba77d626e169146355210c7d#128]

/-- The entry of a table for input byte `0xRC`: row `R`, column `C` (R84). -/
def tableByte (rows : List (BitVec 128)) (a : Byte) : Byte :=
  ((rows.getD (a.toNat / 16) 0) >>> (8 * (15 - a.toNat % 16))).setWidth 8

/-- `SBOX[a]` (R84). -/
def sbox (a : Byte) : Byte := tableByte sboxRows a

/-- `INVSBOX[a]` (R85). -/
def invSbox (a : Byte) : Byte := tableByte invSboxRows a

/-- `RCON[0..9]` (R86). -/
def rcon : List Byte := [0x01, 0x02, 0x04, 0x08, 0x10, 0x20, 0x40, 0x80, 0x1B, 0x36]

/-- `RconWord(j)`: `RCON[j]` in the most significant byte (R86). It is used for `j <= 9` only (R122). -/
def rconWord (j : Nat) : Word := wordOfBytes (rcon.getD j 0) 0 0 0

/-- `RotWord`: rotate the four bytes left by one byte position (R87). -/
def rotWord (w : Word) : Word := wordOfBytes (byteOf w 1) (byteOf w 2) (byteOf w 3) (byteOf w 0)

/-- `SubWord`: the S-box on each byte (R87). -/
def subWord (w : Word) : Word :=
  wordOfBytes (sbox (byteOf w 0)) (sbox (byteOf w 1)) (sbox (byteOf w 2)) (sbox (byteOf w 3))

/-- The inverse S-box on each byte of a word (R102). -/
def invSubWord (w : Word) : Word :=
  wordOfBytes (invSbox (byteOf w 0)) (invSbox (byteOf w 1)) (invSbox (byteOf w 2)) (invSbox (byteOf w 3))

end Sys2Proof.Machine
end

