-- ==== Sys2Proof/Machine/RoundTransforms.lean ====
section
/-! DEFINITION. The round-transform engine: the seven transforms as functions on four words, and their commands
`SUBB`, `ISUBB`, `SHROW`, `ISHROW`, `MIXC`, `IMIXC`, `ADDRK` (spec 41_round_transforms.md R100 to R108). -/

namespace Sys2Proof.Machine

/-- SubBytes: `S'[c] = SubWord(S[c])` (R101). -/
def subBytes (S : Block) : Block := ofCols fun c => subWord (col S c)

/-- InvSubBytes: `s'(r, c) = INVSBOX[s(r, c)]` (R102). -/
def invSubBytes (S : Block) : Block := ofCols fun c => invSubWord (col S c)

/-- ShiftRows: `s'(r, c) = s(r, (c + r) mod 4)`; index arithmetic on columns is modulo 4 (R103). -/
def shiftRows (S : Block) : Block :=
  ofCols fun c =>
    wordOfBytes (gridByte S 0 c) (gridByte S 1 (c + 1)) (gridByte S 2 (c + 2)) (gridByte S 3 (c + 3))

/-- InvShiftRows: `s'(r, c) = s(r, (c - r) mod 4)` (R104). -/
def invShiftRows (S : Block) : Block :=
  ofCols fun c =>
    wordOfBytes (gridByte S 0 c) (gridByte S 1 (c + 3)) (gridByte S 2 (c + 2)) (gridByte S 3 (c + 1))

/-- MixColumns on one column: the circulant matrix with first row (2, 3, 1, 1) (R105). -/
def mixColumn (w : Word) : Word :=
  let a0 := byteOf w 0
  let a1 := byteOf w 1
  let a2 := byteOf w 2
  let a3 := byteOf w 3
  wordOfBytes
    (gmul a0 2 ^^^ gmul a1 3 ^^^ a2 ^^^ a3)
    (a0 ^^^ gmul a1 2 ^^^ gmul a2 3 ^^^ a3)
    (a0 ^^^ a1 ^^^ gmul a2 2 ^^^ gmul a3 3)
    (gmul a0 3 ^^^ a1 ^^^ a2 ^^^ gmul a3 2)

/-- InvMixColumns on one column: the circulant matrix with first row (14, 11, 13, 9) (R106). -/
def invMixColumn (w : Word) : Word :=
  let a0 := byteOf w 0
  let a1 := byteOf w 1
  let a2 := byteOf w 2
  let a3 := byteOf w 3
  wordOfBytes
    (gmul a0 14 ^^^ gmul a1 11 ^^^ gmul a2 13 ^^^ gmul a3 9)
    (gmul a0 9 ^^^ gmul a1 14 ^^^ gmul a2 11 ^^^ gmul a3 13)
    (gmul a0 13 ^^^ gmul a1 9 ^^^ gmul a2 14 ^^^ gmul a3 11)
    (gmul a0 11 ^^^ gmul a1 13 ^^^ gmul a2 9 ^^^ gmul a3 14)

/-- MixColumns (R105). -/
def mixColumns (S : Block) : Block := ofCols fun c => mixColumn (col S c)

/-- InvMixColumns (R106). -/
def invMixColumns (S : Block) : Block := ofCols fun c => invMixColumn (col S c)

/-- AddRoundKey: XOR of the four state words with the four round-key words (R107). -/
def addRoundKey (S K : Block) : Block := xorBlock S K

/-- A keyless transform as a command: `STATE <- f(STATE)`, `RESULT <- 0` (R100). -/
def transformCommand (w : Word) (f : Block → Block) (s : State) : Host.Outcome State Fault Refusal :=
  runCommand w s [] ({ s with state := f s.state }.complete .ok)

/-- `SUBB` (R101). -/
def execSubb (s : State) : Host.Outcome State Fault Refusal :=
  transformCommand (encode .subb) subBytes s

/-- `ISUBB` (R102). -/
def execIsubb (s : State) : Host.Outcome State Fault Refusal :=
  transformCommand (encode .isubb) invSubBytes s

/-- `SHROW` (R103). -/
def execShrow (s : State) : Host.Outcome State Fault Refusal :=
  transformCommand (encode .shrow) shiftRows s

/-- `ISHROW` (R104). -/
def execIshrow (s : State) : Host.Outcome State Fault Refusal :=
  transformCommand (encode .ishrow) invShiftRows s

/-- `MIXC` (R105). -/
def execMixc (s : State) : Host.Outcome State Fault Refusal :=
  transformCommand (encode .mixc) mixColumns s

/-- `IMIXC` (R106). -/
def execImixc (s : State) : Host.Outcome State Fault Refusal :=
  transformCommand (encode .imixc) invMixColumns s

/-- `ADDRK r`: `NO_KEY`, then `ROUND_INDEX`; else `STATE <- AddRoundKey(STATE, RoundKey(r))` (R107). -/
def execAddrk (rnd : BitVec 4) (s : State) : Host.Outcome State Fault Refusal :=
  runCommand (encode (.addrk rnd)) s [needKey s, roundInRange s rnd]
    ({ s with state := addRoundKey s.state (roundKey s.rk rnd.toNat) }.complete .ok)

end Sys2Proof.Machine
end

