-- ==== Sys2Proof/Machine/BlockCipher.lean ====
section
/-! DEFINITION. The block cipher and its commands `ENCBLK`, `DECBLK`, `ENCBLKM`, `DECBLKM`
(spec 43_block_cipher.md R135 to R142). -/

namespace Sys2Proof.Machine

/-- `n` full rounds of the cipher, with round keys `r`, `r + 1`, ... (R135, the loop body). -/
def cipherRounds (rk : Vector Word 60) : Nat → Nat → Block → Block
  | 0, _, S => S
  | n + 1, r, S =>
    cipherRounds rk n (r + 1) (addRoundKey (mixColumns (shiftRows (subBytes S))) (roundKey rk r))

/-- `Cipher(S, RK, Nr)` (R135): AddRoundKey with round key 0, `Nr - 1` full rounds, a last round without
MixColumns. -/
def cipher (S : Block) (rk : Vector Word 60) (nr : Nat) : Block :=
  addRoundKey
    (shiftRows (subBytes (cipherRounds rk (nr - 1) 1 (addRoundKey S (roundKey rk 0)))))
    (roundKey rk nr)

/-- `n` full rounds of the inverse cipher, with round keys `n`, `n - 1`, ..., 1 (R136, the loop body). -/
def invCipherRounds (rk : Vector Word 60) : Nat → Block → Block
  | 0, S => S
  | n + 1, S =>
    invCipherRounds rk n
      (invMixColumns (addRoundKey (invSubBytes (invShiftRows S)) (roundKey rk (n + 1))))

/-- `InvCipher(S, RK, Nr)` (R136): AddRoundKey with round key `Nr`, `Nr - 1` full rounds with InvMixColumns after
AddRoundKey, a last round without it; the schedule is the cipher's own, last round key first. -/
def invCipher (S : Block) (rk : Vector Word 60) (nr : Nat) : Block :=
  addRoundKey
    (invSubBytes (invShiftRows (invCipherRounds rk (nr - 1) (addRoundKey S (roundKey rk nr)))))
    (roundKey rk 0)

/-- The cipher of the current instance (R137). -/
def State.encrypt (s : State) (S : Block) : Block := cipher S s.rk s.rounds

/-- The inverse cipher of the current instance (R138). -/
def State.decrypt (s : State) (S : Block) : Block := invCipher S s.rk s.rounds

/-- Replace the block at buffer address `a` by its image under `f`, leaving the image in `STATE`: load all 16
bytes, compute, store, keep the scratch copy (R139; the loop body of R151 and R152). -/
def State.processBlock (s : State) (f : Block → Block) (a : Nat) : State :=
  { s with
    mem   := (s.storeBlock a (f (s.loadBlock a))).mem
    state := f (s.loadBlock a) }

/-- `ENCBLK`: `NO_KEY`; else `STATE <- Cipher(STATE, RK, Nr)` (R137). -/
def execEncblk (s : State) : Host.Outcome State Fault Refusal :=
  runCommand (encode .encblk) s [needKey s] ({ s with state := s.encrypt s.state }.complete .ok)

/-- `DECBLK`: `NO_KEY`; else `STATE <- InvCipher(STATE, RK, Nr)` (R138). -/
def execDecblk (s : State) : Host.Outcome State Fault Refusal :=
  runCommand (encode .decblk) s [needKey s] ({ s with state := s.decrypt s.state }.complete .ok)

/-- `ENCBLKM off`: `NO_KEY`, `BUF_RANGE`; else encrypt `BUF[off .. off+15]` in place (R139). -/
def execEncblkm (off : BitVec 24) (s : State) : Host.Outcome State Fault Refusal :=
  runCommand (encode (.encblkm off)) s [needKey s, blockInBuf s off]
    ((s.processBlock s.encrypt off.toNat).complete .ok)

/-- `DECBLKM off`: `NO_KEY`, `BUF_RANGE`; else decrypt `BUF[off .. off+15]` in place (R140). -/
def execDecblkm (off : BitVec 24) (s : State) : Host.Outcome State Fault Refusal :=
  runCommand (encode (.decblkm off)) s [needKey s, blockInBuf s off]
    ((s.processBlock s.decrypt off.toNat).complete .ok)

end Sys2Proof.Machine
end

