-- ==== Sys2Proof/Machine/Padding.lean ====
section
/-! DEFINITION. The PKCS#7 padding unit: `PAD`, `UNPAD`, `UNPADCHK`, and the fill that `ECBENC 1` and `CBCENC 1`
share (spec 46_padding.md R175 to R180). -/

namespace Sys2Proof.Machine

/-- `PadFill()`: write the pad length `p = BUFLEN - MLEN` to the `p` bytes `BUF[MLEN .. BUFLEN-1]` (R175). -/
def State.padFill (s : State) : State :=
  s.memWrite s.mlen.toNat (List.replicate s.padLength (BitVec.ofNat 8 s.padLength))

/-- The padding step of a mode encryption: nothing for the no-op padding (R151, R179). -/
def State.applyPad (s : State) : PadSelect → State
  | .noPad => s
  | .pkcs7 => s.padFill

/-- `PAD`: `BUF_RANGE`, `LEN_EXCEEDS`, `PAD_RANGE`; else fill (R176). -/
def execPad (s : State) : Host.Outcome State Fault Refusal :=
  runCommand (encode .pad) s (bufferInBuf s :: checkPad s) (s.padFill.complete .ok)

/-- The length left after dropping `p` bytes, `BUFLEN - p` (R177). -/
def State.unpaddedLength (s : State) : Word := BitVec.ofNat 32 (s.buflen.toNat - s.padByte.toNat)

/-- `UNPAD`: `BUF_RANGE`, `EMPTY_BUFFER`, `UNPAD_RANGE`, `PAD_EXCEEDS_BUFFER`; else `OUTLEN <- BUFLEN - p` (R177). -/
def execUnpad (s : State) : Host.Outcome State Fault Refusal :=
  runCommand (encode .unpad) s [bufferInBuf s, bufferNonempty s, padByteInRange s, padFitsBuffer s]
    ({ s with outlen := s.unpaddedLength }.complete .ok)

/-- Some `j` in `BUFLEN-p .. BUFLEN-1` has `BUF[j] != p` (R178 check 7). -/
def State.padMismatch (s : State) : Bool :=
  (s.memRead (s.buflen.toNat - s.padByte.toNat) s.padByte.toNat).any fun b => b != s.padByte

/-- The data checks of `UNPADCHK`: `p > 16`, then `p = 0`, then the byte comparison (R178). -/
def State.unpadVerdict (s : State) : ResultCode :=
  if s.padByte.toNat > 16 then .paddingTooLarge
  else if s.padByte = 0 then zeroPadCode s.params.errZeroPad
  else if s.padMismatch then .mismatchingPaddingBytes
  else .ok

/-- `OUTLEN` after `UNPADCHK`: `BUFLEN - p` on success, 0 on a data error (R178, R23). -/
def State.checkedLength (s : State) : Word :=
  match s.unpadVerdict with
  | .ok => s.unpaddedLength
  | .paddingTooLarge => 0
  | .mismatchingPaddingBytes => 0

/-- `UNPADCHK`: `BUF_RANGE`, `EMPTY_BUFFER`, and for `1 <= p <= 16` `PAD_EXCEEDS_BUFFER`; else the verdict on the
padding bytes (R178). -/
def execUnpadchk (s : State) : Host.Outcome State Fault Refusal :=
  runCommand (encode .unpadchk) s [bufferInBuf s, bufferNonempty s, padFitsBufferChecked s]
    ({ s with outlen := s.checkedLength }.complete s.unpadVerdict)

end Sys2Proof.Machine
end

