-- ==== Sys2Proof/Machine/Ecb.lean ====
section
/-! DEFINITION. The ECB mode controller: `ECBENC`, `ECBDEC` (spec 44_ecb.md R150 to R153). -/

namespace Sys2Proof.Machine

/-- The number of blocks of the buffer, `BUFLEN div 16` (R150). -/
def State.blocks (s : State) : Nat := s.buflen.toNat / 16

/-- Process `n` blocks in ascending order from block `i` on, each alone (R151, R152). -/
def ecbLoop (f : Block → Block) : Nat → Nat → State → State
  | 0, _, s => s
  | n + 1, i, s => ecbLoop f n (i + 1) (s.processBlock f (16 * i))

/-- `ECBENC p`: `NO_KEY`, `BUF_RANGE`, `UNALIGNED_LEN`, and with padding `LEN_EXCEEDS`, `PAD_RANGE`; else pad, then
encrypt block by block (R151). -/
def execEcbenc (p : PadSelect) (s : State) : Host.Outcome State Fault Refusal :=
  runCommand (encode (.ecbenc p)) s (needKey s :: checkBuffer s ++ checkSelectedPad s p)
    ((ecbLoop s.encrypt s.blocks 0 (s.applyPad p)).complete .ok)

/-- `ECBDEC`: `NO_KEY`, `BUF_RANGE`, `UNALIGNED_LEN`; else decrypt block by block (R152). -/
def execEcbdec (s : State) : Host.Outcome State Fault Refusal :=
  runCommand (encode .ecbdec) s (needKey s :: checkBuffer s)
    ((ecbLoop s.decrypt s.blocks 0 s).complete .ok)

end Sys2Proof.Machine
end

