-- ==== Sys2Proof/Machine/Cbc.lean ====
section
/-! DEFINITION. The CBC mode controller: `SETIV`, `CBCENC`, `CBCDEC` (spec 45_cbc.md R160 to R164). -/

namespace Sys2Proof.Machine

/-- Encrypt `n` blocks from block `i` on, chained from `prev`: `S <- Cipher(P_i ^ PREV)`, store it, carry it on
(R162). -/
def cbcEncLoop (f : Block → Block) : Nat → Nat → Block → State → State
  | 0, _, _, s => s
  | n + 1, i, prev, s =>
    cbcEncLoop f n (i + 1) (f (xorBlock (s.loadBlock (16 * i)) prev))
      (s.processBlock (fun P => f (xorBlock P prev)) (16 * i))

/-- Decrypt `n` blocks from block `i` on, chained from `prev`: the ciphertext block is captured before the store,
`STATE` keeps the cipher's output before the chaining XOR (R163). -/
def cbcDecLoop (f : Block → Block) : Nat → Nat → Block → State → State
  | 0, _, _, s => s
  | n + 1, i, prev, s =>
    cbcDecLoop f n (i + 1) (s.loadBlock (16 * i))
      { s with
        mem   := (s.storeBlock (16 * i) (xorBlock (f (s.loadBlock (16 * i))) prev)).mem
        state := f (s.loadBlock (16 * i)) }

/-- `SETIV`: `NO_KEY`; else `IV <- IVIN`, `IVVALID <- 1` (R161). -/
def execSetiv (s : State) : Host.Outcome State Fault Refusal :=
  runCommand (encode .setiv) s [needKey s]
    ({ s with iv := s.ivin, status := { s.status with ivvalid := true } }.complete .ok)

/-- `CBCENC p`: `NO_KEY`, `NO_IV`, `BUF_RANGE`, `UNALIGNED_LEN`, and with padding `LEN_EXCEEDS`, `PAD_RANGE`; else
pad, then encrypt with `PREV <- IV` (R162). -/
def execCbcenc (p : PadSelect) (s : State) : Host.Outcome State Fault Refusal :=
  runCommand (encode (.cbcenc p)) s (needKey s :: needIv s :: checkBuffer s ++ checkSelectedPad s p)
    ((cbcEncLoop s.encrypt s.blocks 0 s.iv (s.applyPad p)).complete .ok)

/-- `CBCDEC`: `NO_KEY`, `NO_IV`, `BUF_RANGE`, `UNALIGNED_LEN`; else decrypt with `PREV <- IV` (R163). -/
def execCbcdec (s : State) : Host.Outcome State Fault Refusal :=
  runCommand (encode .cbcdec) s (needKey s :: needIv s :: checkBuffer s)
    ((cbcDecLoop s.decrypt s.blocks 0 s.iv s).complete .ok)

end Sys2Proof.Machine
end

