-- ==== Sys2Proof/Machine/KeySchedule.lean ====
section
/-! DEFINITION. The key-schedule expander and its commands `KEXP` and `DROP` (spec 42_key_schedule.md R120 to R126). -/

namespace Sys2Proof.Machine

/-- The next schedule word `W[i]`, from the words `W[i-1], W[i-2], ..., W[0]` (newest first, so `i` is their
number), by the step of R121. -/
def nextWord (nk : Nat) (ws : List Word) : Word :=
  let i := ws.length
  let prev := ws.getD 0 0
  let temp :=
    if i % nk = 0 then subWord (rotWord prev) ^^^ rconWord (i / nk - 1)
    else if nk = 8 ∧ i % nk = 4 then subWord prev
    else prev
  ws.getD (nk - 1) 0 ^^^ temp

/-- Append `n` more schedule words, newest first (R121, ascending `i`). -/
def extendSchedule (nk : Nat) : Nat → List Word → List Word
  | 0, ws => ws
  | n + 1, ws => extendSchedule nk n (nextWord nk ws :: ws)

/-- `ExpandKey(K[0 .. Nk-1], Nk) = W[0 .. Nw-1]` with `Nw = 4 * (Nk + 7)` (R121). -/
def expandKey (k : List Word) (nk : Nat) : List Word :=
  (extendSchedule nk (4 * (nk + 7) - nk) k.reverse).reverse

/-- `RK[0..59]` from a schedule: the words beyond it are zero (R123). -/
def scheduleRegs (w : List Word) : Vector Word 60 := Vector.ofFn fun i => w.getD i.val 0

/-- The effect of a legal `KEXP`: derive the schedule of the first `Nk` words of `KEY`, set `KSZ` and `KVALID`,
discard the CBC instance, `RESULT <- 0` (R123, R124). -/
def State.constructInstance (s : State) (k : KeySize) : State :=
  { s with
    rk     := scheduleRegs (expandKey (s.keyWords k.nk) k.nk)
    status := { s.status with kvalid := true, ivvalid := false, ksz := k }
    iv     := zeroBlock }.complete .ok

/-- `KEXP n`: `KEY_SIZE` unless `n` is 16, 24 or 32; else construct the instance (R123). The command word is
`0x20000000 | n` for every `n`. -/
def kexp (klen : BitVec 8) (s : State) : Host.Outcome State Fault Refusal :=
  runCommand (encode (.kexpOther klen)) s [legalKlen klen]
    ((KeySize.ofKlen klen.toNat).elim s s.constructInstance)

/-- `KEXP 16` (R123). -/
def execKexp128 (s : State) : Host.Outcome State Fault Refusal := kexp 16 s

/-- `KEXP 24` (R123). -/
def execKexp192 (s : State) : Host.Outcome State Fault Refusal := kexp 24 s

/-- `KEXP 32` (R123). -/
def execKexp256 (s : State) : Host.Outcome State Fault Refusal := kexp 32 s

/-- `KEXP n` for any other `n` (R123). -/
def execKexpOther (klen : BitVec 8) (s : State) : Host.Outcome State Fault Refusal := kexp klen s

/-- `DROP`: clear `RK`, `IV`, `STATE`, `KVALID`, `KSZ`, `IVVALID`; `RESULT <- 0` (R126). -/
def execDrop (s : State) : Host.Outcome State Fault Refusal :=
  runCommand (encode .drop) s []
    ({ s with
      rk     := Vector.replicate 60 0
      iv     := zeroBlock
      state  := zeroBlock
      status := { s.status with kvalid := false, ivvalid := false, ksz := .k128 } }.complete .ok)

end Sys2Proof.Machine
end

