-- ==== Sys2Proof/Machine/System.lean ====
section
/-! DEFINITION. The system command `NOP` (spec 47_system.md R195). -/

namespace Sys2Proof.Machine

/-- `NOP`: `RESULT <- 0` and nothing else (R195). -/
def execNop (s : State) : Host.Outcome State Fault Refusal :=
  runCommand (encode .nop) s [] (s.complete .ok)

end Sys2Proof.Machine
end

