-- ==== Sys2Proof/Machine/Dispatch.lean ====
section
/-! DEFINITION. The dispatch of a decoded command to its meaning, one arm per constructor. -/

namespace Sys2Proof.Machine

def exec (i : Instr) (s : State) : Host.Outcome State Fault Refusal :=
  match i with
  | .nop => Sys2Proof.Machine.execNop s
  | .subb => Sys2Proof.Machine.execSubb s
  | .isubb => Sys2Proof.Machine.execIsubb s
  | .shrow => Sys2Proof.Machine.execShrow s
  | .ishrow => Sys2Proof.Machine.execIshrow s
  | .mixc => Sys2Proof.Machine.execMixc s
  | .imixc => Sys2Proof.Machine.execImixc s
  | .addrk rnd => Sys2Proof.Machine.execAddrk rnd s
  | .kexp128 => Sys2Proof.Machine.execKexp128 s
  | .kexp192 => Sys2Proof.Machine.execKexp192 s
  | .kexp256 => Sys2Proof.Machine.execKexp256 s
  | .kexpOther klen => Sys2Proof.Machine.execKexpOther klen s
  | .drop => Sys2Proof.Machine.execDrop s
  | .encblk => Sys2Proof.Machine.execEncblk s
  | .decblk => Sys2Proof.Machine.execDecblk s
  | .encblkm off => Sys2Proof.Machine.execEncblkm off s
  | .decblkm off => Sys2Proof.Machine.execDecblkm off s
  | .ecbenc p => Sys2Proof.Machine.execEcbenc p s
  | .ecbdec => Sys2Proof.Machine.execEcbdec s
  | .setiv => Sys2Proof.Machine.execSetiv s
  | .cbcenc p => Sys2Proof.Machine.execCbcenc p s
  | .cbcdec => Sys2Proof.Machine.execCbcdec s
  | .pad => Sys2Proof.Machine.execPad s
  | .unpad => Sys2Proof.Machine.execUnpad s
  | .unpadchk => Sys2Proof.Machine.execUnpadchk s

end Sys2Proof.Machine
end

