-- ==== Sys2Proof/Machine/Bus.lean ====
section
/-! DEFINITION. The host port: the register map (spec 10_state.md R11), refused transactions (20_memory.md R44,
R45), the four host transactions (47_system.md R190 to R193), issuing a command (30_encoding.md R64) and the reset
events (70_reset_and_hazards.md R230). -/

namespace Sys2Proof.Machine

/-- The registers of R11. -/
inductive Reg where
  | cmd
  | status
  | result
  | outlen
  | fcode
  | finfo
  | fcmd
  | buflen
  | mlen
  | key (i : Fin 8)
  | ivin (c : Fin 4)
  | iv (c : Fin 4)
  | state (c : Fin 4)
  | rk (i : Fin 60)
  deriving DecidableEq, Repr

/-- The byte offset of a register (R11). -/
def Reg.offset : Reg → Nat
  | .cmd     => 0x000
  | .status  => 0x004
  | .result  => 0x008
  | .outlen  => 0x00C
  | .fcode   => 0x010
  | .finfo   => 0x014
  | .fcmd    => 0x018
  | .buflen  => 0x020
  | .mlen    => 0x024
  | .key i   => 0x040 + 4 * i.val
  | .ivin c  => 0x060 + 4 * c.val
  | .iv c    => 0x070 + 4 * c.val
  | .state c => 0x080 + 4 * c.val
  | .rk i    => 0x100 + 4 * i.val

/-- The register at word index `k` of the register window, that is at offset `4k`; none at a reserved offset
(R11). -/
def Reg.atIndex (k : Nat) : Option Reg :=
  if k = 0 then some .cmd
  else if k = 1 then some .status
  else if k = 2 then some .result
  else if k = 3 then some .outlen
  else if k = 4 then some .fcode
  else if k = 5 then some .finfo
  else if k = 6 then some .fcmd
  else if k = 8 then some .buflen
  else if k = 9 then some .mlen
  else if 16 ≤ k ∧ k < 24 then some (.key (Fin.ofNat 8 (k - 16)))
  else if 24 ≤ k ∧ k < 28 then some (.ivin (Fin.ofNat 4 (k - 24)))
  else if 28 ≤ k ∧ k < 32 then some (.iv (Fin.ofNat 4 (k - 28)))
  else if 32 ≤ k ∧ k < 36 then some (.state (Fin.ofNat 4 (k - 32)))
  else if 64 ≤ k ∧ k < 124 then some (.rk (Fin.ofNat 60 (k - 64)))
  else none

/-- The offset of the buffer window (R11). -/
def bufferBase : Nat := 0x1000

/-- The first offset beyond the buffer window (R45 (d)). -/
def State.windowEnd (s : State) : Nat := bufferBase + s.params.bufBytes

/-- What a 32-bit transaction at an offset reaches: a register, or a refusal (R44, R45). -/
def State.select32 (s : State) (o : Nat) : Except BusRefusal Reg :=
  if o < bufferBase then
    if o % 4 = 0 then
      match Reg.atIndex (o / 4) with
      | some r => .ok r
      | none => .error .reservedOffset
    else .error .registerWidth
  else if o < s.windowEnd then .error .bufferWidth
  else .error .beyondWindow

/-- What an 8-bit transaction at an offset reaches: a buffer address, or a refusal (R44, R45). -/
def State.select8 (s : State) (o : Nat) : Except BusRefusal Nat :=
  if o < bufferBase then .error .registerWidth
  else if o < s.windowEnd then .ok (o - bufferBase)
  else .error .beyondWindow

/-- Why a transaction of any other width is refused (R45). -/
def State.refuseWidth (s : State) (o : Nat) : BusRefusal :=
  if o < bufferBase then .registerWidth
  else if o < s.windowEnd then .bufferWidth
  else .beyondWindow

/-- The 32-bit value a host read of a register returns (R190): `CMD` reads 0, `STATUS` reads its fields. -/
def State.readReg (s : State) : Reg → Word
  | .cmd     => 0
  | .status  => s.status.toWord
  | .result  => s.result
  | .outlen  => s.outlen
  | .fcode   => s.fcode
  | .finfo   => s.finfo
  | .fcmd    => s.fcmd
  | .buflen  => s.buflen
  | .mlen    => s.mlen
  | .key i   => s.key[i]
  | .ivin c  => col s.ivin c
  | .iv c    => col s.iv c
  | .state c => col s.state c
  | .rk i    => s.rk[i]

/-- The store of a host write to a register other than `CMD`: the RW registers take the value, a write to a RO
register has no effect (R191). -/
def State.writeReg (s : State) (r : Reg) (v : Word) : State :=
  match r with
  | .buflen  => { s with buflen := v }
  | .mlen    => { s with mlen := v }
  | .key i   => { s with key := s.key.set i v }
  | .ivin c  => { s with ivin := setCol s.ivin c v }
  | .state c => { s with state := setCol s.state c v }
  | .cmd | .status | .result | .outlen | .fcode | .finfo | .fcmd | .iv _ | .rk _ => s

/-- Issue a command word (R25, R64): ignored while `FAULT` = 1, `ILLEGAL_CMD` when it does not decode (R67), else
executed. -/
def issue (w : Word) (s : State) : Host.Outcome State Fault Refusal :=
  if s.status.fault then .next s
  else match decode w with
    | .ok i => exec i s
    | .error _ => .next (s.faultEntry ⟨.illegalCmd, w⟩ w)

/-- `WR`: a write completes; while `FAULT` = 1 it has no effect; a write to `CMD` issues a command (R191). -/
def State.performWrite (s : State) (r : Reg) (v : Word) : Host.Outcome State Fault Refusal :=
  if s.status.fault then .next s
  else match r with
    | .cmd => issue v s
    | .status | .result | .outlen | .fcode | .finfo | .fcmd | .buflen | .mlen | .key _ | .ivin _ | .iv _
    | .state _ | .rk _ => .next (s.writeReg r v)

/-- One event on a state from whose pending events it has been taken (R190 to R194, R230). The answer of the port
is left in `resp`; a refused transaction stops the model (R45). -/
def perform (e : Event) (s : State) : Host.Outcome State Fault Refusal :=
  match e with
  | .rd o =>
    match s.select32 o with
    | .ok r => .next { s with resp := .word (s.readReg r) }
    | .error why => .fault (.busError why o)
  | .wr o v =>
    match s.select32 o with
    | .ok r => { s with resp := .completed }.performWrite r v
    | .error why => .fault (.busError why o)
  | .rdb o =>
    match s.select8 o with
    | .ok a => .next { s with resp := .byte (s.bufByte a) }
    | .error why => .fault (.busError why o)
  | .wrb o v =>
    match s.select8 o with
    | .ok a =>
      if s.status.fault then .next { s with resp := .completed }
      else .next { s with mem := (s.memWrite a [v]).mem, resp := .completed }
    | .error why => .fault (.busError why o)
  | .otherWidth o => .fault (.busError (s.refuseWidth o) o)
  | .reset => .next s.resetRegisters
  | .powerOn => .next s.powerCycle

end Sys2Proof.Machine
end

