-- ==== Sys2Proof/Machine/Step.lean ====
section
/-! DEFINITION. One step of the machine: the next event of the host or the environment (spec 47_system.md R194,
20_memory.md R50). -/

namespace Sys2Proof.Machine

/-- One step: the first pending event takes effect, a command running to completion inside it (R50, R194). With
nothing pending the block is idle and holds its state (60_exceptions.md R225). -/
def step (s : State) : Host.Outcome State Fault Refusal :=
  match s.pending with
  | [] => .next s
  | e :: rest => perform e { s with pending := rest }

/-- `s` with the table word `w` as the very next command: a `WR` to `CMD` put before the pending events, since a
command word is a value carried by the `CMD` write itself (R25, R56; log entry 4). -/
def State.withFetchWord (s : State) (nbits w : Nat) : State :=
  { s with pending := .wr 0 (tableWord nbits w) :: s.pending }

end Sys2Proof.Machine
end

