-- ==== Sys2Proof/Machine/Assembler.lean ====
section
/-! DEFINITION. The assembler of host programs: transaction lines, command lines and pseudo-instructions, from lines
of text to the transactions they stand for (spec 30_encoding.md R69, R70). The layout of a line beyond R69 (blanks,
tabs and commas separate words, a line may be empty) is log entry 12. -/

namespace Sys2Proof.Machine

/-- The sixteen mnemonics without an operand (R69). -/
inductive PlainMnemonic where
  | nop
  | subb
  | isubb
  | shrow
  | ishrow
  | mixc
  | imixc
  | drop
  | encblk
  | decblk
  | ecbdec
  | setiv
  | cbcdec
  | pad
  | unpad
  | unpadchk
  deriving DecidableEq, Repr

/-- Their opcodes (R66). -/
def PlainMnemonic.op : PlainMnemonic → Nat
  | .nop      => 0x00
  | .subb     => 0x10
  | .isubb    => 0x11
  | .shrow    => 0x12
  | .ishrow   => 0x13
  | .mixc     => 0x14
  | .imixc    => 0x15
  | .drop     => 0x21
  | .encblk   => 0x30
  | .decblk   => 0x31
  | .ecbdec   => 0x41
  | .setiv    => 0x50
  | .cbcdec   => 0x52
  | .pad      => 0x60
  | .unpad    => 0x61
  | .unpadchk => 0x62

/-- A line of a host program, numbers as written (R69, R70). -/
inductive AsmLine where
  /-- `WR reg, imm32` -/
  | wr (reg : Reg) (imm : Nat)
  /-- `RD reg`, with the value the rules predict if the line states one -/
  | rd (reg : Reg) (predicted : Option Nat)
  /-- `WRB addr, imm8` -/
  | wrb (addr imm : Nat)
  /-- `RDB addr`, with the value the rules predict if the line states one -/
  | rdb (addr : Nat) (predicted : Option Nat)
  /-- a mnemonic without an operand -/
  | plain (m : PlainMnemonic)
  /-- `ADDRK r` -/
  | addrk (r : Nat)
  /-- `KEXP n` -/
  | kexp (n : Nat)
  /-- `ENCBLKM off` -/
  | encblkm (off : Nat)
  /-- `DECBLKM off` -/
  | decblkm (off : Nat)
  /-- `ECBENC p` -/
  | ecbenc (p : Nat)
  /-- `CBCENC p` -/
  | cbcenc (p : Nat)
  /-- `LDKEY hex` -/
  | ldkey (key : List Byte)
  /-- `AES128.NEW hex`, `AES192.NEW hex`, `AES256.NEW hex` -/
  | aesNew (size : KeySize) (key : List Byte)
  /-- `LDIV hex` -/
  | ldiv (iv : List Byte)
  /-- `CBC.NEW hex` -/
  | cbcNew (iv : List Byte)
  /-- `LDBLK hex` -/
  | ldblk (block : List Byte)
  /-- `LDBUF addr, hex` -/
  | ldbuf (addr : Nat) (data : List Byte)
  /-- `SETLEN buflen, mlen` -/
  | setlen (buflen mlen : Nat)
  /-- `ECB.ENCRYPT buflen, mlen` -/
  | ecbEncrypt (buflen mlen : Nat)
  /-- `CBC.ENCRYPT buflen, mlen` -/
  | cbcEncrypt (buflen mlen : Nat)
  /-- `ECB.DECRYPT buflen` -/
  | ecbDecrypt (buflen : Nat)
  /-- `CBC.DECRYPT buflen` -/
  | cbcDecrypt (buflen : Nat)
  deriving DecidableEq, Repr

/-- Combine two results, if there are both. -/
def both {α β γ : Type} (f : α → β → γ) (a : Option α) (b : Option β) : Option γ :=
  a.bind fun x => b.map (f x)

/-! ### From lines to transactions -/

/-- `WR reg, imm32`; a value that is no 32-bit word is outside the stated range (R69). -/
def asmWrite (reg : Reg) (v : Nat) : Option (List Event) :=
  if v < 2 ^ 32 then some [.wr reg.offset (BitVec.ofNat 32 v)] else none

/-- `WR CMD, base | n` for an operand below `bound`; any other operand is refused (R69). -/
def asmCommand (base bound n : Nat) : Option (List Event) :=
  if n < bound then asmWrite .cmd (base ||| n) else none

/-- The words of a byte string staged in `n` consecutive registers, ascending (R70 `LDKEY`, `LDIV`, `LDBLK`). -/
def asmStage (reg : Nat → Reg) (bytes : List Byte) (n : Nat) : List Event :=
  (List.range n).map fun i => .wr (reg i).offset (wordAt bytes (4 * i))

/-- `LDKEY hex` for a key of `n` bytes; other lengths than 16, 24 and 32 bytes are refused (R70). -/
def asmKey (key : List Byte) : Option (List Event) :=
  match KeySize.ofKlen key.length with
  | some k => some (asmStage (fun i => .key (Fin.ofNat 8 i)) key k.nk)
  | none => none

/-- `LDIV hex` (R70). -/
def asmIv (iv : List Byte) : Option (List Event) :=
  if iv.length = 16 then some (asmStage (fun c => .ivin (Fin.ofNat 4 c)) iv 4) else none

/-- `SETLEN buflen, mlen` (R70). -/
def asmSetlen (buflen mlen : Nat) : Option (List Event) :=
  both (· ++ ·) (asmWrite .buflen buflen) (asmWrite .mlen mlen)

/-- The key length in bytes, `KLEN`, of a key size (R120). -/
def KeySize.bytes (k : KeySize) : Nat := 4 * k.nk

/-- The transactions a line stands for, or none where the assembler refuses an operand (R69, R70). -/
def assembleLine : AsmLine → Option (List Event)
  | .wr reg v            => asmWrite reg v
  | .rd reg _            => some [.rd reg.offset]
  | .wrb addr v          => if v < 256 then some [.wrb (bufferBase + addr) (BitVec.ofNat 8 v)] else none
  | .rdb addr _          => some [.rdb (bufferBase + addr)]
  | .plain m             => asmWrite .cmd (m.op <<< 24)
  | .addrk r             => asmCommand 0x16000000 16 r
  | .kexp n              => asmCommand 0x20000000 256 n
  | .encblkm off         => asmCommand 0x32000000 (2 ^ 24) off
  | .decblkm off         => asmCommand 0x33000000 (2 ^ 24) off
  | .ecbenc p            => asmCommand 0x40000000 2 p
  | .cbcenc p            => asmCommand 0x51000000 2 p
  | .ldkey key           => asmKey key
  | .aesNew size key     =>
    if key.length = size.bytes then both (· ++ ·) (asmKey key) (asmCommand 0x20000000 256 size.bytes)
    else none
  | .ldiv iv             => asmIv iv
  | .cbcNew iv           => both (· ++ ·) (asmIv iv) (asmWrite .cmd (PlainMnemonic.setiv.op <<< 24))
  | .ldblk block         =>
    if block.length = 16 then some (asmStage (fun c => .state (Fin.ofNat 4 c)) block 4) else none
  | .ldbuf addr data     =>
    some ((List.range data.length).map fun j => .wrb (bufferBase + addr + j) (data.getD j 0))
  | .setlen b m          => asmSetlen b m
  | .ecbEncrypt b m      => both (· ++ ·) (asmSetlen b m) (asmCommand 0x40000000 2 1)
  | .cbcEncrypt b m      => both (· ++ ·) (asmSetlen b m) (asmCommand 0x51000000 2 1)
  | .ecbDecrypt b        =>
    both (· ++ ·) (asmWrite .buflen b) (asmWrite .cmd (PlainMnemonic.ecbdec.op <<< 24))
  | .cbcDecrypt b        =>
    both (· ++ ·) (asmWrite .buflen b) (asmWrite .cmd (PlainMnemonic.cbcdec.op <<< 24))

/-- A program is a sequence of lines, executed in order (R69, R194). -/
def assembleLines : List AsmLine → Option (List Event)
  | [] => some []
  | l :: rest => both (· ++ ·) (assembleLine l) (assembleLines rest)

/-! ### From text to lines -/

/-- A decimal digit. -/
def decDigit (c : Char) : Option Nat :=
  if 48 ≤ c.toNat ∧ c.toNat ≤ 57 then some (c.toNat - 48) else none

/-- A hexadecimal digit, in either case. -/
def hexDigit (c : Char) : Option Nat :=
  if 97 ≤ c.toNat ∧ c.toNat ≤ 102 then some (c.toNat - 87)
  else if 65 ≤ c.toNat ∧ c.toNat ≤ 70 then some (c.toNat - 55)
  else decDigit c

/-- The value of a digit string, read after `acc`. -/
def digitsFrom (digit : Char → Option Nat) (base : Nat) : List Char → Nat → Option Nat
  | [], acc => some acc
  | c :: rest, acc => (digit c).bind fun d => digitsFrom digit base rest (base * acc + d)

/-- A number: decimal, or hexadecimal after `0x` (R69). DESIGN CHOICE: leading zeros are read, and `0X` is no prefix
(log entry 12). -/
def parseNumber : List Char → Option Nat
  | [] => none
  | '0' :: 'x' :: c :: rest => digitsFrom hexDigit 16 (c :: rest) 0
  | c :: rest => digitsFrom decDigit 10 (c :: rest) 0

/-- A string of hexadecimal digit pairs, first byte first (R70). -/
def parseHex : List Char → Option (List Byte)
  | [] => some []
  | [_] => none
  | a :: b :: rest =>
    both (fun v vs => v :: vs) (both (fun x y => BitVec.ofNat 8 (16 * x + y)) (hexDigit a) (hexDigit b))
      (parseHex rest)

/-- The rest of a word after a prefix. -/
def afterPrefix : List Char → List Char → Option (List Char)
  | [], w => some w
  | _ :: _, [] => none
  | a :: p, c :: w => if a = c then afterPrefix p w else none

/-- An element of a register array, its index in decimal, below the array's length (R69). DESIGN CHOICE: leading zeros
are read, so `KEY07` is `KEY7`; R69 writes the names without them and does not speak of them (log entry 12). -/
def parseElement (name : String) (n : Nat) (w : List Char) : Option Nat :=
  ((afterPrefix name.toList w).bind fun digits =>
    if digits = [] then none else digitsFrom decDigit 10 digits 0).bind fun i => if i < n then some i else none

/-- A register name (R11, R69). -/
def parseReg (w : List Char) : Option Reg :=
  if w = "CMD".toList then some .cmd
  else if w = "STATUS".toList then some .status
  else if w = "RESULT".toList then some .result
  else if w = "OUTLEN".toList then some .outlen
  else if w = "FCODE".toList then some .fcode
  else if w = "FINFO".toList then some .finfo
  else if w = "FCMD".toList then some .fcmd
  else if w = "BUFLEN".toList then some .buflen
  else if w = "MLEN".toList then some .mlen
  else ((parseElement "KEY" 8 w).map fun i => .key (Fin.ofNat 8 i))
    <|> ((parseElement "IVIN" 4 w).map fun c => .ivin (Fin.ofNat 4 c))
    <|> ((parseElement "IV" 4 w).map fun c => .iv (Fin.ofNat 4 c))
    <|> ((parseElement "STATE" 4 w).map fun c => .state (Fin.ofNat 4 c))
    <|> ((parseElement "RK" 60 w).map fun i => .rk (Fin.ofNat 60 i))

/-- A padding selector: a number, or one of the names `NOPAD` = 0 and `PKCS7` = 1 (R69). -/
def parsePadSelect (w : List Char) : Option Nat :=
  if w = "NOPAD".toList then some 0
  else if w = "PKCS7".toList then some 1
  else parseNumber w

/-- The mnemonics without an operand, by name (R66, R69). -/
def plainNames : List (String × PlainMnemonic) :=
  [("NOP", .nop), ("SUBB", .subb), ("ISUBB", .isubb), ("SHROW", .shrow), ("ISHROW", .ishrow), ("MIXC", .mixc),
    ("IMIXC", .imixc), ("DROP", .drop)]
  ++ [("ENCBLK", .encblk), ("DECBLK", .decblk), ("ECBDEC", .ecbdec), ("SETIV", .setiv), ("CBCDEC", .cbcdec),
    ("PAD", .pad), ("UNPAD", .unpad), ("UNPADCHK", .unpadchk)]

/-- The first mnemonic of the list that the word names. -/
def findName {α : Type} : List (String × α) → List Char → Option α
  | [], _ => none
  | (name, x) :: rest, w => if w = name.toList then some x else findName rest w

/-- A line with one operand, by the name of its mnemonic (R69, R70). -/
def oneOperand : List (String × (List Char → Option AsmLine)) :=
  [("RD", fun a => (parseReg a).map fun r => .rd r none),
   ("RDB", fun a => (parseNumber a).map fun n => .rdb n none),
   ("ADDRK", fun a => (parseNumber a).map .addrk),
   ("KEXP", fun a => (parseNumber a).map .kexp),
   ("ENCBLKM", fun a => (parseNumber a).map .encblkm),
   ("DECBLKM", fun a => (parseNumber a).map .decblkm),
   ("ECBENC", fun a => (parsePadSelect a).map .ecbenc),
   ("CBCENC", fun a => (parsePadSelect a).map .cbcenc)]
  ++ [("LDKEY", fun a => (parseHex a).map .ldkey),
   ("AES128.NEW", fun a => (parseHex a).map (.aesNew .k128)),
   ("AES192.NEW", fun a => (parseHex a).map (.aesNew .k192)),
   ("AES256.NEW", fun a => (parseHex a).map (.aesNew .k256)),
   ("LDIV", fun a => (parseHex a).map .ldiv),
   ("CBC.NEW", fun a => (parseHex a).map .cbcNew),
   ("LDBLK", fun a => (parseHex a).map .ldblk),
   ("ECB.DECRYPT", fun a => (parseNumber a).map .ecbDecrypt),
   ("CBC.DECRYPT", fun a => (parseNumber a).map .cbcDecrypt)]

/-- A line with two operands, by the name of its mnemonic (R69, R70). -/
def twoOperands : List (String × (List Char → List Char → Option AsmLine)) :=
  [("WR", fun a b => both .wr (parseReg a) (parseNumber b)),
   ("WRB", fun a b => both .wrb (parseNumber a) (parseNumber b)),
   ("LDBUF", fun a b => both .ldbuf (parseNumber a) (parseHex b)),
   ("SETLEN", fun a b => both .setlen (parseNumber a) (parseNumber b)),
   ("ECB.ENCRYPT", fun a b => both .ecbEncrypt (parseNumber a) (parseNumber b)),
   ("CBC.ENCRYPT", fun a b => both .cbcEncrypt (parseNumber a) (parseNumber b))]

/-- A read with the value that the rules predict, `RD reg -> value` or `RDB addr -> value` (R69). -/
def predictedRead : List (String × (List Char → List Char → Option AsmLine)) :=
  [("RD", fun a v => both (fun r n => .rd r (some n)) (parseReg a) (parseNumber v)),
   ("RDB", fun a v => both (fun n m => .rdb n (some m)) (parseNumber a) (parseNumber v))]

/-- A line from its words; an empty line has none (R69). -/
def parseWords : List (List Char) → Option (List AsmLine)
  | [] => some []
  | [m] => (findName plainNames m).map fun p => [.plain p]
  | [m, a] => ((findName oneOperand m).bind fun f => f a).map fun l => [l]
  | [m, a, b] => ((findName twoOperands m).bind fun f => f a b).map fun l => [l]
  | [m, a, arrow, v] =>
    if arrow = "->".toList then ((findName predictedRead m).bind fun f => f a v).map fun l => [l]
    else none
  | _ => none

/-- Close the word being read, if there is one. -/
def closeWord (word : List Char) (words : List (List Char)) : List (List Char) :=
  if word = [] then words else word.reverse :: words

/-- Read a program: words are separated by blanks, tabs and commas, a comment runs from `;` to the end of the line
(R69). The flag says that a comment is being skipped, `word` is the word being read, `words` the earlier words of
the line, both newest first. -/
def parseText : List Char → Bool → List Char → List (List Char) → Option (List AsmLine)
  | [], _, word, words => parseWords (closeWord word words).reverse
  | c :: rest, skipping, word, words =>
    if c = '\n' then
      both (· ++ ·) (parseWords (closeWord word words).reverse) (parseText rest false [] [])
    else if skipping then parseText rest true word words
    else if c = ';' then parseText rest true [] (closeWord word words)
    else if c = ' ' ∨ c = ',' ∨ c = '\t' then parseText rest false [] (closeWord word words)
    else parseText rest false (c :: word) words

/-- Assemble the text of a host program into its transactions; none where a line is not of R69 or R70 or an operand
is outside its range. -/
def assemble (text : List Char) : Option (List Event) :=
  (parseText text false [] []).bind assembleLines

/-- Give the host a program: its transactions become the next ones (R194, log entry 4). -/
def State.withProgram (s : State) (program : List Event) : State :=
  { s with pending := program ++ s.pending }

end Sys2Proof.Machine
end

