-- ==== Sys2Proof/Safety.lean ====
section
/-! DEFINITION. What claims about CORE are stated in: the invariants of the state (spec 10_state.md R31), the
session states (70_reset_and_hazards.md R232), the outcome of a run (R233), and which states a run reaches. -/

namespace Sys2Proof.Machine

/-- `RK` holds a schedule that `ExpandKey` derives from some `Nk` key words, and zeros beyond it (R31.3). -/
def State.HoldsSchedule (s : State) : Prop :=
  ∃ k : List Word, k.length = s.status.ksz.nk ∧ s.rk = scheduleRegs (expandKey k s.status.ksz.nk)

/-- The invariants of R31 on one state, the legality of the parameters (R7) and the canonical form of the buffer
memory. -/
structure State.Inv (s : State) : Prop where
  /-- the parameters are legal (R7) -/
  paramsLegal  : s.params.Legal
  /-- the buffer memory is in canonical form -/
  memCanonical : s.mem.wf = true
  /-- every listed byte lies inside the buffer memory (R28) -/
  memWithin    : s.mem.within s.params.bufBytes = true
  /-- without a cipher instance `RK` = 0, `KSZ` = 0 and there is no mode instance (R31.1) -/
  noInstance   : s.status.kvalid = false →
    s.rk = Vector.replicate 60 0 ∧ s.status.ksz = .k128 ∧ s.status.ivvalid = false
  /-- without a mode instance `IV` = 0 (R31.2) -/
  noIv         : s.status.ivvalid = false → s.iv = zeroBlock
  /-- with a cipher instance `RK` is a derived schedule (R31.3) -/
  schedule     : s.status.kvalid = true → s.HoldsSchedule
  /-- without a fault the fault registers are 0 (R31.5) -/
  noFault      : s.status.fault = false → s.fcode = 0 ∧ s.finfo = 0 ∧ s.fcmd = 0
  /-- with a fault `FCODE` is 1 to 12 (R31.5) -/
  faultCode    : s.status.fault = true → 1 ≤ s.fcode.toNat ∧ s.fcode.toNat ≤ 12
  /-- `RESULT` is 0, 1 or 2 (R31.6) -/
  resultCode   : s.result.toNat ≤ 2

/-- The states of the session (R232). -/
inductive Session where
  | empty
  | keyed
  | keyedIv
  | faulted
  deriving DecidableEq, Repr

/-- The session state that `STATUS` shows (R232); `IVVALID` without `KVALID` is unreachable and shows as EMPTY. -/
def State.session (s : State) : Session :=
  if s.status.fault then .faulted
  else if s.status.kvalid = false then .empty
  else if s.status.ivvalid then .keyedIv
  else .keyed

/-- A run succeeded when no fault is latched at its end (R233). -/
def State.Succeeded (s : State) : Prop := s.status.fault = false

/-- The buffer of the next command lies inside the buffer memory (R150). -/
def State.BufferFits (s : State) : Prop := s.buflen.toNat ≤ s.params.bufBytes

/-- The geometry a mode command needs (R150). -/
def State.BlockAligned (s : State) : Prop := s.BufferFits ∧ s.buflen.toNat % 16 = 0

/-- The geometry a padding fill needs (R175). -/
def State.PadFits (s : State) : Prop :=
  s.mlen.toNat ≤ s.buflen.toNat ∧ s.buflen.toNat - s.mlen.toNat ≤ 255

/-- Two states hold the same buffer bytes at every address. -/
def SameBuffer (s t : State) : Prop := ∀ a, t.bufByte a = s.bufByte a

/-- Two states hold the same buffer bytes outside the `n` bytes from address `a` on. -/
def SameBufferOutside (a n : Nat) (s t : State) : Prop :=
  ∀ b, b < a ∨ a + n ≤ b → t.bufByte b = s.bufByte b

/-- The states that some host and environment reach: from power-on with legal parameters, by letting any events
become pending and by steps (R31, R194, R230). -/
inductive Reachable : State → Prop where
  | boot (p : Params) (h : p.Legal) : Reachable { State.reset with params := p }
  | host (s : State) (h : Reachable s) (events : List Event) :
      Reachable { s with pending := s.pending ++ events }
  | step (s t : State) (h : Reachable s) (hs : Sys2Proof.Machine.step s = .next t) : Reachable t

/-! ### Conditions on the state -/

/-- `STATUS.FAULT` = 0: the block executes commands (R207). -/
abbrev State.Running (s : State) : Prop := s.status.fault = false

/-- A cipher instance exists and no fault is latched: the keyed commands run without `NO_KEY` (R232). -/
abbrev State.Keyed (s : State) : Prop := s.status.fault = false ∧ s.status.kvalid = true

/-- A CBC instance exists too: the CBC commands run without `NO_IV` (R232). -/
abbrev State.Chained (s : State) : Prop :=
  s.status.fault = false ∧ s.status.kvalid = true ∧ s.status.ivvalid = true

/-- The state with a fault latched: code, detail and command word recorded, nothing else changed (R206). -/
def State.faulted (s : State) (code info w : Word) : State :=
  { s with status := { s.status with fault := true }, fcode := code, finfo := info, fcmd := w }

/-! ### Sequences of commands -/

/-- Issue the commands one after the other. -/
def runCommands : List Instr → State → Host.Outcome State Fault Refusal
  | [], s => .next s
  | i :: rest, s =>
    match exec i s with
    | .next t => runCommands rest t
    | .fault r => .fault r
    | .refused r => .refused r

/-- Take `n` steps. -/
def runSteps : Nat → State → Host.Outcome State Fault Refusal
  | 0, s => .next s
  | n + 1, s =>
    match Sys2Proof.Machine.step s with
    | .next t => runSteps n t
    | .fault r => .fault r
    | .refused r => .refused r

/-- One encryption stepped by hand through the round commands (95_test_vectors.md P1, R135). -/
def encryptByHand (nr : Nat) : List Instr :=
  .addrk 0 ::
    (List.range (nr - 1)).flatMap (fun r => [.subb, .shrow, .mixc, .addrk (BitVec.ofNat 4 (r + 1))])
    ++ [.subb, .shrow, .addrk (BitVec.ofNat 4 nr)]

/-- One decryption stepped by hand through the round commands, round keys last to first (R136). -/
def decryptByHand (nr : Nat) : List Instr :=
  .addrk (BitVec.ofNat 4 nr) ::
    (List.range (nr - 1)).reverse.flatMap
      (fun r => [.ishrow, .isubb, .addrk (BitVec.ofNat 4 (r + 1)), .imixc])
    ++ [.ishrow, .isubb, .addrk 0]

/-! ### Checks, in the order of R202 and R212, with the code numbers of R201 -/

/-- The checks of `CheckBuffer()` and of the unpad and padding commands on `BUFLEN`: code 5, then code 6. -/
def geometryChecks (s : State) : List (Bool × Word × Word) :=
  [(decide (s.params.bufBytes < s.buflen.toNat), 5, s.buflen),
   (decide (s.buflen.toNat % 16 ≠ 0), 6, s.buflen)]

/-- The checks of `CheckPad()`: code 7, then code 8. -/
def padChecks (s : State) : List (Bool × Word × Word) :=
  [(decide (s.buflen.toNat < s.mlen.toNat), 7, s.mlen),
   (decide (255 < s.buflen.toNat - s.mlen.toNat), 8, s.buflen - s.mlen)]

/-- The checks a padding selector adds. -/
def selectedPadChecks (p : PadSelect) (s : State) : List (Bool × Word × Word) :=
  match p with
  | .noPad => []
  | .pkcs7 => padChecks s

/-- The last byte of the buffer as the unpad commands read it (R177, R178). -/
def State.lastByte (s : State) : Byte := s.bufByte (s.buflen.toNat - 1)

/-- What each command checks after decoding, in order: (fails, `FCODE`, `FINFO`), one row of R202 per command. -/
def checksOf (i : Instr) (s : State) : List (Bool × Word × Word) :=
  let noKey := (!s.status.kvalid, 3, 0)
  let noIv := (!s.status.ivvalid, 4, 0)
  let p := s.lastByte
  let range := (decide (s.params.bufBytes < s.buflen.toNat), 5, s.buflen)
  let empty := (decide (s.buflen = 0), 9, 0)
  let exceeds := (decide (s.buflen.toNat < p.toNat), 11, p.setWidth 32)
  match i with
  | .nop | .subb | .isubb | .shrow | .ishrow | .mixc | .imixc | .drop => []
  | .kexp128 | .kexp192 | .kexp256 => []
  | .kexpOther n => [(n != 16 && n != 24 && n != 32, 2, n.setWidth 32)]
  | .addrk r => [noKey, (decide (10 + 2 * s.status.ksz.code.toNat < r.toNat), 12, r.setWidth 32)]
  | .encblk | .decblk | .setiv => [noKey]
  | .encblkm off | .decblkm off =>
    [noKey, (decide (s.params.bufBytes < off.toNat + 16), 5, off.setWidth 32)]
  | .ecbenc pad => noKey :: geometryChecks s ++ selectedPadChecks pad s
  | .ecbdec => noKey :: geometryChecks s
  | .cbcenc pad => noKey :: noIv :: geometryChecks s ++ selectedPadChecks pad s
  | .cbcdec => noKey :: noIv :: geometryChecks s
  | .pad => range :: padChecks s
  | .unpad => [range, empty, (decide (16 < p.toNat), 10, p.setWidth 32), exceeds]
  | .unpadchk => [range, empty, (decide (1 ≤ p.toNat ∧ p.toNat ≤ 16) && exceeds.1, 11, p.setWidth 32)]

/-- The first failing check: its `FCODE` and `FINFO` (R212). -/
def firstFailing : List (Bool × Word × Word) → Option (Word × Word)
  | [] => none
  | (bad, code, info) :: rest => if bad then some (code, info) else firstFailing rest

/-- The commands that need the schedule (R201 code 3). -/
def needsKey : Instr → Bool
  | .addrk _ | .encblk | .decblk | .encblkm _ | .decblkm _ | .ecbenc _ | .ecbdec | .setiv | .cbcenc _ | .cbcdec => true
  | .nop | .subb | .isubb | .shrow | .ishrow | .mixc | .imixc | .kexp128 | .kexp192 | .kexp256 | .kexpOther _
  | .drop | .pad | .unpad | .unpadchk => false

/-- The commands that need the CBC instance (R201 code 4). -/
def needsIv : Instr → Bool
  | .cbcenc _ | .cbcdec => true
  | .addrk _ | .encblk | .decblk | .encblkm _ | .decblkm _ | .ecbenc _ | .ecbdec | .setiv | .nop | .subb | .isubb
  | .shrow | .ishrow | .mixc | .imixc | .kexp128 | .kexp192 | .kexp256 | .kexpOther _ | .drop | .pad | .unpad
  | .unpadchk => false

/-! ### Buffer bytes a command reads and writes (R46) -/

/-- The bytes a command writes when it completes: start and length. -/
def writtenRange (i : Instr) (s : State) : Nat × Nat :=
  match i with
  | .encblkm off | .decblkm off => (off.toNat, 16)
  | .ecbenc _ | .ecbdec | .cbcenc _ | .cbcdec => (0, s.buflen.toNat)
  | .pad => (s.mlen.toNat, s.buflen.toNat - s.mlen.toNat)
  | .nop | .subb | .isubb | .shrow | .ishrow | .mixc | .imixc | .addrk _ | .kexp128 | .kexp192 | .kexp256
  | .kexpOther _ | .drop | .encblk | .decblk | .setiv | .unpad | .unpadchk => (0, 0)

/-- The bytes of the host's data a command reads. -/
def readsByte (i : Instr) (s : State) (a : Nat) : Prop :=
  match i with
  | .encblkm off | .decblkm off => off.toNat ≤ a ∧ a < off.toNat + 16
  | .ecbenc .noPad | .ecbdec | .cbcenc .noPad | .cbcdec => a < s.buflen.toNat
  | .ecbenc .pkcs7 | .cbcenc .pkcs7 => a < s.mlen.toNat
  | .unpad => a + 1 = s.buflen.toNat
  | .unpadchk => a + 1 = s.buflen.toNat ∨
      (1 ≤ s.lastByte.toNat ∧ s.lastByte.toNat ≤ 16 ∧ s.lastByte.toNat ≤ s.buflen.toNat ∧
        s.buflen.toNat - s.lastByte.toNat ≤ a ∧ a < s.buflen.toNat)
  | .nop | .subb | .isubb | .shrow | .ishrow | .mixc | .imixc | .addrk _ | .kexp128 | .kexp192 | .kexp256
  | .kexpOther _ | .drop | .encblk | .decblk | .setiv | .pad => False

/-! ### The plaintext of a mode encryption -/

/-- The buffer byte at `a` once the selected padding has been applied (R175, R179). -/
def State.paddedByte (s : State) (p : PadSelect) (a : Nat) : Byte :=
  match p with
  | .noPad => s.bufByte a
  | .pkcs7 =>
    if s.mlen.toNat ≤ a ∧ a < s.buflen.toNat then BitVec.ofNat 8 (s.buflen.toNat - s.mlen.toNat)
    else s.bufByte a

/-- Plaintext block `i` of a mode encryption: bytes `16i .. 16i+15` of the padded buffer (R150, R151). -/
def State.plainBlock (s : State) (p : PadSelect) (i : Nat) : Block :=
  blockToWords ((List.range 16).map fun j => s.paddedByte p (16 * i + j))

/-! ### Key schedules, registers as the host sees them -/

/-- `W` is the schedule of the first `Nk` words of `key`, as R121 gives it word by word, with zeros from `Nw` on. -/
def IsSchedule (key : Vector Word 8) (nk nw : Nat) (W : Vector Word 60) : Prop :=
  (∀ i, i < nk → W.getD i 0 = key.getD i 0) ∧
  (∀ i, nk ≤ i → i < nw →
    W.getD i 0 = W.getD (i - nk) 0 ^^^
      (if i % nk = 0 then subWord (rotWord (W.getD (i - 1) 0)) ^^^ rconWord (i / nk - 1)
       else if nk = 8 ∧ i % nk = 4 then subWord (W.getD (i - 1) 0)
       else W.getD (i - 1) 0)) ∧
  (∀ i, nw ≤ i → i < 60 → W.getD i 0 = 0)

/-- `KEXP` of a legal key length. -/
def kexpOf : KeySize → Instr
  | .k128 => .kexp128
  | .k192 => .kexp192
  | .k256 => .kexp256

/-- Offset and value of every register a host can read (R11, R190). -/
def readableWords (s : State) : List (Nat × Word) :=
  [(0x000, 0),
   (0x004, BitVec.ofNat 32 (8 * s.status.ksz.code.toNat + 4 * s.status.ivvalid.toNat
      + 2 * s.status.kvalid.toNat + s.status.fault.toNat)),
   (0x008, s.result), (0x00C, s.outlen), (0x010, s.fcode), (0x014, s.finfo), (0x018, s.fcmd),
   (0x020, s.buflen), (0x024, s.mlen)]
  ++ (List.finRange 8).map (fun i => (0x040 + 4 * i.val, s.key[i]))
  ++ (List.finRange 4).map (fun c => (0x060 + 4 * c.val, col s.ivin c))
  ++ (List.finRange 4).map (fun c => (0x070 + 4 * c.val, col s.iv c))
  ++ (List.finRange 4).map (fun c => (0x080 + 4 * c.val, col s.state c))
  ++ (List.finRange 60).map (fun i => (0x100 + 4 * i.val, s.rk[i]))

/-- The offsets of the read-only registers (R11). -/
def readOnlyOffset (o : Nat) : Prop :=
  o % 4 = 0 ∧ ((0x004 ≤ o ∧ o ≤ 0x018) ∨ (0x070 ≤ o ∧ o < 0x080) ∨ (0x100 ≤ o ∧ o < 0x1F0))

/-- The reserved offsets of the register window (R11). -/
def reservedOffset (o : Nat) : Prop :=
  o % 4 = 0 ∧ (o = 0x01C ∨ (0x028 ≤ o ∧ o ≤ 0x03C) ∨ (0x090 ≤ o ∧ o ≤ 0x0FC) ∨ (0x1F0 ≤ o ∧ o ≤ 0xFFC))

/-- The refused transactions, cases (a) to (d) of R45; a reset is no transaction. -/
def refusedTransaction (bufBytes : Nat) : Event → Prop
  | .rd o | .wr o _ => reservedOffset o ∨ o % 4 ≠ 0 ∨ 0x1000 ≤ o
  | .rdb o | .wrb o _ => o < 0x1000 ∨ 0x1000 + bufBytes ≤ o
  | .otherWidth _ => True
  | .reset | .powerOn => False

/-- The assembler line of a command (R69). -/
def lineOf : Instr → AsmLine
  | .nop => .plain .nop
  | .subb => .plain .subb
  | .isubb => .plain .isubb
  | .shrow => .plain .shrow
  | .ishrow => .plain .ishrow
  | .mixc => .plain .mixc
  | .imixc => .plain .imixc
  | .addrk r => .addrk r.toNat
  | .kexp128 => .kexp 16
  | .kexp192 => .kexp 24
  | .kexp256 => .kexp 32
  | .kexpOther n => .kexp n.toNat
  | .drop => .plain .drop
  | .encblk => .plain .encblk
  | .decblk => .plain .decblk
  | .encblkm off => .encblkm off.toNat
  | .decblkm off => .decblkm off.toNat
  | .ecbenc p => .ecbenc (padBit p).toNat
  | .ecbdec => .plain .ecbdec
  | .setiv => .plain .setiv
  | .cbcenc p => .cbcenc (padBit p).toNat
  | .cbcdec => .plain .cbcdec
  | .pad => .plain .pad
  | .unpad => .plain .unpad
  | .unpadchk => .plain .unpadchk

/-- The affine map of the S-box construction, `b ^ rotl8(b,1) ^ rotl8(b,2) ^ rotl8(b,3) ^ rotl8(b,4) ^ 0x63`
(R84, from general knowledge: G1). -/
def sboxAffine (b : Byte) : Byte :=
  b ^^^ b.rotateLeft 1 ^^^ b.rotateLeft 2 ^^^ b.rotateLeft 3 ^^^ b.rotateLeft 4 ^^^ 0x63

end Sys2Proof.Machine
end

