-- ==== Sys2Proof/Certificates/Slice0/Obligations.lean ====
section
/-! DEFINITION. The statements for the provers: what the numbered rules of the spec say that a command, a transaction,
the reset event or the whole block does. -/

open Sys2Proof Sys2Proof.Machine

/-! ### Command words (30_encoding.md) -/

/-- Every well-formed command is what its word decodes to: no bit of an encoding is dropped (R61, R62, R64, R66). -/
def Obligations.DecodeInvertsEncode : Prop :=
  ∀ i : Instr, i.wellFormed = true → decode (encode i) = .ok i

/-- A word that decodes selects exactly one command, and it is the word of that command (R64). -/
def Obligations.EncodeInvertsDecode : Prop :=
  ∀ (w : Word) (i : Instr), decode w = .ok i → i.wellFormed = true ∧ encode i = w

/-- A word decodes exactly when it selects a row of the table; it decodes to a command of a row it selects, and that
row has the largest mask among the rows it selects (R66, the `KEXP` rows). -/
def Obligations.LegalWordsSelectTableRows : Prop :=
  ∀ w : Word,
    ((∃ i, decode w = .ok i) ↔ ∃ r ∈ opcodeTable, r.selects w) ∧
    ∀ i, decode w = .ok i →
      (rowOf i).selects w ∧ ∀ r ∈ opcodeTable, r.selects w → r.mask &&& (rowOf i).mask = r.mask

/-- Words written out from the formats of R61 and the opcode map of R65, one per family, and what they stand for. -/
def Obligations.SampleWordsDecode : Prop :=
  decode 0b00000000000000000000000000000000 = .ok .nop ∧
  decode 0b00010010000000000000000000000000 = .ok .shrow ∧
  decode 0b00010110000000000000000000001110 = .ok (.addrk 14) ∧
  decode 0b00100000000000000000000000011000 = .ok .kexp192 ∧
  decode 0b00100000000000000000000000010001 = .ok (.kexpOther 17) ∧
  decode 0b00110010000000000000000000100001 = .ok (.encblkm 33) ∧
  decode 0b01000000000000000000000000000001 = .ok (.ecbenc .pkcs7) ∧
  decode 0b01010001000000000000000000000000 = .ok (.cbcenc .noPad) ∧
  decode 0b01100010000000000000000000000000 = .ok .unpadchk ∧
  decode 0b00010000000000000000000000000001 = .error (.mustBeZero 0x10 1) ∧
  decode 0b01110000000000000000000000000000 = .error (.unassignedOpcode 0x70)

/-- Issuing a word that selects no row of the table is fault `ILLEGAL_CMD` with the word as detail and as command
word, and nothing else changes in the block (R64, R67, R206). -/
def Obligations.IllegalWordsFault : Prop :=
  ∀ (s : State) (w : Word) (rest : List Event), s.Running → s.pending = .wr 0 w :: rest →
    (∀ r ∈ opcodeTable, ¬ r.selects w) →
    step s = .next ({ s with pending := rest, resp := .completed }.faulted 1 w w)

/-- Writing the word of a command to `CMD` runs that command: the step is the command's meaning on the state whose
pending events have moved on and whose port has answered (R25, R50, R64, R194; the two fields are log entry 3). -/
def Obligations.StepRunsDecodedCommand : Prop :=
  ∀ (s : State) (w : Word) (rest : List Event) (i : Instr), s.Running → s.pending = .wr 0 w :: rest →
    decode w = .ok i → step s = exec i { s with pending := rest, resp := .completed }

/-- The assembler turns the line of every command into the write of its word to `CMD`, and refuses an operand outside
the range that R69 states. -/
def Obligations.AssemblerIssuesCommandWords : Prop :=
  (∀ i : Instr, assembleLine (lineOf i) = some [.wr 0 (encode i)]) ∧
  (∀ n, 16 ≤ n → assembleLine (.addrk n) = none) ∧
  (∀ n, 256 ≤ n → assembleLine (.kexp n) = none) ∧
  (∀ n, 2 ^ 24 ≤ n → assembleLine (.encblkm n) = none ∧ assembleLine (.decblkm n) = none) ∧
  (∀ n, 2 ≤ n → assembleLine (.ecbenc n) = none ∧ assembleLine (.cbcenc n) = none)

/-! ### Host transactions (47_system.md, 20_memory.md) -/

/-- A host read of a register returns its value and changes nothing but what the model keeps of the port (log entry 3);
it works in every state, also while `FAULT` = 1 (R190, R48, R207). -/
def Obligations.RegisterReadsReturnTheRegister : Prop :=
  ∀ (s : State) (o : Nat) (v : Word) (rest : List Event), s.pending = .rd o :: rest →
    (o, v) ∈ readableWords s → step s = .next { s with pending := rest, resp := .word v }

/-- `WR o, v` (R191), every case: frozen, `CMD`, the registers a host may write, the read-only registers, and refusal.
That a refused write stops the model (R45), also while `FAULT` = 1, is the model's choice (log entry 5). -/
def Obligations.RegisterWrites : Prop :=
  ∀ (s : State) (o : Nat) (v : Word) (rest : List Event), s.pending = .wr o v :: rest →
    let s' := { s with pending := rest, resp := .completed }
    (s.status.fault = true → ¬ refusedTransaction s.params.bufBytes (.wr o v) → step s = .next s') ∧
    (s.Running →
      (∀ i, o = 0 → decode v = .ok i → step s = exec i s') ∧
      (∀ e, o = 0 → decode v = .error e → step s = .next (s'.faulted 1 v v)) ∧
      (o = 0x020 → step s = .next { s' with buflen := v }) ∧
      (o = 0x024 → step s = .next { s' with mlen := v }) ∧
      (∀ i : Fin 8, o = 0x040 + 4 * i.val → step s = .next { s' with key := s.key.set i v }) ∧
      (∀ c : Fin 4, o = 0x060 + 4 * c.val → step s = .next { s' with ivin := setCol s.ivin c v }) ∧
      (∀ c : Fin 4, o = 0x080 + 4 * c.val → step s = .next { s' with state := setCol s.state c v }) ∧
      (readOnlyOffset o → step s = .next s')) ∧
    (refusedTransaction s.params.bufBytes (.wr o v) → ∃ why, step s = .fault (.busError why o))

/-- `WRB a, v` (R193): while `FAULT` = 1 no effect, else the byte is stored; outside the buffer memory, or at another
width, a 32-bit one among them, the transaction is refused. The rest of the state is unchanged. That a refused
transaction stops the model (R45), also while `FAULT` = 1, is the model's choice (log entry 5). -/
def Obligations.BufferByteWrites : Prop :=
  ∀ (s : State) (rest : List Event),
    (∀ (a : Nat) (v : Byte), s.pending = .wrb (0x1000 + a) v :: rest → a < s.params.bufBytes →
      (s.status.fault = true → step s = .next { s with pending := rest, resp := .completed }) ∧
      (s.Running → ∃ t, step s = .next t ∧
        t = { s with mem := t.mem, pending := rest, resp := .completed } ∧
        ∀ b, t.bufByte b = if b = a then v else s.bufByte b)) ∧
    (∀ (a : Nat) (v : Byte), s.pending = .wrb (0x1000 + a) v :: rest → s.params.bufBytes ≤ a →
      ∃ why, step s = .fault (.busError why (0x1000 + a))) ∧
    (∀ o v, s.pending = .wr o v :: rest → 0x1000 ≤ o → ∃ why, step s = .fault (.busError why o)) ∧
    (∀ o, s.pending = .otherWidth o :: rest → ∃ why, step s = .fault (.busError why o))

/-- `RDB a` (R192): the byte is returned in every state, also while `FAULT` = 1, and nothing else changes; outside the
buffer memory, or at another width, a 32-bit one among them, the transaction is refused. That a refused transaction
stops the model (R45) is the model's choice (log entry 5). -/
def Obligations.BufferByteReads : Prop :=
  ∀ (s : State) (rest : List Event),
    (∀ a, s.pending = .rdb (0x1000 + a) :: rest →
      (a < s.params.bufBytes → step s = .next { s with pending := rest, resp := .byte (s.bufByte a) }) ∧
      (s.params.bufBytes ≤ a → ∃ why, step s = .fault (.busError why (0x1000 + a)))) ∧
    (∀ o, s.pending = .rd o :: rest → 0x1000 ≤ o → ∃ why, step s = .fault (.busError why o)) ∧
    (∀ o, s.pending = .otherWidth o :: rest → ∃ why, step s = .fault (.busError why o))

/-- The model gives a transaction no step exactly when it is refused (R44, R45). To give it no step, also while
`FAULT` = 1, is the model's choice among the two ways of R45 (log entry 5). -/
def Obligations.RefusedTransactionsHaveNoStep : Prop :=
  ∀ (s : State) (e : Event) (rest : List Event), s.pending = e :: rest →
    (refusedTransaction s.params.bufBytes e → ∃ why o, step s = .fault (.busError why o)) ∧
    (¬ refusedTransaction s.params.bufBytes e → ∃ t, step s = .next t)

/-! ### Reset, invariants, faults (70_reset_and_hazards.md, 10_state.md, 60_exceptions.md) -/

/-- The state after reset (R30): every register 0. The parameters' defaults are R7's; nothing pending, no answer, an
empty list of written bytes and the power-on count 0 are the model's choice (log entries 1, 2, 3). -/
def Obligations.ResetValues : Prop :=
  (∀ i : Fin 8, State.reset.key[i] = 0) ∧ (∀ c, col State.reset.ivin c = 0) ∧ (∀ c, col State.reset.iv c = 0) ∧
  (∀ c, col State.reset.state c = 0) ∧ (∀ i : Fin 60, State.reset.rk[i] = 0) ∧
  State.reset.buflen = 0 ∧ State.reset.mlen = 0 ∧ State.reset.status.toWord = 0 ∧ State.reset.result = 0 ∧
  State.reset.outlen = 0 ∧ State.reset.fcode = 0 ∧ State.reset.finfo = 0 ∧ State.reset.fcmd = 0 ∧
  State.reset.params.bufBytes = 4096 ∧ State.reset.params.errZeroPad = .mismatchingPaddingBytes ∧
  State.reset.mem = [] ∧ State.reset.pending = [] ∧ State.reset.resp = .noData ∧ State.reset.powerOns = 0

/-- The reset event (R230) from every state, the frozen ones too: every register takes its reset value. With power
kept every buffer byte keeps what it held; after a power-on no byte is listed as written, so that all are unknown (log
entry 1). That the host's remaining events stay pending is the model's choice (log entry 3). -/
def Obligations.ResetEvent : Prop :=
  ∀ (s : State) (rest : List Event),
    (s.pending = .reset :: rest → step s = .next { State.reset with
      params := s.params, mem := s.mem, powerOns := s.powerOns, pending := rest }) ∧
    (s.pending = .powerOn :: rest → step s = .next { State.reset with
      params := s.params, mem := [], powerOns := s.powerOns + 1, pending := rest })

/-- The invariants of R31 hold after reset. -/
def Obligations.ResetSatisfiesInvariant : Prop :=
  State.reset.Inv

/-- Every step keeps the invariants of R31: no instance means no schedule, no vector and `KSZ` = 0; a valid schedule
is one that `ExpandKey` derives; the fault registers and `RESULT` stay in range; the buffer memory stays canonical. -/
def Obligations.StepKeepsInvariant : Prop :=
  ∀ s t : State, s.Inv → step s = .next t → t.Inv

/-- The frozen state (R207): while `FAULT` = 1 every command is ignored, so is every write of the host, legal or not;
reads work (`RegisterReadsReturnTheRegister`, `BufferByteReads`); nothing changes by itself; only a reset leaves it. -/
def Obligations.FrozenUntilReset : Prop :=
  ∀ s : State, s.status.fault = true →
    (∀ i, exec i s = .next s) ∧
    (∀ w rest, s.pending = .wr 0 w :: rest → step s = .next { s with pending := rest, resp := .completed }) ∧
    (∀ o v rest t, s.pending = .wr o v :: rest → step s = .next t →
      t = { s with pending := rest, resp := .completed }) ∧
    (∀ o v rest t, s.pending = .wrb o v :: rest → step s = .next t →
      t = { s with pending := rest, resp := .completed }) ∧
    (∀ o v rest, s.pending = .rd o :: rest → (o, v) ∈ readableWords s →
      step s = .next { s with pending := rest, resp := .word v }) ∧
    (∀ a rest, s.pending = .rdb (0x1000 + a) :: rest → a < s.params.bufBytes →
      step s = .next { s with pending := rest, resp := .byte (s.bufByte a) }) ∧
    (s.pending = [] → step s = .next s) ∧
    (∀ t, step s = .next t → t.status.fault = false →
      ∃ rest, s.pending = .reset :: rest ∨ s.pending = .powerOn :: rest)

/-- Fault entry (R206): a command, legal or not, that ends with a fault has set `FAULT`, recorded a code, a detail and
the word it was issued as, and changed nothing else; the `CMD` write has completed. Which code and detail each command
reports is said by `IllegalWordsFault` and `FirstFailingCheckIsReported`. -/
def Obligations.FaultEntryIsPrecise : Prop :=
  ∀ (s t : State) (w : Word) (rest : List Event), s.Running → s.pending = .wr 0 w :: rest → step s = .next t →
    t.status.fault = true →
    t = { s with pending := rest, resp := .completed }.faulted t.fcode t.finfo w

/-- A command faults exactly when one of its checks fails, and then the first failing one is reported (R202, R212);
otherwise it completes without a fault. -/
def Obligations.FirstFailingCheckIsReported : Prop :=
  ∀ (i : Instr) (s : State), s.Running →
    (∀ code info, firstFailing (checksOf i s) = some (code, info) →
      exec i s = .next (s.faulted code info (encode i))) ∧
    (firstFailing (checksOf i s) = none →
      ∃ t, exec i s = .next t ∧ t.status.fault = false ∧ t.fcode = s.fcode ∧ t.finfo = s.finfo ∧ t.fcmd = s.fcmd)

/-! ### System command and round transforms (47_system.md R195, 41_round_transforms.md) -/

/-- `NOP` (R195): `RESULT <- 0`, nothing else; ignored while `FAULT` = 1; any argument bit makes the word illegal. -/
def Obligations.NopClearsResult : Prop :=
  ∀ s : State,
    (s.Running → exec .nop s = .next { s with result := 0 }) ∧
    (s.status.fault = true → exec .nop s = .next s) ∧
    decode 0x00000000 = .ok .nop ∧
    (∀ w, opField w = 0x00 → argField w ≠ 0 → s.Running → issue w s = .next (s.faulted 1 w w))

/-- `SUBB` and `ISUBB` (R101, R102): each of the 16 bytes is substituted, no byte moves, `RESULT <- 0`, and nothing
else changes; there is no condition but decode. Corner cases and examples of the rules included. -/
def Obligations.SubstitutionCommands : Prop :=
  decode 0x10000000 = .ok .subb ∧ decode 0x11000000 = .ok .isubb ∧
  (∀ s : State, s.Running →
    (∃ t, exec .subb s = .next t ∧ t = { s with state := t.state, result := 0 } ∧
      (∀ r c : Fin 4, gridByte t.state r.val c = sbox (gridByte s.state r.val c)) ∧
      (∀ c, col t.state c = subWord (col s.state c)) ∧
      (∀ u, exec .isubb t = .next u → u.state = s.state)) ∧
    (∃ t, exec .isubb s = .next t ∧ t = { s with state := t.state, result := 0 } ∧
      (∀ r c : Fin 4, gridByte t.state r.val c = invSbox (gridByte s.state r.val c)) ∧
      (∀ u, exec .subb t = .next u → u.state = s.state))) ∧
  subBytes zeroBlock = ⟨0x63636363, 0x63636363, 0x63636363, 0x63636363⟩ ∧
  invSubBytes zeroBlock = ⟨0x52525252, 0x52525252, 0x52525252, 0x52525252⟩ ∧
  subBytes ⟨0x00102030, 0x40506070, 0x8090a0b0, 0xc0d0e0f0⟩
    = ⟨0x63cab704, 0x0953d051, 0xcd60e0e7, 0xba70e18c⟩ ∧
  invSubBytes ⟨0x63cab704, 0x0953d051, 0xcd60e0e7, 0xba70e18c⟩
    = ⟨0x00102030, 0x40506070, 0x8090a0b0, 0xc0d0e0f0⟩

/-- `SHROW` and `ISHROW` (R103, R104): the byte at row `r`, column `c` comes from column `c + r`, or `c - r`, modulo 4
(`Fin 4` adds and subtracts modulo 4); `RESULT <- 0`, and nothing else changes. Corner cases and examples included. -/
def Obligations.RowRotationCommands : Prop :=
  decode 0x12000000 = .ok .shrow ∧ decode 0x13000000 = .ok .ishrow ∧
  (∀ s : State, s.Running →
    (∃ t, exec .shrow s = .next t ∧ t = { s with state := t.state, result := 0 } ∧
      (∀ r c : Fin 4, gridByte t.state r.val c = gridByte s.state r.val (c + r)) ∧
      (∀ u, exec .ishrow t = .next u → u.state = s.state)) ∧
    (∃ t, exec .ishrow s = .next t ∧ t = { s with state := t.state, result := 0 } ∧
      (∀ r c : Fin 4, gridByte t.state r.val c = gridByte s.state r.val (c - r)) ∧
      (∀ u, exec .shrow t = .next u → u.state = s.state))) ∧
  (∀ S, shiftRows (subBytes S) = subBytes (shiftRows S) ∧
    invShiftRows (invSubBytes S) = invSubBytes (invShiftRows S)) ∧
  shiftRows ⟨0x00010203, 0x04050607, 0x08090a0b, 0x0c0d0e0f⟩
    = ⟨0x00050a0f, 0x04090e03, 0x080d0207, 0x0c01060b⟩ ∧
  shiftRows ⟨0x63cab704, 0x0953d051, 0xcd60e0e7, 0xba70e18c⟩
    = ⟨0x6353e08c, 0x0960e104, 0xcd70b751, 0xbacad0e7⟩ ∧
  invShiftRows ⟨0x00010203, 0x04050607, 0x08090a0b, 0x0c0d0e0f⟩
    = ⟨0x000d0a07, 0x04010e0b, 0x0805020f, 0x0c090603⟩ ∧
  invShiftRows ⟨0x6353e08c, 0x0960e104, 0xcd70b751, 0xbacad0e7⟩
    = ⟨0x63cab704, 0x0953d051, 0xcd60e0e7, 0xba70e18c⟩

/-- `MIXC` and `IMIXC` (R105, R106): each column is multiplied by the circulant matrix with first row (2, 3, 1, 1), or
(14, 11, 13, 9), entry `(r, j)` being `m[(j - r) mod 4]`; `RESULT <- 0`, and nothing else changes. Corner cases and
examples included. -/
def Obligations.ColumnMixingCommands : Prop :=
  decode 0x14000000 = .ok .mixc ∧ decode 0x15000000 = .ok .imixc ∧
  (∀ s : State, s.Running →
    (∃ t, exec .mixc s = .next t ∧ t = { s with state := t.state, result := 0 } ∧
      (∀ r c : Fin 4, gridByte t.state r.val c =
        gmul (gridByte s.state 0 c) (([2, 3, 1, 1] : List Nat).getD (0 - r).val 0)
          ^^^ gmul (gridByte s.state 1 c) (([2, 3, 1, 1] : List Nat).getD (1 - r).val 0)
          ^^^ gmul (gridByte s.state 2 c) (([2, 3, 1, 1] : List Nat).getD (2 - r).val 0)
          ^^^ gmul (gridByte s.state 3 c) (([2, 3, 1, 1] : List Nat).getD (3 - r).val 0)) ∧
      (∀ u, exec .imixc t = .next u → u.state = s.state)) ∧
    (∃ t, exec .imixc s = .next t ∧ t = { s with state := t.state, result := 0 } ∧
      (∀ r c : Fin 4, gridByte t.state r.val c =
        gmul (gridByte s.state 0 c) (([14, 11, 13, 9] : List Nat).getD (0 - r).val 0)
          ^^^ gmul (gridByte s.state 1 c) (([14, 11, 13, 9] : List Nat).getD (1 - r).val 0)
          ^^^ gmul (gridByte s.state 2 c) (([14, 11, 13, 9] : List Nat).getD (2 - r).val 0)
          ^^^ gmul (gridByte s.state 3 c) (([14, 11, 13, 9] : List Nat).getD (3 - r).val 0)) ∧
      (∀ u, exec .mixc t = .next u → u.state = s.state))) ∧
  (∀ b, mixColumn (wordOfBytes b b b b) = wordOfBytes b b b b ∧
    invMixColumn (wordOfBytes b b b b) = wordOfBytes b b b b) ∧
  (∀ S T, mixColumns (xorBlock S T) = xorBlock (mixColumns S) (mixColumns T) ∧
    invMixColumns (xorBlock S T) = xorBlock (invMixColumns S) (invMixColumns T)) ∧
  mixColumn 0xdb135345 = 0x8e4da1bc ∧ mixColumn 0xf20a225c = 0x9fdc589d ∧ mixColumn 0xd4d4d4d5 = 0xd5d5d7d6 ∧
  mixColumn 0x2d26314c = 0x4d7ebdf8 ∧ mixColumn 0x01000000 = 0x02010103 ∧ mixColumn 0x00000001 = 0x01010302 ∧
  invMixColumn 0x8e4da1bc = 0xdb135345 ∧ invMixColumn 0x9fdc589d = 0xf20a225c ∧
  invMixColumn 0x01000000 = 0x0e090d0b ∧ invMixColumn 0x00000001 = 0x090d0b0e ∧
  mixColumns ⟨0x6353e08c, 0x0960e104, 0xcd70b751, 0xbacad0e7⟩
    = ⟨0x5f726415, 0x57f5bc92, 0xf7be3b29, 0x1db9f91a⟩ ∧
  invMixColumns ⟨0x5f726415, 0x57f5bc92, 0xf7be3b29, 0x1db9f91a⟩
    = ⟨0x6353e08c, 0x0960e104, 0xcd70b751, 0xbacad0e7⟩

/-- `ADDRK r` (R107): `NO_KEY`, then `ROUND_INDEX`, else the four words of round key `r` are added to the four columns,
`RESULT <- 0`, and nothing else changes. Round key 0 of a new instance is its first four key words; the example of the
rule is included. -/
def Obligations.AddRoundKeyCommand : Prop :=
  (∀ (s t : State) (k : KeySize), s.Running → exec (kexpOf k) s = .next t →
    ∀ c, c < 4 → t.rk.getD c 0 = s.key.getD c 0) ∧
  addRoundKey ⟨0x00112233, 0x44556677, 0x8899aabb, 0xccddeeff⟩ ⟨0x00010203, 0x04050607, 0x08090a0b, 0x0c0d0e0f⟩
    = ⟨0x00102030, 0x40506070, 0x8090a0b0, 0xc0d0e0f0⟩ ∧
  ∀ (s : State) (r : BitVec 4), s.Running →
    decode (0x16000000 ||| r.setWidth 32) = .ok (.addrk r) ∧
    (s.status.kvalid = false →
      exec (.addrk r) s = .next (s.faulted 3 0 (0x16000000 ||| r.setWidth 32))) ∧
    (s.status.kvalid = true → 10 + 2 * s.status.ksz.code.toNat < r.toNat →
      exec (.addrk r) s = .next (s.faulted 12 (r.setWidth 32) (0x16000000 ||| r.setWidth 32))) ∧
    (s.status.kvalid = true → r.toNat ≤ 10 + 2 * s.status.ksz.code.toNat →
      ∃ t, exec (.addrk r) s = .next t ∧ t = { s with state := t.state, result := 0 } ∧
        (∀ c : Fin 4, col t.state c = col s.state c ^^^ s.rk.getD (4 * r.toNat + c.val) 0) ∧
        ∀ u, exec (.addrk r) t = .next u → u.state = s.state)

/-! ### Key schedule (42_key_schedule.md) -/

/-- `KEXP n` (R121, R123): for 16, 24 and 32 it writes the schedule of the first `Nk` words of `KEY` to `RK`, word by
word as `ExpandKey` says, with zeros beyond it, sets `KSZ` and `KVALID`, clears `IVVALID` and `IV`, `RESULT <- 0`, and
nothing else changes; for every other `n` it faults `KEY_SIZE`; with other argument bits set the word is illegal. -/
def Obligations.KeyExpansionCommand : Prop :=
  ∀ s : State, s.Running →
    (∀ k : KeySize, ∃ t, exec (kexpOf k) s = .next t ∧
      t = { s with rk := t.rk, iv := zeroBlock, result := 0,
                   status := { s.status with kvalid := true, ivvalid := false, ksz := k } } ∧
      IsSchedule s.key k.nk k.nw t.rk) ∧
    (∀ n : BitVec 8, n ≠ 16 → n ≠ 24 → n ≠ 32 →
      decode (0x20000000 ||| n.setWidth 32) = .ok (.kexpOther n) ∧
      exec (.kexpOther n) s = .next (s.faulted 2 (n.setWidth 32) (0x20000000 ||| n.setWidth 32))) ∧
    decode 0x20000010 = .ok .kexp128 ∧ decode 0x20000018 = .ok .kexp192 ∧ decode 0x20000020 = .ok .kexp256 ∧
    (∀ w, opField w = 0x20 → (argField w).extractLsb' 8 16 ≠ 0 → issue w s = .next (s.faulted 1 w w))

/-- The schedule is a function of the first `Nk` words of `KEY` and of the key size alone (R125.1, R124.3): expanding
the same key twice yields identical schedules, whatever the other words of `KEY` and the old `RK` hold. -/
def Obligations.ScheduleDependsOnKeyWordsOnly : Prop :=
  ∀ (k : KeySize) (s s' t t' : State), s.Running → s'.Running →
    (∀ i : Fin 8, i.val < k.nk → s'.key[i] = s.key[i]) →
    exec (kexpOf k) s = .next t → exec (kexpOf k) s' = .next t' → t'.rk = t.rk

/-- `DROP` (R126): clears `RK`, `IV`, `STATE`, `KVALID`, `KSZ` and `IVVALID`, `RESULT <- 0`; legal whether or not an
instance exists; nothing else changes; ignored while `FAULT` = 1. -/
def Obligations.DropCommand : Prop :=
  decode 0x21000000 = .ok .drop ∧
  ∀ s : State,
    (s.Running → exec .drop s = .next { s with
      rk := Vector.replicate 60 0, iv := zeroBlock, state := zeroBlock, result := 0,
      status := { s.status with kvalid := false, ivvalid := false, ksz := .k128 } }) ∧
    (s.status.fault = true → exec .drop s = .next s)

/-! ### Block cipher (43_block_cipher.md) -/

/-- `ENCBLK` and `DECBLK` (R137, R138): `NO_KEY`, else `STATE` is mapped by the cipher, or the inverse cipher, of the
current instance, `RESULT <- 0`, and nothing else changes; each undoes the other. -/
def Obligations.RegisterBlockCommands : Prop :=
  decode 0x30000000 = .ok .encblk ∧ decode 0x31000000 = .ok .decblk ∧
  ∀ s : State, s.Running →
    (s.status.kvalid = false →
      exec .encblk s = .next (s.faulted 3 0 0x30000000) ∧ exec .decblk s = .next (s.faulted 3 0 0x31000000)) ∧
    (s.status.kvalid = true →
      (∃ t, exec .encblk s = .next t ∧
        t = { s with state := cipher s.state s.rk (10 + 2 * s.status.ksz.code.toNat), result := 0 } ∧
        ∀ u, exec .decblk t = .next u → u.state = s.state) ∧
      (∃ t, exec .decblk s = .next t ∧
        t = { s with state := invCipher s.state s.rk (10 + 2 * s.status.ksz.code.toNat), result := 0 } ∧
        ∀ u, exec .encblk t = .next u → u.state = s.state))

/-- `ENCBLKM off` and `DECBLKM off` (R139, R140): `NO_KEY`, then `BUF_RANGE`; else the 16 bytes from `off` on become
the image of the 16 bytes that stood there, `STATE` holds the image, `RESULT <- 0`; no other byte and nothing else
changes; each undoes the other on the 16 bytes. -/
def Obligations.BufferBlockCommands : Prop :=
  ∀ (s : State) (off : BitVec 24), s.Running →
    decode (0x32000000 ||| off.setWidth 32) = .ok (.encblkm off) ∧
    decode (0x33000000 ||| off.setWidth 32) = .ok (.decblkm off) ∧
    (s.status.kvalid = false →
      exec (.encblkm off) s = .next (s.faulted 3 0 (0x32000000 ||| off.setWidth 32)) ∧
      exec (.decblkm off) s = .next (s.faulted 3 0 (0x33000000 ||| off.setWidth 32))) ∧
    (s.status.kvalid = true → s.params.bufBytes < off.toNat + 16 →
      exec (.encblkm off) s = .next (s.faulted 5 (off.setWidth 32) (0x32000000 ||| off.setWidth 32)) ∧
      exec (.decblkm off) s = .next (s.faulted 5 (off.setWidth 32) (0x33000000 ||| off.setWidth 32))) ∧
    (s.status.kvalid = true → off.toNat + 16 ≤ s.params.bufBytes →
      (∃ t, exec (.encblkm off) s = .next t ∧ t = { s with mem := t.mem, state := t.state, result := 0 } ∧
        t.state = cipher (blockToWords (s.memRead off.toNat 16)) s.rk (10 + 2 * s.status.ksz.code.toNat) ∧
        t.memRead off.toNat 16 = wordsToBlock t.state ∧ SameBufferOutside off.toNat 16 s t ∧
        ∀ u, exec (.decblkm off) t = .next u → SameBuffer s u) ∧
      (∃ t, exec (.decblkm off) s = .next t ∧ t = { s with mem := t.mem, state := t.state, result := 0 } ∧
        t.state = invCipher (blockToWords (s.memRead off.toNat 16)) s.rk (10 + 2 * s.status.ksz.code.toNat) ∧
        t.memRead off.toNat 16 = wordsToBlock t.state ∧ SameBufferOutside off.toNat 16 s t ∧
        ∀ u, exec (.encblkm off) t = .next u → SameBuffer s u))

/-- The value form and the in-place form agree (R142, marked derived in the spec): with the block at `off` in `STATE`,
`ENCBLK` leaves in `STATE` what `ENCBLKM off` leaves there; likewise `DECBLK` and `DECBLKM off`. -/
def Obligations.ValueAndInPlaceFormsAgree : Prop :=
  ∀ (s : State) (off : BitVec 24), s.Keyed → off.toNat + 16 ≤ s.params.bufBytes → s.state = s.loadBlock off.toNat →
    ∀ t u t' u', exec .encblk s = .next t → exec (.encblkm off) s = .next u →
      exec .decblk s = .next t' → exec (.decblkm off) s = .next u' → t.state = u.state ∧ t'.state = u'.state

/-- The cipher and the inverse cipher invert each other for every schedule and every round count above 0 (R141.1,
R141.4). Beyond 14 rounds both read the same default round keys, which is the model's choice (log entry 11). -/
def Obligations.CipherRoundTrip : Prop :=
  ∀ (S : Block) (rk : Vector Word 60) (nr : Nat), 0 < nr →
    invCipher (cipher S rk nr) rk nr = S ∧ cipher (invCipher S rk nr) rk nr = S

/-- The known answer of the source (R141.3, vector X1): its key, plaintext and ciphertext. -/
def Obligations.KnownAnswerAes128 : Prop :=
  cipher ⟨0x00112233, 0x44556677, 0x8899aabb, 0xccddeeff⟩
      (scheduleRegs (expandKey [0x00010203, 0x04050607, 0x08090a0b, 0x0c0d0e0f] 4)) 10
    = ⟨0x69c4e0d8, 0x6a7b0430, 0xd8cdb780, 0x70b4c55a⟩

/-- The block cipher is the composition of the round commands (R135, R136; program P1): issuing them one by one, with
the round keys in the order of the rules, ends in the very state that `ENCBLK`, or `DECBLK`, ends in. -/
def Obligations.RoundCommandsMakeTheCipher : Prop :=
  ∀ s : State, s.Keyed →
    runCommands (encryptByHand (10 + 2 * s.status.ksz.code.toNat)) s = exec .encblk s ∧
    runCommands (decryptByHand (10 + 2 * s.status.ksz.code.toNat)) s = exec .decblk s

/-! ### ECB (44_ecb.md) -/

/-- `ECBENC p` (R150, R151) where it runs: with the selected padding applied first, every block of the buffer is
encrypted alone; `STATE` holds the last ciphertext block, or is unchanged when there is none; `RESULT <- 0`; no byte
outside the buffer and nothing else changes. -/
def Obligations.EcbEncryption : Prop :=
  ∀ (s : State) (p : PadSelect), s.Keyed → s.BlockAligned → (p = .pkcs7 → s.PadFits) →
    ∃ t, exec (.ecbenc p) s = .next t ∧ t = { s with mem := t.mem, state := t.state, result := 0 } ∧
      (∀ i, i < s.buflen.toNat / 16 →
        t.loadBlock (16 * i) = cipher (s.plainBlock p i) s.rk (10 + 2 * s.status.ksz.code.toNat)) ∧
      SameBufferOutside 0 s.buflen.toNat s t ∧
      t.state = if s.buflen = 0 then s.state else t.loadBlock (s.buflen.toNat - 16)

/-- `ECBDEC` (R152) where it runs: every block is decrypted alone; `STATE` holds the last plaintext block; `OUTLEN` is
not written; no byte outside the buffer and nothing else changes. -/
def Obligations.EcbDecryption : Prop :=
  ∀ s : State, s.Keyed → s.BlockAligned →
    ∃ t, exec .ecbdec s = .next t ∧ t = { s with mem := t.mem, state := t.state, result := 0 } ∧
      (∀ i, i < s.buflen.toNat / 16 →
        t.loadBlock (16 * i) = invCipher (s.loadBlock (16 * i)) s.rk (10 + 2 * s.status.ksz.code.toNat)) ∧
      SameBufferOutside 0 s.buflen.toNat s t ∧
      t.state = if s.buflen = 0 then s.state else t.loadBlock (s.buflen.toNat - 16)

/-- ECB round trip (R153.1): `ECBDEC` after `ECBENC 0` restores every byte of the buffer memory, and so does `ECBENC 0`
after `ECBDEC`. -/
def Obligations.EcbRoundTrip : Prop :=
  ∀ s : State, s.Keyed → s.BlockAligned →
    (∃ t u, exec (.ecbenc .noPad) s = .next t ∧ exec .ecbdec t = .next u ∧ SameBuffer s u) ∧
    (∃ t u, exec .ecbdec s = .next t ∧ exec (.ecbenc .noPad) t = .next u ∧ SameBuffer s u)

/-- ECB determinism and its converse (R153.2): two ciphertext blocks are equal exactly when the plaintext blocks are. -/
def Obligations.EcbEqualBlocks : Prop :=
  ∀ (s t : State) (i j : Nat), s.Keyed → s.BlockAligned → exec (.ecbenc .noPad) s = .next t →
    i < s.buflen.toNat / 16 → j < s.buflen.toNat / 16 →
    (t.loadBlock (16 * i) = t.loadBlock (16 * j) ↔ s.loadBlock (16 * i) = s.loadBlock (16 * j))

/-- `ECBENC p` is `ENCBLKM 0`, `ENCBLKM 16`, ..., `ENCBLKM BUFLEN-16` in turn, after `PAD` when `p` = 1 (R153.4), for a
buffer of at least one block. -/
def Obligations.EcbIsBlockByBlock : Prop :=
  ∀ s : State, s.Keyed → s.params.Legal → s.BlockAligned → s.buflen ≠ 0 →
    let blocks := (List.range (s.buflen.toNat / 16)).map fun i => Instr.encblkm (BitVec.ofNat 24 (16 * i))
    runCommands blocks s = exec (.ecbenc .noPad) s ∧
    (s.PadFits → runCommands (.pad :: blocks) s = exec (.ecbenc .pkcs7) s)

/-- Padding first and then encrypting without padding gives what the padding form gives, for both modes
(90_conflicts.md C5, R151, R162). -/
def Obligations.PadThenEncryptAgrees : Prop :=
  ∀ s : State, s.Keyed → s.BlockAligned → s.PadFits →
    runCommands [.pad, .ecbenc .noPad] s = exec (.ecbenc .pkcs7) s ∧
    (s.status.ivvalid = true → runCommands [.pad, .cbcenc .noPad] s = exec (.cbcenc .pkcs7) s)

/-! ### CBC (45_cbc.md) -/

/-- `SETIV` (R161): `NO_KEY`, else `IV <- IVIN`, `IVVALID <- 1`, `RESULT <- 0`, and nothing else changes; a later host
write to a word of `IVIN` leaves `IV` and `STATUS` as they were. -/
def Obligations.SetivCommand : Prop :=
  decode 0x50000000 = .ok .setiv ∧
  (∀ (s t : State) (c : Fin 4) (v : Word) (rest : List Event), s.pending = .wr (0x060 + 4 * c.val) v :: rest →
    step s = .next t → t.iv = s.iv ∧ t.status = s.status) ∧
  ∀ s : State, s.Running →
    (s.status.kvalid = false → exec .setiv s = .next (s.faulted 3 0 0x50000000)) ∧
    (s.status.kvalid = true → exec .setiv s =
      .next { s with iv := s.ivin, status := { s.status with ivvalid := true }, result := 0 })

/-- `CBCENC p` (R162) where it runs: with the selected padding applied first, ciphertext block `i` is the cipher of
plaintext block `i` XOR ciphertext block `i - 1`, `IV` standing before the first; `STATE` holds the last ciphertext
block; `IV` and everything else is unchanged, and so is every byte outside the buffer. -/
def Obligations.CbcEncryption : Prop :=
  ∀ (s : State) (p : PadSelect), s.Chained → s.BlockAligned → (p = .pkcs7 → s.PadFits) →
    ∃ t, exec (.cbcenc p) s = .next t ∧ t = { s with mem := t.mem, state := t.state, result := 0 } ∧
      (∀ i, i < s.buflen.toNat / 16 →
        t.loadBlock (16 * i) =
          cipher (xorBlock (s.plainBlock p i) (if i = 0 then s.iv else t.loadBlock (16 * (i - 1)))) s.rk
            (10 + 2 * s.status.ksz.code.toNat)) ∧
      SameBufferOutside 0 s.buflen.toNat s t ∧
      t.state = if s.buflen = 0 then s.state else t.loadBlock (s.buflen.toNat - 16)

/-- `CBCDEC` (R163) where it runs: plaintext block `i` is the inverse cipher of ciphertext block `i`, XOR ciphertext
block `i - 1` as it stood before the command; `STATE` holds the inverse cipher of the last block, before chaining. -/
def Obligations.CbcDecryption : Prop :=
  ∀ s : State, s.Chained → s.BlockAligned →
    ∃ t, exec .cbcdec s = .next t ∧ t = { s with mem := t.mem, state := t.state, result := 0 } ∧
      (∀ i, i < s.buflen.toNat / 16 →
        t.loadBlock (16 * i) =
          xorBlock (invCipher (s.loadBlock (16 * i)) s.rk (10 + 2 * s.status.ksz.code.toNat))
            (if i = 0 then s.iv else s.loadBlock (16 * (i - 1)))) ∧
      SameBufferOutside 0 s.buflen.toNat s t ∧
      t.state = if s.buflen = 0 then s.state
        else invCipher (s.loadBlock (s.buflen.toNat - 16)) s.rk (10 + 2 * s.status.ksz.code.toNat)

/-- CBC round trip (R163, "For all plaintexts and all IVs"): `CBCDEC` after `CBCENC 0` restores every byte of the
buffer memory, and so does `CBCENC 0` after `CBCDEC`. -/
def Obligations.CbcRoundTrip : Prop :=
  ∀ s : State, s.Chained → s.BlockAligned →
    (∃ t u, exec (.cbcenc .noPad) s = .next t ∧ exec .cbcdec t = .next u ∧ SameBuffer s u) ∧
    (∃ t u, exec .cbcdec s = .next t ∧ exec (.cbcenc .noPad) t = .next u ∧ SameBuffer s u)

/-- The bit-flip property (R164) for any difference `D` of ciphertext block `j`, one flipped bit being a case: plaintext
block `j` changes, block `j + 1` differs by exactly `D`, and every other block is unchanged. -/
def Obligations.CbcBitFlip : Prop :=
  ∀ (s s' t t' : State) (j : Nat) (D : Block), s.Chained → s.BlockAligned → j < s.buflen.toNat / 16 →
    D ≠ zeroBlock → s' = { s with mem := s'.mem } → SameBufferOutside (16 * j) 16 s s' →
    s'.loadBlock (16 * j) = xorBlock (s.loadBlock (16 * j)) D →
    exec .cbcdec s = .next t → exec .cbcdec s' = .next t' →
    t'.loadBlock (16 * j) ≠ t.loadBlock (16 * j) ∧
    (j + 1 < s.buflen.toNat / 16 → t'.loadBlock (16 * (j + 1)) = xorBlock (t.loadBlock (16 * (j + 1))) D) ∧
    (∀ k, k < s.buflen.toNat / 16 → k ≠ j → k ≠ j + 1 → t'.loadBlock (16 * k) = t.loadBlock (16 * k))

/-! ### Padding (46_padding.md) -/

/-- `PAD` (R175, R176): `BUF_RANGE`, `LEN_EXCEEDS`, `PAD_RANGE`, in this order; else every byte of the pad region takes
the pad length, `RESULT <- 0`; no other byte and nothing else changes; no alignment is asked. -/
def Obligations.PadCommand : Prop :=
  decode 0x60000000 = .ok .pad ∧
  ∀ s : State, s.Running →
    (s.params.bufBytes < s.buflen.toNat → exec .pad s = .next (s.faulted 5 s.buflen 0x60000000)) ∧
    (s.BufferFits → s.buflen.toNat < s.mlen.toNat → exec .pad s = .next (s.faulted 7 s.mlen 0x60000000)) ∧
    (s.BufferFits → s.mlen.toNat ≤ s.buflen.toNat → 255 < s.buflen.toNat - s.mlen.toNat →
      exec .pad s = .next (s.faulted 8 (s.buflen - s.mlen) 0x60000000)) ∧
    (s.BufferFits → s.PadFits → ∃ t, exec .pad s = .next t ∧ t = { s with mem := t.mem, result := 0 } ∧
      ∀ a, t.bufByte a = if s.mlen.toNat ≤ a ∧ a < s.buflen.toNat
        then BitVec.ofNat 8 (s.buflen.toNat - s.mlen.toNat) else s.bufByte a)

/-- `UNPAD` (R177): `BUF_RANGE`, `EMPTY_BUFFER`, `UNPAD_RANGE`, `PAD_EXCEEDS_BUFFER`, in this order; else
`OUTLEN <- BUFLEN - p` for the last byte `p`, `RESULT <- 0`, and nothing else changes, no buffer byte either; the bytes
before the last are not examined. -/
def Obligations.UnpadCommand : Prop :=
  decode 0x61000000 = .ok .unpad ∧
  ∀ s : State, s.Running →
    (s.params.bufBytes < s.buflen.toNat → exec .unpad s = .next (s.faulted 5 s.buflen 0x61000000)) ∧
    (s.buflen = 0 → exec .unpad s = .next (s.faulted 9 0 0x61000000)) ∧
    (s.BufferFits → s.buflen ≠ 0 → ∀ p : Byte, p = s.bufByte (s.buflen.toNat - 1) →
      (16 < p.toNat → exec .unpad s = .next (s.faulted 10 (p.setWidth 32) 0x61000000)) ∧
      (p.toNat ≤ 16 → s.buflen.toNat < p.toNat →
        exec .unpad s = .next (s.faulted 11 (p.setWidth 32) 0x61000000)) ∧
      (p.toNat ≤ 16 → p.toNat ≤ s.buflen.toNat →
        exec .unpad s = .next { s with outlen := s.buflen - p.setWidth 32, result := 0 }))

/-- `UNPADCHK` (R178): `BUF_RANGE`, `EMPTY_BUFFER`; then by the last byte `p`: above 16 result 1, zero result
`ERR_ZERO_PAD`, beyond the buffer `PAD_EXCEEDS_BUFFER`, some of the last `p` bytes different result 2, else result 0
and `OUTLEN <- BUFLEN - p`; a data error writes `OUTLEN <- 0` and is no fault; nothing else changes. -/
def Obligations.CheckedUnpadCommand : Prop :=
  decode 0x62000000 = .ok .unpadchk ∧
  ∀ s : State, s.Running →
    (s.params.bufBytes < s.buflen.toNat → exec .unpadchk s = .next (s.faulted 5 s.buflen 0x62000000)) ∧
    (s.buflen = 0 → exec .unpadchk s = .next (s.faulted 9 0 0x62000000)) ∧
    (s.BufferFits → s.buflen ≠ 0 → ∀ p : Byte, p = s.bufByte (s.buflen.toNat - 1) →
      (16 < p.toNat → exec .unpadchk s = .next { s with outlen := 0, result := 1 }) ∧
      (p = 0 → s.params.errZeroPad = .paddingTooLarge →
        exec .unpadchk s = .next { s with outlen := 0, result := 1 }) ∧
      (p = 0 → s.params.errZeroPad = .mismatchingPaddingBytes →
        exec .unpadchk s = .next { s with outlen := 0, result := 2 }) ∧
      (1 ≤ p.toNat → p.toNat ≤ 16 → s.buflen.toNat < p.toNat →
        exec .unpadchk s = .next (s.faulted 11 (p.setWidth 32) 0x62000000)) ∧
      (1 ≤ p.toNat → p.toNat ≤ 16 → p.toNat ≤ s.buflen.toNat →
        ((∃ j, s.buflen.toNat - p.toNat ≤ j ∧ j < s.buflen.toNat ∧ s.bufByte j ≠ p) →
          exec .unpadchk s = .next { s with outlen := 0, result := 2 }) ∧
        ((∀ j, s.buflen.toNat - p.toNat ≤ j → j < s.buflen.toNat → s.bufByte j = p) →
          exec .unpadchk s = .next { s with outlen := s.buflen - p.setWidth 32, result := 0 })))

/-- The padding round trip (R180.1, R180.2): with a pad length of 1 to 16, `PAD` and then either unpad command give the
payload length back, `UNPADCHK` with result 0, and the payload is untouched. -/
def Obligations.PadUnpadRoundTrip : Prop :=
  ∀ s : State, s.Running → s.BufferFits → s.mlen.toNat < s.buflen.toNat → s.buflen.toNat - s.mlen.toNat ≤ 16 →
    ∃ t u v, exec .pad s = .next t ∧ exec .unpadchk t = .next u ∧ exec .unpad t = .next v ∧
      u.status.fault = false ∧ u.result = 0 ∧ u.outlen = s.mlen ∧ v.status.fault = false ∧ v.outlen = s.mlen ∧
      ∀ a, a < s.mlen.toNat → u.bufByte a = s.bufByte a

/-- Corrupting the padding (R180.3): after `PAD` with a pad length of 1 to 16 in a buffer of at least one block, a last
byte changed to `q` gives 1 above 16, `ERR_ZERO_PAD` for 0, acceptance of one byte for 1, and 2 for 2 to 16 when the
pad had two bytes or more; changing another pad byte gives 2. -/
def Obligations.CorruptedPaddingIsRejected : Prop :=
  ∀ (s t u v : State) (a : Nat), s.Running → s.BufferFits → 16 ≤ s.buflen.toNat →
    s.mlen.toNat < s.buflen.toNat → s.buflen.toNat - s.mlen.toNat ≤ 16 → exec .pad s = .next t →
    u = { t with mem := u.mem } → SameBufferOutside a 1 t u → u.bufByte a ≠ t.bufByte a →
    s.mlen.toNat ≤ a → a < s.buflen.toNat → exec .unpadchk u = .next v →
    v.status.fault = false ∧
    (a + 1 = s.buflen.toNat →
      (16 < (u.bufByte a).toNat → v.result = 1 ∧ v.outlen = 0) ∧
      (u.bufByte a = 0 → v.outlen = 0 ∧
        v.result = if s.params.errZeroPad = .paddingTooLarge then 1 else 2) ∧
      (u.bufByte a = 1 → v.result = 0 ∧ v.outlen = s.buflen - 1) ∧
      (2 ≤ (u.bufByte a).toNat → (u.bufByte a).toNat ≤ 16 → 2 ≤ s.buflen.toNat - s.mlen.toNat →
        v.result = 2 ∧ v.outlen = 0)) ∧
    (a + 1 < s.buflen.toNat → v.result = 2 ∧ v.outlen = 0)

/-- `UNPAD` and `UNPADCHK` end in the same state whenever `UNPADCHK` completes with `RESULT` = 0 (R180.4). -/
def Obligations.UnpadFormsAgree : Prop :=
  ∀ s t : State, s.Running → exec .unpadchk s = .next t → t.status.fault = false → t.result = 0 →
    exec .unpad s = .next t

/-! ### Field arithmetic, tables and transforms (40_field_and_tables.md, 41_round_transforms.md R108) -/

/-- `xtime` and `gmul` (R81, R82): `xtime` doubles modulo 0x11B; `gmul` has 0, 1 and 2 right, is additive in both
factors, commutative and associative. -/
def Obligations.FieldMultiplication : Prop :=
  (∀ a : Byte, (xtime a).toNat = if a.toNat < 128 then 2 * a.toNat else (2 * a.toNat) ^^^ 0x11B) ∧
  (∀ a : Byte, gmul a 0 = 0 ∧ gmul a 1 = a ∧ gmul a 2 = xtime a) ∧
  (∀ (a b : Byte) (k : Nat), k < 256 → gmul (a ^^^ b) k = gmul a k ^^^ gmul b k) ∧
  (∀ a b : Byte, gmul a b.toNat = gmul b a.toNat) ∧
  (∀ a b c : Byte, gmul (gmul a b.toNat) c.toNat = gmul a (gmul b c.toNat).toNat)

/-- The tables (R84, R85, R86, R87): the S-boxes invert each other, the S-box has no fixed point and is the affine map
of the field inverse (from general knowledge, 93_implementation_defined.md G1); each round constant is the double of
the one before; `RotWord` is the rotation by 8 and commutes with `SubWord`. -/
def Obligations.TablesAreConsistent : Prop :=
  (∀ a : Byte, invSbox (sbox a) = a ∧ sbox (invSbox a) = a ∧ sbox a ≠ a) ∧
  sbox 0 = sboxAffine 0 ∧
  (∀ a b : Byte, gmul a b.toNat = 1 → sbox a = sboxAffine b) ∧
  (∀ a : Byte, a ≠ 0 → ∃ b : Byte, gmul a b.toNat = 1) ∧
  rconWord 0 = 0x01000000 ∧ (∀ j, j < 9 → rconWord (j + 1) = wordOfBytes (xtime (byteOf (rconWord j) 0)) 0 0 0) ∧
  (∀ w : Word, rotWord w = w.rotateLeft 8 ∧ subWord (rotWord w) = rotWord (subWord w))

/-- The transforms (R108): three pairs of mutually inverse bijections, AddRoundKey its own inverse; the substitutions
commute with the row rotations; the column mixings are additive and SubBytes is not. -/
def Obligations.TransformsAreInverse : Prop :=
  (∀ S, invSubBytes (subBytes S) = S ∧ subBytes (invSubBytes S) = S) ∧
  (∀ S, invShiftRows (shiftRows S) = S ∧ shiftRows (invShiftRows S) = S) ∧
  (∀ S, invMixColumns (mixColumns S) = S ∧ mixColumns (invMixColumns S) = S) ∧
  (∀ S K, addRoundKey (addRoundKey S K) K = S) ∧
  (∀ S, subBytes (shiftRows S) = shiftRows (subBytes S) ∧
    invSubBytes (invShiftRows S) = invShiftRows (invSubBytes S)) ∧
  (∀ S T, mixColumns (xorBlock S T) = xorBlock (mixColumns S) (mixColumns T) ∧
    invMixColumns (xorBlock S T) = xorBlock (invMixColumns S) (invMixColumns T)) ∧
  ∃ S T, subBytes (xorBlock S T) ≠ xorBlock (subBytes S) (subBytes T)

/-! ### The whole block -/

/-- Every command ends in a next state, whatever the state: commands run to their end or to their fault (R50), and no
command stops the model. -/
def Obligations.EveryCommandEnds : Prop :=
  ∀ (i : Instr) (s : State), ∃ t, exec i s = .next t

/-- Who writes what (R11, R14, R16, R23, R24): no command writes a host-owned register or what the model keeps of the
host; `RK` is written by `KEXP` and `DROP` alone, `IV` by `SETIV`, `KEXP` and `DROP`, `OUTLEN` by the unpad commands,
the fault registers by a fault alone. -/
def Obligations.RegisterWriters : Prop :=
  ∀ (i : Instr) (s t : State), exec i s = .next t →
    t.params = s.params ∧ t.key = s.key ∧ t.ivin = s.ivin ∧ t.buflen = s.buflen ∧ t.mlen = s.mlen ∧
    t.powerOns = s.powerOns ∧ t.pending = s.pending ∧ t.resp = s.resp ∧
    (t.rk ≠ s.rk → i = .drop ∨ ∃ k, i = kexpOf k ∨ i = .kexpOther (BitVec.ofNat 8 (4 * k.nk))) ∧
    (t.iv ≠ s.iv → i = .setiv ∨ i = .drop ∨ ∃ k, i = kexpOf k ∨ i = .kexpOther (BitVec.ofNat 8 (4 * k.nk))) ∧
    (t.outlen ≠ s.outlen → i = .unpad ∨ i = .unpadchk) ∧
    (t.state ≠ s.state → i = .drop ∨ i = .encblk ∨ i = .decblk ∨ i = .ecbdec ∨ i = .cbcdec ∨ i = .subb ∨
      i = .isubb ∨ i = .shrow ∨ i = .ishrow ∨ i = .mixc ∨ i = .imixc ∨ (∃ r, i = .addrk r) ∨
      (∃ o, i = .encblkm o ∨ i = .decblkm o) ∨ ∃ p, i = .ecbenc p ∨ i = .cbcenc p) ∧
    (t.fcode ≠ s.fcode ∨ t.finfo ≠ s.finfo ∨ t.fcmd ≠ s.fcmd → s.status.fault = false ∧ t.status.fault = true)

/-- What each command does to the flags and to `RESULT` (the table of R26; R22): one clause per row. -/
def Obligations.FlagTable : Prop :=
  ∀ (i : Instr) (s t : State), i.wellFormed = true → s.Running → exec i s = .next t →
    (t.status.fault = true → t.status = { s.status with fault := true } ∧ t.result = s.result) ∧
    (t.status.fault = false →
      (∀ k, i = kexpOf k → t.status = ⟨false, true, false, k⟩ ∧ t.result = 0) ∧
      (i = .drop → t.status = ⟨false, false, false, .k128⟩ ∧ t.result = 0) ∧
      (i = .setiv → t.status = { s.status with ivvalid := true } ∧ t.result = 0) ∧
      (i = .unpadchk → t.status = s.status ∧ (t.result = 0 ∨ t.result = 1 ∨ t.result = 2)) ∧
      ((∀ k, i ≠ kexpOf k) → i ≠ .drop → i ≠ .setiv → i ≠ .unpadchk → t.status = s.status ∧ t.result = 0))

/-- The session state machine (R232, marked derived in the spec): what each command does to the session, and which
commands fault `NO_KEY` and `NO_IV` in which session state. -/
def Obligations.SessionTransitions : Prop :=
  ∀ (i : Instr) (s t : State), i.wellFormed = true → exec i s = .next t →
    (s.session = .faulted → t.session = .faulted) ∧
    (s.Running →
      (t.status.fault = false →
        (∀ k, i = kexpOf k → t.session = .keyed) ∧
        (i = .drop → t.session = .empty) ∧
        (i = .setiv → (s.session = .keyed ∨ s.session = .keyedIv) ∧ t.session = .keyedIv) ∧
        ((∀ k, i ≠ kexpOf k) → i ≠ .drop → i ≠ .setiv → t.session = s.session)) ∧
      (t.status.fault = true ∧ t.fcode = 3 ↔ needsKey i = true ∧ s.session = .empty) ∧
      (t.status.fault = true ∧ t.fcode = 4 ↔ needsIv i = true ∧ s.session = .keyed))

/-- The bytes each command writes (R46): a command changes no byte outside its written range; a command that faults
changes none. -/
def Obligations.BufferBytesWritten : Prop :=
  ∀ (i : Instr) (s t : State), exec i s = .next t →
    SameBufferOutside (writtenRange i s).1 (writtenRange i s).2 s t ∧
    (t.status.fault = true → SameBuffer s t)

/-- The bytes each command reads (R46): on two states that differ only in bytes the command does not read, it does the
same thing. Every register ends equal, and so does every byte of the written range; every other byte keeps what it
held. -/
def Obligations.BufferBytesRead : Prop :=
  ∀ (i : Instr) (s s' t t' : State), s' = { s with mem := s'.mem } →
    (∀ a, readsByte i s a → s'.bufByte a = s.bufByte a) →
    exec i s = .next t → exec i s' = .next t' →
    t' = { t with mem := t'.mem } ∧
    (t.status.fault = false → ∀ a, (writtenRange i s).1 ≤ a → a < (writtenRange i s).1 + (writtenRange i s).2 →
      t'.bufByte a = t.bufByte a) ∧
    SameBufferOutside (writtenRange i s).1 (writtenRange i s).2 s' t'

/-- The program `AESnnn.NEW hex` (R70) run on a block without a fault: after its transactions `KEY` holds the key bytes
in the word order of R12, the instance exists with the key size, and `RK` is the schedule of that key. -/
def Obligations.NewInstanceProgram : Prop :=
  ∀ (s : State) (k : KeySize) (key : List Byte), s.Running → key.length = 4 * k.nk →
    ∃ program t, assembleLine (.aesNew k key) = some program ∧
      runSteps program.length (s.withProgram program) = .next t ∧
      (∀ i : Fin 8, i.val < k.nk →
        t.key[i] = wordOfBytes (key.getD (4 * i.val) 0) (key.getD (4 * i.val + 1) 0) (key.getD (4 * i.val + 2) 0)
          (key.getD (4 * i.val + 3) 0)) ∧
      t.status = { s.status with kvalid := true, ivvalid := false, ksz := k } ∧
      IsSchedule t.key k.nk k.nw t.rk ∧ t.pending = s.pending ∧ SameBuffer s t
end

