-- ==== Sys2Proof/Laws/Bytes.lean ====
section
/-! SUPPORT. Bytes, words and blocks: the conversions of 20_memory.md R40 are inverse to each other, and the
algebra of XOR on blocks (R160). -/

namespace Sys2Proof.Machine

theorem byteOf_getLsbD (w : Word) (r i : Nat) :
    (byteOf w r).getLsbD i = (decide (i < 8) && w.getLsbD (24 - 8 * r + i)) := by
  simp [byteOf, BitVec.getLsbD_setWidth, BitVec.getLsbD_ushiftRight]

@[simp] theorem byteOf_wordOfBytes_zero (a b c d : Byte) : byteOf (wordOfBytes a b c d) 0 = a := by
  apply BitVec.eq_of_getLsbD_eq
  intro i hi
  rw [byteOf_getLsbD]
  simp only [wordOfBytes, BitVec.getLsbD_append]
  have h1 : ¬ (24 - 8 * 0 + i < 8) := by omega
  have h2 : ¬ (24 - 8 * 0 + i - 8 < 8) := by omega
  have h3 : ¬ (24 - 8 * 0 + i - 8 - 8 < 8) := by omega
  have h4 : 24 - 8 * 0 + i - 8 - 8 - 8 = i := by omega
  simp [hi, h1, h2, h3, h4]

@[simp] theorem byteOf_wordOfBytes_one (a b c d : Byte) : byteOf (wordOfBytes a b c d) 1 = b := by
  apply BitVec.eq_of_getLsbD_eq
  intro i hi
  rw [byteOf_getLsbD]
  simp only [wordOfBytes, BitVec.getLsbD_append]
  have h1 : ¬ (24 - 8 * 1 + i < 8) := by omega
  have h2 : ¬ (24 - 8 * 1 + i - 8 < 8) := by omega
  have h3 : 24 - 8 * 1 + i - 8 - 8 < 8 := by omega
  have h4 : 24 - 8 * 1 + i - 8 - 8 = i := by omega
  simp [hi, h1, h2, h4]

@[simp] theorem byteOf_wordOfBytes_two (a b c d : Byte) : byteOf (wordOfBytes a b c d) 2 = c := by
  apply BitVec.eq_of_getLsbD_eq
  intro i hi
  rw [byteOf_getLsbD]
  simp only [wordOfBytes, BitVec.getLsbD_append]
  have h1 : ¬ (24 - 8 * 2 + i < 8) := by omega
  have h4 : 24 - 8 * 2 + i - 8 = i := by omega
  simp [hi, h1, h4]

@[simp] theorem byteOf_wordOfBytes_three (a b c d : Byte) : byteOf (wordOfBytes a b c d) 3 = d := by
  apply BitVec.eq_of_getLsbD_eq
  intro i hi
  rw [byteOf_getLsbD]
  simp only [wordOfBytes, BitVec.getLsbD_append]
  simp [hi]

/-- Bit `i` of a word is bit `i mod 8` of its byte `3 - i / 8`. -/
theorem word_getLsbD (w : Word) {i : Nat} (hi : i < 32) :
    w.getLsbD i = (byteOf w (3 - i / 8)).getLsbD (i % 8) := by
  rw [byteOf_getLsbD]
  have h1 : i % 8 < 8 := Nat.mod_lt _ (by decide)
  have h2 : 24 - 8 * (3 - i / 8) + i % 8 = i := by omega
  simp only [h1, h2, decide_true, Bool.true_and]

/-- A word is determined by its four bytes. -/
theorem word_ext {v w : Word} (h0 : byteOf v 0 = byteOf w 0) (h1 : byteOf v 1 = byteOf w 1)
    (h2 : byteOf v 2 = byteOf w 2) (h3 : byteOf v 3 = byteOf w 3) : v = w := by
  apply BitVec.eq_of_getLsbD_eq
  intro i hi
  rw [word_getLsbD v hi, word_getLsbD w hi]
  have hk : i / 8 < 4 := by omega
  generalize i / 8 = k at hk
  match k, hk with
  | 0, _ => rw [h3]
  | 1, _ => rw [h2]
  | 2, _ => rw [h1]
  | 3, _ => rw [h0]

@[simp] theorem wordOfBytes_byteOf (w : Word) :
    wordOfBytes (byteOf w 0) (byteOf w 1) (byteOf w 2) (byteOf w 3) = w :=
  word_ext (by simp) (by simp) (by simp) (by simp)

theorem byteOf_xor (v w : Word) (r : Nat) : byteOf (v ^^^ w) r = byteOf v r ^^^ byteOf w r := by
  simp only [byteOf, BitVec.ushiftRight_xor_distrib, BitVec.setWidth_xor]

theorem wordOfBytes_xor (a b c d a' b' c' d' : Byte) :
    wordOfBytes a b c d ^^^ wordOfBytes a' b' c' d'
      = wordOfBytes (a ^^^ a') (b ^^^ b') (c ^^^ c') (d ^^^ d') :=
  word_ext (by simp [byteOf_xor]) (by simp [byteOf_xor]) (by simp [byteOf_xor]) (by simp [byteOf_xor])

/-! ### Blocks -/

theorem block_ext {A B : Block} (h : ∀ c, col A c = col B c) : A = B := by
  cases A
  cases B
  have h0 := h 0
  have h1 := h 1
  have h2 := h 2
  have h3 := h 3
  simp only [col] at h0 h1 h2 h3
  simp [h0, h1, h2, h3]

/-- A block is determined by its sixteen grid bytes. -/
theorem grid_ext {A B : Block} (h : ∀ r c : Fin 4, gridByte A r.val c = gridByte B r.val c) : A = B :=
  block_ext fun c => word_ext (h 0 c) (h 1 c) (h 2 c) (h 3 c)

@[simp] theorem col_ofCols (f : Fin 4 → Word) (c : Fin 4) : col (ofCols f) c = f c := by
  match c with
  | 0 => rfl
  | 1 => rfl
  | 2 => rfl
  | 3 => rfl

@[simp] theorem col_xorBlock (A B : Block) (c : Fin 4) : col (xorBlock A B) c = col A c ^^^ col B c := by
  match c with
  | 0 => rfl
  | 1 => rfl
  | 2 => rfl
  | 3 => rfl

theorem col_setCol (A : Block) (c d : Fin 4) (v : Word) :
    col (setCol A c v) d = if d = c then v else col A d := by
  match c, d with
  | 0, 0 | 0, 1 | 0, 2 | 0, 3 | 1, 0 | 1, 1 | 1, 2 | 1, 3 => rfl
  | 2, 0 | 2, 1 | 2, 2 | 2, 3 | 3, 0 | 3, 1 | 3, 2 | 3, 3 => rfl

theorem gridByte_xorBlock (A B : Block) (r : Nat) (c : Fin 4) :
    gridByte (xorBlock A B) r c = gridByte A r c ^^^ gridByte B r c := by
  simp [gridByte, byteOf_xor]

@[simp] theorem xorBlock_cancel (A K : Block) : xorBlock (xorBlock A K) K = A :=
  block_ext fun c => by simp

theorem xorBlock_assoc (A B C : Block) : xorBlock (xorBlock A B) C = xorBlock A (xorBlock B C) :=
  block_ext fun c => by simp [BitVec.xor_assoc]

theorem xorBlock_comm (A B : Block) : xorBlock A B = xorBlock B A :=
  block_ext fun c => by simp [BitVec.xor_comm]

/-! ### Byte sequences -/

@[simp] theorem length_wordsToBlock (B : Block) : (wordsToBlock B).length = 16 := rfl

/-- Byte `4c + r` of a block's byte sequence is grid byte `s(r, c)` (R15, R40). -/
theorem getD_wordsToBlock (B : Block) (r c : Fin 4) :
    (wordsToBlock B).getD (4 * c.val + r.val) 0 = gridByte B r.val c := by
  match c, r with
  | 0, 0 | 0, 1 | 0, 2 | 0, 3 | 1, 0 | 1, 1 | 1, 2 | 1, 3 => rfl
  | 2, 0 | 2, 1 | 2, 2 | 2, 3 | 3, 0 | 3, 1 | 3, 2 | 3, 3 => rfl

@[simp] theorem blockToWords_wordsToBlock (B : Block) : blockToWords (wordsToBlock B) = B := by
  cases B
  simp [blockToWords, wordsToBlock, wordBytes, wordAt]

/-- The other direction of R40, on the sequences the mapping is for: those of 16 bytes. -/
theorem wordsToBlock_blockToWords (b : List Byte) (h : b.length = 16) :
    wordsToBlock (blockToWords b) = b := by
  match b, h with
  | [b0, b1, b2, b3, b4, b5, b6, b7, b8, b9, b10, b11, b12, b13, b14, b15], _ =>
    simp [blockToWords, wordsToBlock, wordBytes, wordAt]

end Sys2Proof.Machine
end

