-- ==== Sys2Proof/Laws/Memory.lean ====
section
/-! SUPPORT. The buffer memory as a sorted list of cells: reading after writing, and every memory operation keeps
the canonical form and stays inside the buffer. -/

namespace Sys2Proof.Machine

@[simp] theorem Memory.lookup_nil (a : Nat) : Memory.lookup [] a = none := rfl

@[simp] theorem Memory.storeBytes_nil (m : Memory) (a : Nat) : m.storeBytes a [] = m := rfl

theorem Memory.lookup_store (m : Memory) (a b : Nat) (v : Byte) :
    (m.store a v).lookup b = if b = a then some v else m.lookup b := by
  induction m with
  | nil => simp [Memory.store, Memory.lookup]
  | cons c rest ih =>
    obtain ⟨x, w⟩ := c
    simp only [Memory.store]
    split
    · simp only [Memory.lookup]
    split
    · subst_vars
      simp only [Memory.lookup]
      split <;> rfl
    · simp only [Memory.lookup, ih]
      grind

/-- Every address of a list is above `a`. -/
def Memory.above (a : Nat) (m : Memory) : Prop := ∀ c ∈ m, a < c.1

theorem Memory.wf_cons {c : Host.Cell} {m : Memory} :
    Memory.wf (c :: m) = true ↔ Memory.above c.1 m ∧ m.wf = true := by
  induction m generalizing c with
  | nil => simp [Memory.wf, Memory.above]
  | cons d rest ih =>
    simp only [Memory.wf, Memory.above, Bool.and_eq_true, decide_eq_true_eq, List.mem_cons,
      forall_eq_or_imp]
    constructor
    · rintro ⟨h, hw⟩
      exact ⟨⟨h, fun e he => Nat.lt_trans h ((ih.mp hw).1 e he)⟩, hw⟩
    · rintro ⟨⟨h, -⟩, hw⟩
      exact ⟨h, hw⟩

theorem Memory.mem_store {m : Memory} {a : Nat} {v : Byte} {c : Host.Cell} (h : c ∈ m.store a v) :
    c.1 = a ∨ c ∈ m := by
  induction m with
  | nil =>
    simp only [Memory.store, List.mem_cons, List.not_mem_nil, or_false] at h
    exact .inl (by rw [h])
  | cons d rest ih =>
    simp only [Memory.store] at h
    split at h
    · rcases List.mem_cons.mp h with rfl | h
      · exact .inl rfl
      · exact .inr h
    split at h
    · rcases List.mem_cons.mp h with rfl | h
      · exact .inl rfl
      · exact .inr (List.mem_cons_of_mem _ h)
    · rcases List.mem_cons.mp h with rfl | h
      · exact .inr List.mem_cons_self
      · exact (ih h).imp_right (List.mem_cons_of_mem _)

/-- A store keeps the canonical form. -/
theorem Memory.store_wf {m : Memory} (h : m.wf = true) (a : Nat) (v : Byte) : (m.store a v).wf = true := by
  induction m with
  | nil => rfl
  | cons d rest ih =>
    obtain ⟨x, w⟩ := d
    obtain ⟨hab, hw⟩ := Memory.wf_cons.mp h
    simp only [Memory.store]
    split
    · rename_i hlt
      refine Memory.wf_cons.mpr ⟨fun c hc => ?_, h⟩
      rcases List.mem_cons.mp hc with rfl | hc
      · exact hlt
      · exact Nat.lt_trans hlt (hab c hc)
    split
    · rename_i heq
      subst heq
      exact Memory.wf_cons.mpr ⟨hab, hw⟩
    · refine Memory.wf_cons.mpr ⟨fun c hc => ?_, ih hw⟩
      rcases Memory.mem_store hc with hc | hc
      · simp only at *
        omega
      · exact hab c hc

theorem Memory.within_iff {n : Nat} {m : Memory} : m.within n = true ↔ ∀ c ∈ m, c.1 < n := by
  simp [Memory.within]

theorem Memory.store_within {n : Nat} {m : Memory} (h : m.within n = true) {a : Nat} (ha : a < n)
    (v : Byte) : (m.store a v).within n = true := by
  rw [Memory.within_iff] at *
  intro c hc
  rcases Memory.mem_store hc with hc | hc
  · omega
  · exact h c hc

/-- Reading after storing a byte sequence: inside it the stored byte, elsewhere what was there. -/
theorem Memory.lookup_storeBytes (m : Memory) (a b : Nat) (v : List Byte) :
    (m.storeBytes a v).lookup b =
      if a ≤ b ∧ b < a + v.length then some (v.getD (b - a) 0) else m.lookup b := by
  induction v generalizing m a with
  | nil =>
    simp
  | cons x xs ih =>
    simp only [Memory.storeBytes, ih, Memory.lookup_store, List.length_cons]
    by_cases h1 : b = a
    · subst h1
      simp
    by_cases h2 : a + 1 ≤ b ∧ b < a + 1 + xs.length
    · have h3 : a ≤ b ∧ b < a + (xs.length + 1) := by omega
      have h4 : b - a = (b - (a + 1)) + 1 := by omega
      rw [if_pos h2, if_pos h3, h4, List.getD_cons_succ]
    · have h3 : ¬ (a ≤ b ∧ b < a + (xs.length + 1)) := by omega
      rw [if_neg h2, if_neg h3, if_neg h1]

theorem Memory.storeBytes_wf {m : Memory} (h : m.wf = true) (a : Nat) (v : List Byte) :
    (m.storeBytes a v).wf = true := by
  induction v generalizing m a with
  | nil => exact h
  | cons x xs ih => exact ih (Memory.store_wf h a x) (a + 1)

theorem Memory.storeBytes_within {n : Nat} {m : Memory} (h : m.within n = true) {a : Nat}
    {v : List Byte} (ha : a + v.length ≤ n) : (m.storeBytes a v).within n = true := by
  induction v generalizing m a with
  | nil => exact h
  | cons x xs ih =>
    simp only [List.length_cons] at ha
    exact ih (Memory.store_within h (by omega) x) (by omega)

/-- Two memories in canonical form with the same listed values are the same data. -/
theorem Memory.eq_of_lookup_eq {m n : Memory} (hm : m.wf = true) (hn : n.wf = true)
    (h : ∀ a, m.lookup a = n.lookup a) : m = n := by
  have above_none : ∀ {k : Memory} {a : Nat}, Memory.above a k → k.lookup a = none := by
    intro k a hk
    induction k with
    | nil => rfl
    | cons c rest ih =>
      have h1 := hk c List.mem_cons_self
      simp only [Memory.lookup, if_neg (Nat.ne_of_lt h1)]
      exact ih fun d hd => hk d (List.mem_cons_of_mem _ hd)
  induction m generalizing n with
  | nil =>
    cases n with
    | nil => rfl
    | cons c rest => simpa [Memory.lookup] using h c.1
  | cons c rest ih =>
    cases n with
    | nil => simpa [Memory.lookup] using h c.1
    | cons d rest' =>
      obtain ⟨hc, hw⟩ := Memory.wf_cons.mp hm
      obtain ⟨hd, hw'⟩ := Memory.wf_cons.mp hn
      obtain ⟨x, v⟩ := c
      obtain ⟨y, w⟩ := d
      have hxy : x = y := by
        rcases Nat.lt_trichotomy x y with hlt | heq | hlt
        · have h1 := h x
          have h2 : Memory.lookup rest' x = none :=
            above_none fun e he => Nat.lt_trans hlt (hd e he)
          simp [Memory.lookup, h2, Nat.ne_of_lt hlt] at h1
        · exact heq
        · have h1 := h y
          have h2 : Memory.lookup rest y = none :=
            above_none fun e he => Nat.lt_trans hlt (hc e he)
          simp [Memory.lookup, h2, Nat.ne_of_lt hlt] at h1
      subst hxy
      have hvw : v = w := by simpa [Memory.lookup] using h x
      subst hvw
      congr 1
      refine ih hw hw' fun a => ?_
      by_cases ha : a = x
      · subst ha
        rw [above_none hc, above_none hd]
      · simpa [Memory.lookup, ha] using h a

theorem State.reset_mem_wf : State.reset.mem.wf = true := rfl

end Sys2Proof.Machine
end

