-- ==== Sys2Proof/Laws/State.lean ====
section
/-! SUPPORT. One lemma per field per shared state update, so that no proof unfolds a record update. -/

namespace Sys2Proof.Machine

/-! ### After completing a command -/

@[simp] theorem State.complete_params (s : State) (c : ResultCode) :
    (s.complete c).params = s.params := rfl

@[simp] theorem State.complete_key (s : State) (c : ResultCode) :
    (s.complete c).key = s.key := rfl

@[simp] theorem State.complete_ivin (s : State) (c : ResultCode) :
    (s.complete c).ivin = s.ivin := rfl

@[simp] theorem State.complete_iv (s : State) (c : ResultCode) :
    (s.complete c).iv = s.iv := rfl

@[simp] theorem State.complete_state (s : State) (c : ResultCode) :
    (s.complete c).state = s.state := rfl

@[simp] theorem State.complete_rk (s : State) (c : ResultCode) :
    (s.complete c).rk = s.rk := rfl

@[simp] theorem State.complete_buflen (s : State) (c : ResultCode) :
    (s.complete c).buflen = s.buflen := rfl

@[simp] theorem State.complete_mlen (s : State) (c : ResultCode) :
    (s.complete c).mlen = s.mlen := rfl

@[simp] theorem State.complete_status (s : State) (c : ResultCode) :
    (s.complete c).status = s.status := rfl

@[simp] theorem State.complete_result (s : State) (c : ResultCode) :
    (s.complete c).result = c.number := rfl

@[simp] theorem State.complete_outlen (s : State) (c : ResultCode) :
    (s.complete c).outlen = s.outlen := rfl

@[simp] theorem State.complete_fcode (s : State) (c : ResultCode) :
    (s.complete c).fcode = s.fcode := rfl

@[simp] theorem State.complete_finfo (s : State) (c : ResultCode) :
    (s.complete c).finfo = s.finfo := rfl

@[simp] theorem State.complete_fcmd (s : State) (c : ResultCode) :
    (s.complete c).fcmd = s.fcmd := rfl

@[simp] theorem State.complete_mem (s : State) (c : ResultCode) :
    (s.complete c).mem = s.mem := rfl

@[simp] theorem State.complete_powerOns (s : State) (c : ResultCode) :
    (s.complete c).powerOns = s.powerOns := rfl

@[simp] theorem State.complete_pending (s : State) (c : ResultCode) :
    (s.complete c).pending = s.pending := rfl

@[simp] theorem State.complete_resp (s : State) (c : ResultCode) :
    (s.complete c).resp = s.resp := rfl

/-! ### After taking a fault -/

@[simp] theorem State.faultEntry_params (s : State) (r : Raise) (w : Word) :
    (s.faultEntry r w).params = s.params := rfl

@[simp] theorem State.faultEntry_key (s : State) (r : Raise) (w : Word) :
    (s.faultEntry r w).key = s.key := rfl

@[simp] theorem State.faultEntry_ivin (s : State) (r : Raise) (w : Word) :
    (s.faultEntry r w).ivin = s.ivin := rfl

@[simp] theorem State.faultEntry_iv (s : State) (r : Raise) (w : Word) :
    (s.faultEntry r w).iv = s.iv := rfl

@[simp] theorem State.faultEntry_state (s : State) (r : Raise) (w : Word) :
    (s.faultEntry r w).state = s.state := rfl

@[simp] theorem State.faultEntry_rk (s : State) (r : Raise) (w : Word) :
    (s.faultEntry r w).rk = s.rk := rfl

@[simp] theorem State.faultEntry_buflen (s : State) (r : Raise) (w : Word) :
    (s.faultEntry r w).buflen = s.buflen := rfl

@[simp] theorem State.faultEntry_mlen (s : State) (r : Raise) (w : Word) :
    (s.faultEntry r w).mlen = s.mlen := rfl

@[simp] theorem State.faultEntry_status (s : State) (r : Raise) (w : Word) :
    (s.faultEntry r w).status = { s.status with fault := true } := rfl

@[simp] theorem State.faultEntry_result (s : State) (r : Raise) (w : Word) :
    (s.faultEntry r w).result = s.result := rfl

@[simp] theorem State.faultEntry_outlen (s : State) (r : Raise) (w : Word) :
    (s.faultEntry r w).outlen = s.outlen := rfl

@[simp] theorem State.faultEntry_fcode (s : State) (r : Raise) (w : Word) :
    (s.faultEntry r w).fcode = r.code.number := rfl

@[simp] theorem State.faultEntry_finfo (s : State) (r : Raise) (w : Word) :
    (s.faultEntry r w).finfo = r.info := rfl

@[simp] theorem State.faultEntry_fcmd (s : State) (r : Raise) (w : Word) :
    (s.faultEntry r w).fcmd = w := rfl

@[simp] theorem State.faultEntry_mem (s : State) (r : Raise) (w : Word) :
    (s.faultEntry r w).mem = s.mem := rfl

@[simp] theorem State.faultEntry_powerOns (s : State) (r : Raise) (w : Word) :
    (s.faultEntry r w).powerOns = s.powerOns := rfl

@[simp] theorem State.faultEntry_pending (s : State) (r : Raise) (w : Word) :
    (s.faultEntry r w).pending = s.pending := rfl

@[simp] theorem State.faultEntry_resp (s : State) (r : Raise) (w : Word) :
    (s.faultEntry r w).resp = s.resp := rfl

/-! ### After storing bytes -/

@[simp] theorem State.memWrite_params (s : State) (a : Nat) (v : List Byte) :
    (s.memWrite a v).params = s.params := rfl

@[simp] theorem State.memWrite_key (s : State) (a : Nat) (v : List Byte) :
    (s.memWrite a v).key = s.key := rfl

@[simp] theorem State.memWrite_ivin (s : State) (a : Nat) (v : List Byte) :
    (s.memWrite a v).ivin = s.ivin := rfl

@[simp] theorem State.memWrite_iv (s : State) (a : Nat) (v : List Byte) :
    (s.memWrite a v).iv = s.iv := rfl

@[simp] theorem State.memWrite_state (s : State) (a : Nat) (v : List Byte) :
    (s.memWrite a v).state = s.state := rfl

@[simp] theorem State.memWrite_rk (s : State) (a : Nat) (v : List Byte) :
    (s.memWrite a v).rk = s.rk := rfl

@[simp] theorem State.memWrite_buflen (s : State) (a : Nat) (v : List Byte) :
    (s.memWrite a v).buflen = s.buflen := rfl

@[simp] theorem State.memWrite_mlen (s : State) (a : Nat) (v : List Byte) :
    (s.memWrite a v).mlen = s.mlen := rfl

@[simp] theorem State.memWrite_status (s : State) (a : Nat) (v : List Byte) :
    (s.memWrite a v).status = s.status := rfl

@[simp] theorem State.memWrite_result (s : State) (a : Nat) (v : List Byte) :
    (s.memWrite a v).result = s.result := rfl

@[simp] theorem State.memWrite_outlen (s : State) (a : Nat) (v : List Byte) :
    (s.memWrite a v).outlen = s.outlen := rfl

@[simp] theorem State.memWrite_fcode (s : State) (a : Nat) (v : List Byte) :
    (s.memWrite a v).fcode = s.fcode := rfl

@[simp] theorem State.memWrite_finfo (s : State) (a : Nat) (v : List Byte) :
    (s.memWrite a v).finfo = s.finfo := rfl

@[simp] theorem State.memWrite_fcmd (s : State) (a : Nat) (v : List Byte) :
    (s.memWrite a v).fcmd = s.fcmd := rfl

@[simp] theorem State.memWrite_mem (s : State) (a : Nat) (v : List Byte) :
    (s.memWrite a v).mem = s.mem.storeBytes a v := rfl

@[simp] theorem State.memWrite_powerOns (s : State) (a : Nat) (v : List Byte) :
    (s.memWrite a v).powerOns = s.powerOns := rfl

@[simp] theorem State.memWrite_pending (s : State) (a : Nat) (v : List Byte) :
    (s.memWrite a v).pending = s.pending := rfl

@[simp] theorem State.memWrite_resp (s : State) (a : Nat) (v : List Byte) :
    (s.memWrite a v).resp = s.resp := rfl

/-! ### After storing a block -/

@[simp] theorem State.storeBlock_params (s : State) (a : Nat) (b : Block) :
    (s.storeBlock a b).params = s.params := State.memWrite_params s a (wordsToBlock b)

@[simp] theorem State.storeBlock_key (s : State) (a : Nat) (b : Block) :
    (s.storeBlock a b).key = s.key := State.memWrite_key s a (wordsToBlock b)

@[simp] theorem State.storeBlock_ivin (s : State) (a : Nat) (b : Block) :
    (s.storeBlock a b).ivin = s.ivin := State.memWrite_ivin s a (wordsToBlock b)

@[simp] theorem State.storeBlock_iv (s : State) (a : Nat) (b : Block) :
    (s.storeBlock a b).iv = s.iv := State.memWrite_iv s a (wordsToBlock b)

@[simp] theorem State.storeBlock_state (s : State) (a : Nat) (b : Block) :
    (s.storeBlock a b).state = s.state := State.memWrite_state s a (wordsToBlock b)

@[simp] theorem State.storeBlock_rk (s : State) (a : Nat) (b : Block) :
    (s.storeBlock a b).rk = s.rk := State.memWrite_rk s a (wordsToBlock b)

@[simp] theorem State.storeBlock_buflen (s : State) (a : Nat) (b : Block) :
    (s.storeBlock a b).buflen = s.buflen := State.memWrite_buflen s a (wordsToBlock b)

@[simp] theorem State.storeBlock_mlen (s : State) (a : Nat) (b : Block) :
    (s.storeBlock a b).mlen = s.mlen := State.memWrite_mlen s a (wordsToBlock b)

@[simp] theorem State.storeBlock_status (s : State) (a : Nat) (b : Block) :
    (s.storeBlock a b).status = s.status := State.memWrite_status s a (wordsToBlock b)

@[simp] theorem State.storeBlock_result (s : State) (a : Nat) (b : Block) :
    (s.storeBlock a b).result = s.result := State.memWrite_result s a (wordsToBlock b)

@[simp] theorem State.storeBlock_outlen (s : State) (a : Nat) (b : Block) :
    (s.storeBlock a b).outlen = s.outlen := State.memWrite_outlen s a (wordsToBlock b)

@[simp] theorem State.storeBlock_fcode (s : State) (a : Nat) (b : Block) :
    (s.storeBlock a b).fcode = s.fcode := State.memWrite_fcode s a (wordsToBlock b)

@[simp] theorem State.storeBlock_finfo (s : State) (a : Nat) (b : Block) :
    (s.storeBlock a b).finfo = s.finfo := State.memWrite_finfo s a (wordsToBlock b)

@[simp] theorem State.storeBlock_fcmd (s : State) (a : Nat) (b : Block) :
    (s.storeBlock a b).fcmd = s.fcmd := State.memWrite_fcmd s a (wordsToBlock b)

@[simp] theorem State.storeBlock_mem (s : State) (a : Nat) (b : Block) :
    (s.storeBlock a b).mem = s.mem.storeBytes a (wordsToBlock b) := State.memWrite_mem s a (wordsToBlock b)

@[simp] theorem State.storeBlock_powerOns (s : State) (a : Nat) (b : Block) :
    (s.storeBlock a b).powerOns = s.powerOns := State.memWrite_powerOns s a (wordsToBlock b)

@[simp] theorem State.storeBlock_pending (s : State) (a : Nat) (b : Block) :
    (s.storeBlock a b).pending = s.pending := State.memWrite_pending s a (wordsToBlock b)

@[simp] theorem State.storeBlock_resp (s : State) (a : Nat) (b : Block) :
    (s.storeBlock a b).resp = s.resp := State.memWrite_resp s a (wordsToBlock b)

/-! ### After processing a block -/

@[simp] theorem State.processBlock_params (s : State) (f : Block → Block) (a : Nat) :
    (s.processBlock f a).params = s.params := rfl

@[simp] theorem State.processBlock_key (s : State) (f : Block → Block) (a : Nat) :
    (s.processBlock f a).key = s.key := rfl

@[simp] theorem State.processBlock_ivin (s : State) (f : Block → Block) (a : Nat) :
    (s.processBlock f a).ivin = s.ivin := rfl

@[simp] theorem State.processBlock_iv (s : State) (f : Block → Block) (a : Nat) :
    (s.processBlock f a).iv = s.iv := rfl

@[simp] theorem State.processBlock_state (s : State) (f : Block → Block) (a : Nat) :
    (s.processBlock f a).state = f (s.loadBlock a) := rfl

@[simp] theorem State.processBlock_rk (s : State) (f : Block → Block) (a : Nat) :
    (s.processBlock f a).rk = s.rk := rfl

@[simp] theorem State.processBlock_buflen (s : State) (f : Block → Block) (a : Nat) :
    (s.processBlock f a).buflen = s.buflen := rfl

@[simp] theorem State.processBlock_mlen (s : State) (f : Block → Block) (a : Nat) :
    (s.processBlock f a).mlen = s.mlen := rfl

@[simp] theorem State.processBlock_status (s : State) (f : Block → Block) (a : Nat) :
    (s.processBlock f a).status = s.status := rfl

@[simp] theorem State.processBlock_result (s : State) (f : Block → Block) (a : Nat) :
    (s.processBlock f a).result = s.result := rfl

@[simp] theorem State.processBlock_outlen (s : State) (f : Block → Block) (a : Nat) :
    (s.processBlock f a).outlen = s.outlen := rfl

@[simp] theorem State.processBlock_fcode (s : State) (f : Block → Block) (a : Nat) :
    (s.processBlock f a).fcode = s.fcode := rfl

@[simp] theorem State.processBlock_finfo (s : State) (f : Block → Block) (a : Nat) :
    (s.processBlock f a).finfo = s.finfo := rfl

@[simp] theorem State.processBlock_fcmd (s : State) (f : Block → Block) (a : Nat) :
    (s.processBlock f a).fcmd = s.fcmd := rfl

@[simp] theorem State.processBlock_mem (s : State) (f : Block → Block) (a : Nat) :
    (s.processBlock f a).mem = s.mem.storeBytes a (wordsToBlock (f (s.loadBlock a))) := State.storeBlock_mem s a (f (s.loadBlock a))

@[simp] theorem State.processBlock_powerOns (s : State) (f : Block → Block) (a : Nat) :
    (s.processBlock f a).powerOns = s.powerOns := rfl

@[simp] theorem State.processBlock_pending (s : State) (f : Block → Block) (a : Nat) :
    (s.processBlock f a).pending = s.pending := rfl

@[simp] theorem State.processBlock_resp (s : State) (f : Block → Block) (a : Nat) :
    (s.processBlock f a).resp = s.resp := rfl

/-! ### After filling the pad region -/

@[simp] theorem State.padFill_params (s : State) :
    (s.padFill).params = s.params := rfl

@[simp] theorem State.padFill_key (s : State) :
    (s.padFill).key = s.key := rfl

@[simp] theorem State.padFill_ivin (s : State) :
    (s.padFill).ivin = s.ivin := rfl

@[simp] theorem State.padFill_iv (s : State) :
    (s.padFill).iv = s.iv := rfl

@[simp] theorem State.padFill_state (s : State) :
    (s.padFill).state = s.state := rfl

@[simp] theorem State.padFill_rk (s : State) :
    (s.padFill).rk = s.rk := rfl

@[simp] theorem State.padFill_buflen (s : State) :
    (s.padFill).buflen = s.buflen := rfl

@[simp] theorem State.padFill_mlen (s : State) :
    (s.padFill).mlen = s.mlen := rfl

@[simp] theorem State.padFill_status (s : State) :
    (s.padFill).status = s.status := rfl

@[simp] theorem State.padFill_result (s : State) :
    (s.padFill).result = s.result := rfl

@[simp] theorem State.padFill_outlen (s : State) :
    (s.padFill).outlen = s.outlen := rfl

@[simp] theorem State.padFill_fcode (s : State) :
    (s.padFill).fcode = s.fcode := rfl

@[simp] theorem State.padFill_finfo (s : State) :
    (s.padFill).finfo = s.finfo := rfl

@[simp] theorem State.padFill_fcmd (s : State) :
    (s.padFill).fcmd = s.fcmd := rfl

@[simp] theorem State.padFill_mem (s : State) :
    (s.padFill).mem = s.mem.storeBytes s.mlen.toNat (List.replicate s.padLength (BitVec.ofNat 8 s.padLength)) := rfl

@[simp] theorem State.padFill_powerOns (s : State) :
    (s.padFill).powerOns = s.powerOns := rfl

@[simp] theorem State.padFill_pending (s : State) :
    (s.padFill).pending = s.pending := rfl

@[simp] theorem State.padFill_resp (s : State) :
    (s.padFill).resp = s.resp := rfl

/-! ### After constructing a cipher instance -/

@[simp] theorem State.constructInstance_params (s : State) (k : KeySize) :
    (s.constructInstance k).params = s.params := rfl

@[simp] theorem State.constructInstance_key (s : State) (k : KeySize) :
    (s.constructInstance k).key = s.key := rfl

@[simp] theorem State.constructInstance_ivin (s : State) (k : KeySize) :
    (s.constructInstance k).ivin = s.ivin := rfl

@[simp] theorem State.constructInstance_iv (s : State) (k : KeySize) :
    (s.constructInstance k).iv = zeroBlock := rfl

@[simp] theorem State.constructInstance_state (s : State) (k : KeySize) :
    (s.constructInstance k).state = s.state := rfl

@[simp] theorem State.constructInstance_rk (s : State) (k : KeySize) :
    (s.constructInstance k).rk = scheduleRegs (expandKey (s.keyWords k.nk) k.nk) := rfl

@[simp] theorem State.constructInstance_buflen (s : State) (k : KeySize) :
    (s.constructInstance k).buflen = s.buflen := rfl

@[simp] theorem State.constructInstance_mlen (s : State) (k : KeySize) :
    (s.constructInstance k).mlen = s.mlen := rfl

@[simp] theorem State.constructInstance_status (s : State) (k : KeySize) :
    (s.constructInstance k).status = { s.status with kvalid := true, ivvalid := false, ksz := k } := rfl

@[simp] theorem State.constructInstance_result (s : State) (k : KeySize) :
    (s.constructInstance k).result = 0 := rfl

@[simp] theorem State.constructInstance_outlen (s : State) (k : KeySize) :
    (s.constructInstance k).outlen = s.outlen := rfl

@[simp] theorem State.constructInstance_fcode (s : State) (k : KeySize) :
    (s.constructInstance k).fcode = s.fcode := rfl

@[simp] theorem State.constructInstance_finfo (s : State) (k : KeySize) :
    (s.constructInstance k).finfo = s.finfo := rfl

@[simp] theorem State.constructInstance_fcmd (s : State) (k : KeySize) :
    (s.constructInstance k).fcmd = s.fcmd := rfl

@[simp] theorem State.constructInstance_mem (s : State) (k : KeySize) :
    (s.constructInstance k).mem = s.mem := rfl

@[simp] theorem State.constructInstance_powerOns (s : State) (k : KeySize) :
    (s.constructInstance k).powerOns = s.powerOns := rfl

@[simp] theorem State.constructInstance_pending (s : State) (k : KeySize) :
    (s.constructInstance k).pending = s.pending := rfl

@[simp] theorem State.constructInstance_resp (s : State) (k : KeySize) :
    (s.constructInstance k).resp = s.resp := rfl

/-! ### After the reset event -/

@[simp] theorem State.resetRegisters_params (s : State) :
    (s.resetRegisters).params = s.params := rfl

@[simp] theorem State.resetRegisters_key (s : State) :
    (s.resetRegisters).key = State.reset.key := rfl

@[simp] theorem State.resetRegisters_ivin (s : State) :
    (s.resetRegisters).ivin = State.reset.ivin := rfl

@[simp] theorem State.resetRegisters_iv (s : State) :
    (s.resetRegisters).iv = State.reset.iv := rfl

@[simp] theorem State.resetRegisters_state (s : State) :
    (s.resetRegisters).state = State.reset.state := rfl

@[simp] theorem State.resetRegisters_rk (s : State) :
    (s.resetRegisters).rk = State.reset.rk := rfl

@[simp] theorem State.resetRegisters_buflen (s : State) :
    (s.resetRegisters).buflen = State.reset.buflen := rfl

@[simp] theorem State.resetRegisters_mlen (s : State) :
    (s.resetRegisters).mlen = State.reset.mlen := rfl

@[simp] theorem State.resetRegisters_status (s : State) :
    (s.resetRegisters).status = State.reset.status := rfl

@[simp] theorem State.resetRegisters_result (s : State) :
    (s.resetRegisters).result = State.reset.result := rfl

@[simp] theorem State.resetRegisters_outlen (s : State) :
    (s.resetRegisters).outlen = State.reset.outlen := rfl

@[simp] theorem State.resetRegisters_fcode (s : State) :
    (s.resetRegisters).fcode = State.reset.fcode := rfl

@[simp] theorem State.resetRegisters_finfo (s : State) :
    (s.resetRegisters).finfo = State.reset.finfo := rfl

@[simp] theorem State.resetRegisters_fcmd (s : State) :
    (s.resetRegisters).fcmd = State.reset.fcmd := rfl

@[simp] theorem State.resetRegisters_mem (s : State) :
    (s.resetRegisters).mem = s.mem := rfl

@[simp] theorem State.resetRegisters_powerOns (s : State) :
    (s.resetRegisters).powerOns = s.powerOns := rfl

@[simp] theorem State.resetRegisters_pending (s : State) :
    (s.resetRegisters).pending = s.pending := rfl

@[simp] theorem State.resetRegisters_resp (s : State) :
    (s.resetRegisters).resp = State.reset.resp := rfl

/-! ### After a power-on reset -/

@[simp] theorem State.powerCycle_params (s : State) :
    (s.powerCycle).params = s.params := rfl

@[simp] theorem State.powerCycle_key (s : State) :
    (s.powerCycle).key = State.reset.key := rfl

@[simp] theorem State.powerCycle_ivin (s : State) :
    (s.powerCycle).ivin = State.reset.ivin := rfl

@[simp] theorem State.powerCycle_iv (s : State) :
    (s.powerCycle).iv = State.reset.iv := rfl

@[simp] theorem State.powerCycle_state (s : State) :
    (s.powerCycle).state = State.reset.state := rfl

@[simp] theorem State.powerCycle_rk (s : State) :
    (s.powerCycle).rk = State.reset.rk := rfl

@[simp] theorem State.powerCycle_buflen (s : State) :
    (s.powerCycle).buflen = State.reset.buflen := rfl

@[simp] theorem State.powerCycle_mlen (s : State) :
    (s.powerCycle).mlen = State.reset.mlen := rfl

@[simp] theorem State.powerCycle_status (s : State) :
    (s.powerCycle).status = State.reset.status := rfl

@[simp] theorem State.powerCycle_result (s : State) :
    (s.powerCycle).result = State.reset.result := rfl

@[simp] theorem State.powerCycle_outlen (s : State) :
    (s.powerCycle).outlen = State.reset.outlen := rfl

@[simp] theorem State.powerCycle_fcode (s : State) :
    (s.powerCycle).fcode = State.reset.fcode := rfl

@[simp] theorem State.powerCycle_finfo (s : State) :
    (s.powerCycle).finfo = State.reset.finfo := rfl

@[simp] theorem State.powerCycle_fcmd (s : State) :
    (s.powerCycle).fcmd = State.reset.fcmd := rfl

@[simp] theorem State.powerCycle_mem (s : State) :
    (s.powerCycle).mem = [] := rfl

@[simp] theorem State.powerCycle_powerOns (s : State) :
    (s.powerCycle).powerOns = s.powerOns + 1 := rfl

@[simp] theorem State.powerCycle_pending (s : State) :
    (s.powerCycle).pending = s.pending := rfl

@[simp] theorem State.powerCycle_resp (s : State) :
    (s.powerCycle).resp = State.reset.resp := rfl

end Sys2Proof.Machine
end

