-- ==== Sys2Proof/Laws/Buffer.lean ====
section
/-! SUPPORT. Buffer bytes and blocks as a state holds them: what every read gives after every store
(spec 00_scope.md R8, 20_memory.md R40, R46). -/

namespace Sys2Proof.Machine

/-- A buffer byte depends on the listed bytes and on the power-on count alone. -/
theorem State.bufByte_of_mem {s t : State} (hm : t.mem = s.mem) (hp : t.powerOns = s.powerOns) :
    t.bufByte = s.bufByte := by
  funext a
  simp only [State.bufByte, hm, hp]

theorem State.bufByte_memWrite (s : State) (a b : Nat) (v : List Byte) :
    (s.memWrite a v).bufByte b = if a ≤ b ∧ b < a + v.length then v.getD (b - a) 0 else s.bufByte b := by
  simp only [State.bufByte, State.memWrite_mem, State.memWrite_powerOns, Memory.lookup_storeBytes]
  split <;> rfl

/-! ### Reading byte sequences -/

@[simp] theorem State.length_memRead (s : State) (a n : Nat) : (s.memRead a n).length = n := by
  induction n generalizing a with
  | zero => rfl
  | succ n ih => simp [State.memRead, ih]

theorem State.memRead_congr {s t : State} {a n : Nat}
    (h : ∀ i, i < n → t.bufByte (a + i) = s.bufByte (a + i)) : t.memRead a n = s.memRead a n := by
  induction n generalizing a with
  | zero => rfl
  | succ n ih =>
    simp only [State.memRead]
    rw [show t.bufByte a = s.bufByte a from h 0 (by omega)]
    rw [ih fun i hi => by simpa [Nat.add_assoc, Nat.add_comm 1] using h (i + 1) (by omega)]

theorem State.getD_memRead (s : State) (a n i : Nat) (h : i < n) :
    (s.memRead a n).getD i 0 = s.bufByte (a + i) := by
  induction n generalizing a i with
  | zero => omega
  | succ n ih =>
    cases i with
    | zero => rfl
    | succ i =>
      simp only [State.memRead, List.getD_cons_succ]
      rw [ih (a + 1) i (by omega)]
      congr 1
      omega

/-- The bytes read are the listed ones: how a `memRead` is shown to be a given sequence. -/
theorem State.memRead_eq {s : State} {a : Nat} {v : List Byte}
    (h : ∀ i, i < v.length → s.bufByte (a + i) = v.getD i 0) : s.memRead a v.length = v := by
  induction v generalizing a with
  | nil => rfl
  | cons x xs ih =>
    simp only [List.length_cons, State.memRead]
    rw [show s.bufByte a = x from h 0 (by simp)]
    rw [ih fun i hi => by
      have := h (i + 1) (by simpa using hi)
      simpa [Nat.add_assoc, Nat.add_comm 1] using this]

theorem State.memRead_memWrite_same (s : State) (a : Nat) (v : List Byte) :
    (s.memWrite a v).memRead a v.length = v :=
  State.memRead_eq fun i hi => by
    rw [State.bufByte_memWrite, if_pos (by omega)]
    congr 1
    omega

theorem State.mem_memRead {s : State} {a n : Nat} {x : Byte} :
    x ∈ s.memRead a n ↔ ∃ i, i < n ∧ s.bufByte (a + i) = x := by
  induction n generalizing a with
  | zero => simp [State.memRead]
  | succ n ih =>
    simp only [State.memRead, List.mem_cons, ih]
    constructor
    · rintro (rfl | ⟨i, hi, rfl⟩)
      · exact ⟨0, by omega, rfl⟩
      · exact ⟨i + 1, by omega, by congr 1; omega⟩
    · rintro ⟨i, hi, rfl⟩
      cases i with
      | zero => exact .inl rfl
      | succ i => exact .inr ⟨i, by omega, by congr 1; omega⟩

/-! ### Blocks -/

theorem State.loadBlock_congr {s t : State} {a : Nat}
    (h : ∀ i, i < 16 → t.bufByte (a + i) = s.bufByte (a + i)) : t.loadBlock a = s.loadBlock a := by
  simp only [State.loadBlock, State.memRead_congr h]

/-- Grid byte `s(r, c)` of a loaded block is buffer byte `a + 4c + r` (R15, R42). -/
theorem State.gridByte_loadBlock (s : State) (a : Nat) (r c : Fin 4) :
    gridByte (s.loadBlock a) r.val c = s.bufByte (a + (4 * c.val + r.val)) := by
  rw [← State.getD_memRead s a 16 _ (by omega), ← getD_wordsToBlock, State.loadBlock,
    wordsToBlock_blockToWords _ (State.length_memRead s a 16)]

/-- A block that reads back byte by byte as `B` is `B`. -/
theorem State.loadBlock_eq {s : State} {a : Nat} {B : Block}
    (h : ∀ i, i < 16 → s.bufByte (a + i) = (wordsToBlock B).getD i 0) : s.loadBlock a = B := by
  have : s.memRead a 16 = wordsToBlock B := State.memRead_eq (v := wordsToBlock B) h
  rw [State.loadBlock, this, blockToWords_wordsToBlock]

theorem State.bufByte_loadBlock (s : State) (a i : Nat) (h : i < 16) :
    (wordsToBlock (s.loadBlock a)).getD i 0 = s.bufByte (a + i) := by
  rw [State.loadBlock, wordsToBlock_blockToWords _ (State.length_memRead s a 16),
    State.getD_memRead s a 16 i h]

theorem State.bufByte_storeBlock (s : State) (a b : Nat) (B : Block) :
    (s.storeBlock a B).bufByte b =
      if a ≤ b ∧ b < a + 16 then (wordsToBlock B).getD (b - a) 0 else s.bufByte b :=
  State.bufByte_memWrite s a b (wordsToBlock B)

theorem State.bufByte_storeBlock_of_outside {s : State} {a b : Nat} {B : Block}
    (h : b < a ∨ a + 16 ≤ b) : (s.storeBlock a B).bufByte b = s.bufByte b := by
  rw [State.bufByte_storeBlock, if_neg (by omega)]

@[simp] theorem State.memRead_storeBlock_same (s : State) (a : Nat) (B : Block) :
    (s.storeBlock a B).memRead a 16 = wordsToBlock B :=
  State.memRead_memWrite_same s a (wordsToBlock B)

@[simp] theorem State.loadBlock_storeBlock_same (s : State) (a : Nat) (B : Block) :
    (s.storeBlock a B).loadBlock a = B := by
  rw [State.loadBlock, State.memRead_storeBlock_same, blockToWords_wordsToBlock]

theorem State.loadBlock_storeBlock_of_disjoint {s : State} {a b : Nat} {B : Block}
    (h : b + 16 ≤ a ∨ a + 16 ≤ b) : (s.storeBlock a B).loadBlock b = s.loadBlock b :=
  State.loadBlock_congr fun i hi => State.bufByte_storeBlock_of_outside (by omega)

/-- Processing a block changes the bytes that storing it changes. -/
theorem State.bufByte_processBlock (s : State) (f : Block → Block) (a : Nat) :
    (s.processBlock f a).bufByte = (s.storeBlock a (f (s.loadBlock a))).bufByte :=
  State.bufByte_of_mem rfl rfl

theorem State.loadBlock_of_bufByte {s t : State} (h : t.bufByte = s.bufByte) :
    t.loadBlock = s.loadBlock := by
  funext a
  exact State.loadBlock_congr fun i _ => by rw [h]

theorem State.loadBlock_processBlock (s : State) (f : Block → Block) (a : Nat) :
    (s.processBlock f a).loadBlock = (s.storeBlock a (f (s.loadBlock a))).loadBlock :=
  State.loadBlock_of_bufByte (State.bufByte_processBlock s f a)

end Sys2Proof.Machine
end

