-- ==== Sys2Proof/Laws/Command.lean ====
section
/-! SUPPORT. What running a command can do, said once: it is ignored, it takes one fault, or it completes
(spec 60_exceptions.md R206, R207, R212); and every command answers a next state (20_memory.md R50). -/

namespace Sys2Proof.Machine

@[simp] theorem firstRaise_nil : firstRaise [] = none := rfl

@[simp] theorem firstRaise_some (r : Raise) (rest : List (Option Raise)) :
    firstRaise (some r :: rest) = some r := rfl

@[simp] theorem firstRaise_none (rest : List (Option Raise)) :
    firstRaise (none :: rest) = firstRaise rest := rfl

@[simp] theorem failWhen_true (c : FaultCode) (i : Word) : failWhen true c i = some ⟨c, i⟩ := rfl

@[simp] theorem failWhen_false (c : FaultCode) (i : Word) : failWhen false c i = none := rfl

theorem firstRaise_eq_none {checks : List (Option Raise)} :
    firstRaise checks = none ↔ ∀ c ∈ checks, c = none := by
  induction checks with
  | nil => simp
  | cons c rest ih => cases c <;> simp [ih]

theorem failWhen_eq_none {b : Bool} {c : FaultCode} {i : Word} :
    failWhen b c i = none ↔ b = false := by
  cases b <;> simp

/-- While `FAULT` = 1 a command is ignored (R207). -/
theorem runCommand_frozen {s : State} (h : s.status.fault = true) (w : Word)
    (checks : List (Option Raise)) (done : State) : runCommand w s checks done = .next s := by
  simp [runCommand, h]

/-- A command whose first failing check is `r` takes that fault (R206, R212). -/
theorem runCommand_fault {s : State} (h : s.status.fault = false) {w : Word}
    {checks : List (Option Raise)} {r : Raise} (hr : firstRaise checks = some r) (done : State) :
    runCommand w s checks done = .next (s.faultEntry r w) := by
  simp [runCommand, h, hr]

/-- A command whose checks all pass completes. -/
theorem runCommand_done {s : State} (h : s.status.fault = false) {w : Word}
    {checks : List (Option Raise)} (hr : firstRaise checks = none) (done : State) :
    runCommand w s checks done = .next done := by
  simp [runCommand, h, hr]

/-- Everything a command can do. -/
theorem runCommand_cases {w : Word} {s t : State} {checks : List (Option Raise)} {done : State}
    (h : runCommand w s checks done = .next t) :
    (s.status.fault = true ∧ t = s) ∨
    (s.status.fault = false ∧ ∃ r, firstRaise checks = some r ∧ t = s.faultEntry r w) ∨
    (s.status.fault = false ∧ firstRaise checks = none ∧ t = done) := by
  cases hf : s.status.fault with
  | true =>
    rw [runCommand_frozen hf] at h
    exact .inl ⟨rfl, (Host.Outcome.next.inj h).symm⟩
  | false =>
    cases hr : firstRaise checks with
    | some r =>
      rw [runCommand_fault hf hr] at h
      exact .inr (.inl ⟨rfl, r, rfl, (Host.Outcome.next.inj h).symm⟩)
    | none =>
      rw [runCommand_done hf hr] at h
      exact .inr (.inr ⟨rfl, rfl, (Host.Outcome.next.inj h).symm⟩)

/-- A command never stops the model. -/
theorem runCommand_next (w : Word) (s : State) (checks : List (Option Raise)) (done : State) :
    ∃ t, runCommand w s checks done = .next t := by
  cases hf : s.status.fault with
  | true => exact ⟨s, runCommand_frozen hf w checks done⟩
  | false =>
    cases hr : firstRaise checks with
    | some r => exact ⟨_, runCommand_fault hf hr done⟩
    | none => exact ⟨_, runCommand_done hf hr done⟩

/-- The checks of each command, in order (R202). -/
def checksRun (i : Instr) (s : State) : List (Option Raise) :=
  match i with
  | .nop | .subb | .isubb | .shrow | .ishrow | .mixc | .imixc | .drop => []
  | .addrk rnd => [needKey s, roundInRange s rnd]
  | .kexp128 => [legalKlen 16]
  | .kexp192 => [legalKlen 24]
  | .kexp256 => [legalKlen 32]
  | .kexpOther klen => [legalKlen klen]
  | .encblk | .decblk | .setiv => [needKey s]
  | .encblkm off | .decblkm off => [needKey s, blockInBuf s off]
  | .ecbenc p => needKey s :: checkBuffer s ++ checkSelectedPad s p
  | .ecbdec => needKey s :: checkBuffer s
  | .cbcenc p => needKey s :: needIv s :: checkBuffer s ++ checkSelectedPad s p
  | .cbcdec => needKey s :: needIv s :: checkBuffer s
  | .pad => bufferInBuf s :: checkPad s
  | .unpad => [bufferInBuf s, bufferNonempty s, padByteInRange s, padFitsBuffer s]
  | .unpadchk => [bufferInBuf s, bufferNonempty s, padFitsBufferChecked s]

/-- The effect of each command when its checks pass. -/
def effectOf (i : Instr) (s : State) : State :=
  match i with
  | .nop => s.complete .ok
  | .subb => { s with state := subBytes s.state }.complete .ok
  | .isubb => { s with state := invSubBytes s.state }.complete .ok
  | .shrow => { s with state := shiftRows s.state }.complete .ok
  | .ishrow => { s with state := invShiftRows s.state }.complete .ok
  | .mixc => { s with state := mixColumns s.state }.complete .ok
  | .imixc => { s with state := invMixColumns s.state }.complete .ok
  | .addrk rnd => { s with state := addRoundKey s.state (roundKey s.rk rnd.toNat) }.complete .ok
  | .kexp128 => s.constructInstance .k128
  | .kexp192 => s.constructInstance .k192
  | .kexp256 => s.constructInstance .k256
  | .kexpOther klen => (KeySize.ofKlen klen.toNat).elim s s.constructInstance
  | .drop =>
    { s with
      rk     := Vector.replicate 60 0
      iv     := zeroBlock
      state  := zeroBlock
      status := { s.status with kvalid := false, ivvalid := false, ksz := .k128 } }.complete .ok
  | .encblk => { s with state := s.encrypt s.state }.complete .ok
  | .decblk => { s with state := s.decrypt s.state }.complete .ok
  | .encblkm off => (s.processBlock s.encrypt off.toNat).complete .ok
  | .decblkm off => (s.processBlock s.decrypt off.toNat).complete .ok
  | .ecbenc p => (ecbLoop s.encrypt s.blocks 0 (s.applyPad p)).complete .ok
  | .ecbdec => (ecbLoop s.decrypt s.blocks 0 s).complete .ok
  | .setiv => { s with iv := s.ivin, status := { s.status with ivvalid := true } }.complete .ok
  | .cbcenc p => (cbcEncLoop s.encrypt s.blocks 0 s.iv (s.applyPad p)).complete .ok
  | .cbcdec => (cbcDecLoop s.decrypt s.blocks 0 s.iv s).complete .ok
  | .pad => s.padFill.complete .ok
  | .unpad => { s with outlen := s.unpaddedLength }.complete .ok
  | .unpadchk => { s with outlen := s.checkedLength }.complete s.unpadVerdict

/-- Every command is its checks, then its effect: the one form that the proofs about all commands use. -/
theorem exec_eq (i : Instr) (s : State) :
    exec i s = runCommand (encode i) s (checksRun i s) (effectOf i s) := by
  cases i <;> rfl

/-- Every command answers a next state (R50: it unconditionally terminates). -/
theorem exec_next (i : Instr) (s : State) : ∃ t, exec i s = .next t := by
  rw [exec_eq]
  exact runCommand_next _ _ _ _

/-- Everything a command can do to the state. -/
theorem exec_cases {i : Instr} {s t : State} (h : exec i s = .next t) :
    (s.status.fault = true ∧ t = s) ∨
    (s.status.fault = false ∧ ∃ r, firstRaise (checksRun i s) = some r ∧ t = s.faultEntry r (encode i)) ∨
    (s.status.fault = false ∧ firstRaise (checksRun i s) = none ∧ t = effectOf i s) := by
  rw [exec_eq] at h
  exact runCommand_cases h

theorem exec_done {i : Instr} {s : State} (h : s.status.fault = false)
    (hr : firstRaise (checksRun i s) = none) : exec i s = .next (effectOf i s) := by
  rw [exec_eq, runCommand_done h hr]

end Sys2Proof.Machine
end

