-- ==== Sys2Proof/Laws/Loops.lean ====
section
/-! SUPPORT. The block loops of the mode controllers: one lemma per loop that says everything the loop does
(spec 44_ecb.md R151, R152; 45_cbc.md R162, R163). -/

namespace Sys2Proof.Machine

/-- `t` differs from `s` in the buffer memory and in `STATE` only. -/
def MemStateOnly (s t : State) : Prop := t = { s with mem := t.mem, state := t.state }

theorem MemStateOnly.refl (s : State) : MemStateOnly s s := rfl

theorem MemStateOnly.trans {s t u : State} (h : MemStateOnly s t) (k : MemStateOnly t u) :
    MemStateOnly s u := by
  unfold MemStateOnly at *
  rw [k, h]

theorem processBlock_memStateOnly (s : State) (f : Block → Block) (a : Nat) :
    MemStateOnly s (s.processBlock f a) := rfl

/-- A property of the buffer memory that storing one byte below `n` keeps. -/
def StoreKeeps (n : Nat) (P : Memory → Prop) : Prop := ∀ m a v, a < n → P m → P (m.store a v)

theorem StoreKeeps.storeBytes {n : Nat} {P : Memory → Prop} (h : StoreKeeps n P) {m : Memory} {a : Nat}
    {v : List Byte} (ha : a + v.length ≤ n) (hm : P m) : P (m.storeBytes a v) := by
  induction v generalizing m a with
  | nil => exact hm
  | cons x xs ih =>
    simp only [List.length_cons] at ha
    exact ih (by omega) (h m a x (by omega) hm)

theorem storeKeeps_wf (n : Nat) : StoreKeeps n (fun m => m.wf = true) :=
  fun _ a v _ hm => Memory.store_wf hm a v

theorem storeKeeps_within (n : Nat) : StoreKeeps n (fun m => m.within n = true) :=
  fun _ _ v ha hm => Memory.store_within hm ha v

/-! ### ECB -/

/-- Everything `ecbLoop` does: each block of the range becomes its image, every other byte stays, `STATE` holds the
last image. -/
theorem ecbLoop_spec (f : Block → Block) (n i : Nat) (s : State) :
    MemStateOnly s (ecbLoop f n i s) ∧
    (∀ k, i ≤ k → k < i + n → (ecbLoop f n i s).loadBlock (16 * k) = f (s.loadBlock (16 * k))) ∧
    (∀ b, b < 16 * i ∨ 16 * (i + n) ≤ b → (ecbLoop f n i s).bufByte b = s.bufByte b) ∧
    (ecbLoop f n i s).state = if n = 0 then s.state else f (s.loadBlock (16 * (i + n - 1))) := by
  induction n generalizing i s with
  | zero =>
    refine ⟨MemStateOnly.refl s, fun k h1 h2 => by omega, fun b _ => rfl, by simp [ecbLoop]⟩
  | succ n ih =>
    obtain ⟨hf, hb, ho, hs⟩ := ih (i + 1) (s.processBlock f (16 * i))
    have hload : ∀ b, b + 16 ≤ 16 * i ∨ 16 * i + 16 ≤ b →
        (s.processBlock f (16 * i)).loadBlock b = s.loadBlock b := by
      intro b h
      rw [State.loadBlock_processBlock, State.loadBlock_storeBlock_of_disjoint h]
    simp only [ecbLoop]
    refine ⟨(processBlock_memStateOnly s f _).trans hf, fun k h1 h2 => ?_, fun b h => ?_, ?_⟩
    · rcases Nat.eq_or_lt_of_le h1 with rfl | h3
      · rw [State.loadBlock_congr (s := s.processBlock f (16 * i)) fun j hj => ho _ (by omega),
          State.loadBlock_processBlock, State.loadBlock_storeBlock_same]
      · rw [hb k h3 (by omega), hload _ (by omega)]
    · rw [ho b (by omega), State.bufByte_processBlock,
        State.bufByte_storeBlock_of_outside (by omega)]
    · rw [hs]
      cases n with
      | zero => simp
      | succ n =>
        rw [if_neg (by omega), if_neg (by omega), hload _ (by omega)]
        congr 3
        omega

theorem ecbLoop_mem {N : Nat} {P : Memory → Prop} (hP : StoreKeeps N P) (f : Block → Block) (n i : Nat)
    (s : State) (hN : 16 * (i + n) ≤ N) (h : P s.mem) : P (ecbLoop f n i s).mem := by
  induction n generalizing i s with
  | zero => exact h
  | succ n ih =>
    refine ih (i + 1) _ (by omega) ?_
    rw [State.processBlock_mem]
    exact hP.storeBytes (by rw [length_wordsToBlock]; omega) h

/-! ### CBC encryption -/

/-- Everything `cbcEncLoop` does: block `k` becomes the image of itself XOR the new block before it (the starting
value for the first), every other byte stays, `STATE` holds the last new block. -/
theorem cbcEncLoop_spec (f : Block → Block) (n i : Nat) (prev : Block) (s : State) :
    MemStateOnly s (cbcEncLoop f n i prev s) ∧
    (∀ k, i ≤ k → k < i + n → (cbcEncLoop f n i prev s).loadBlock (16 * k) =
      f (xorBlock (s.loadBlock (16 * k))
        (if k = i then prev else (cbcEncLoop f n i prev s).loadBlock (16 * (k - 1))))) ∧
    (∀ b, b < 16 * i ∨ 16 * (i + n) ≤ b → (cbcEncLoop f n i prev s).bufByte b = s.bufByte b) ∧
    (cbcEncLoop f n i prev s).state =
      if n = 0 then s.state else (cbcEncLoop f n i prev s).loadBlock (16 * (i + n - 1)) := by
  induction n generalizing i prev s with
  | zero =>
    refine ⟨MemStateOnly.refl s, fun k h1 h2 => by omega, fun b _ => rfl, by simp [cbcEncLoop]⟩
  | succ n ih =>
    obtain ⟨hf, hb, ho, hs⟩ := ih (i + 1) (f (xorBlock (s.loadBlock (16 * i)) prev))
      (s.processBlock (fun P => f (xorBlock P prev)) (16 * i))
    simp only [cbcEncLoop]
    generalize cbcEncLoop f n (i + 1) _ _ = t at hf hb ho hs ⊢
    have hload : ∀ b, b + 16 ≤ 16 * i ∨ 16 * i + 16 ≤ b →
        (s.processBlock (fun P => f (xorBlock P prev)) (16 * i)).loadBlock b = s.loadBlock b := by
      intro b h
      rw [State.loadBlock_processBlock, State.loadBlock_storeBlock_of_disjoint h]
    have hi : t.loadBlock (16 * i) = f (xorBlock (s.loadBlock (16 * i)) prev) := by
      rw [State.loadBlock_congr (t := t) fun j hj => ho _ (by omega), State.loadBlock_processBlock,
        State.loadBlock_storeBlock_same]
    refine ⟨(processBlock_memStateOnly s _ _).trans hf, fun k h1 h2 => ?_, fun b h => ?_, ?_⟩
    · rcases Nat.eq_or_lt_of_le h1 with rfl | h3
      · rw [if_pos rfl, hi]
      · rw [hb k h3 (by omega), hload _ (by omega), if_neg (by omega : ¬ k = i)]
        by_cases hk : k = i + 1
        · subst hk
          rw [if_pos rfl, Nat.add_sub_cancel, hi]
        · rw [if_neg hk]
    · rw [ho b (by omega), State.bufByte_processBlock, State.bufByte_storeBlock_of_outside (by omega)]
    · rw [hs]
      cases n with
      | zero => simp [hi]
      | succ n =>
        rw [if_neg (by omega), if_neg (by omega)]
        congr 2
        omega

theorem cbcEncLoop_mem {N : Nat} {P : Memory → Prop} (hP : StoreKeeps N P) (f : Block → Block) (n i : Nat)
    (prev : Block) (s : State) (hN : 16 * (i + n) ≤ N) (h : P s.mem) :
    P (cbcEncLoop f n i prev s).mem := by
  induction n generalizing i prev s with
  | zero => exact h
  | succ n ih =>
    refine ih (i + 1) _ _ (by omega) ?_
    rw [State.processBlock_mem]
    exact hP.storeBytes (by rw [length_wordsToBlock]; omega) h

/-! ### CBC decryption -/

/-- Everything `cbcDecLoop` does: block `k` becomes its image XOR the old block before it (the starting value for
the first), every other byte stays, `STATE` holds the image of the last block. -/
theorem cbcDecLoop_spec (f : Block → Block) (n i : Nat) (prev : Block) (s : State) :
    MemStateOnly s (cbcDecLoop f n i prev s) ∧
    (∀ k, i ≤ k → k < i + n → (cbcDecLoop f n i prev s).loadBlock (16 * k) =
      xorBlock (f (s.loadBlock (16 * k))) (if k = i then prev else s.loadBlock (16 * (k - 1)))) ∧
    (∀ b, b < 16 * i ∨ 16 * (i + n) ≤ b → (cbcDecLoop f n i prev s).bufByte b = s.bufByte b) ∧
    (cbcDecLoop f n i prev s).state =
      if n = 0 then s.state else f (s.loadBlock (16 * (i + n - 1))) := by
  induction n generalizing i prev s with
  | zero =>
    refine ⟨MemStateOnly.refl s, fun k h1 h2 => by omega, fun b _ => rfl, by simp [cbcDecLoop]⟩
  | succ n ih =>
    simp only [cbcDecLoop]
    generalize hu : ({ s with
        mem   := (s.storeBlock (16 * i) (xorBlock (f (s.loadBlock (16 * i))) prev)).mem
        state := f (s.loadBlock (16 * i)) } : State) = u
    have hbuf : u.bufByte = (s.storeBlock (16 * i) (xorBlock (f (s.loadBlock (16 * i))) prev)).bufByte := by
      subst hu
      exact State.bufByte_of_mem rfl rfl
    have hus : MemStateOnly s u := by
      subst hu
      rfl
    have hst : u.state = f (s.loadBlock (16 * i)) := by
      subst hu
      rfl
    obtain ⟨hf, hb, ho, hs⟩ := ih (i + 1) (s.loadBlock (16 * i)) u
    have hload : ∀ b, b + 16 ≤ 16 * i ∨ 16 * i + 16 ≤ b → u.loadBlock b = s.loadBlock b := by
      intro b h
      rw [State.loadBlock_of_bufByte hbuf, State.loadBlock_storeBlock_of_disjoint h]
    refine ⟨hus.trans hf, fun k h1 h2 => ?_, fun b h => ?_, ?_⟩
    · rcases Nat.eq_or_lt_of_le h1 with rfl | h3
      · rw [State.loadBlock_congr (s := u) fun j hj => ho _ (by omega),
          State.loadBlock_of_bufByte hbuf, State.loadBlock_storeBlock_same, if_pos rfl]
      · rw [hb k h3 (by omega), hload _ (by omega), if_neg (by omega : ¬ k = i)]
        by_cases hk : k = i + 1
        · subst hk
          rw [if_pos rfl, Nat.add_sub_cancel]
        · rw [if_neg hk, hload _ (by omega)]
    · rw [ho b (by omega), hbuf, State.bufByte_storeBlock_of_outside (by omega)]
    · rw [hs]
      cases n with
      | zero => simp [hst]
      | succ n =>
        rw [if_neg (by omega), if_neg (by omega), hload _ (by omega)]
        congr 3
        omega

theorem cbcDecLoop_mem {N : Nat} {P : Memory → Prop} (hP : StoreKeeps N P) (f : Block → Block) (n i : Nat)
    (prev : Block) (s : State) (hN : 16 * (i + n) ≤ N) (h : P s.mem) :
    P (cbcDecLoop f n i prev s).mem := by
  induction n generalizing i prev s with
  | zero => exact h
  | succ n ih =>
    exact ih (i + 1) _ _ (by omega) (hP.storeBytes (by rw [length_wordsToBlock]; omega) h)

/-! ### The padding fill -/

/-- Everything `PadFill` does to the buffer (R175). -/
theorem State.bufByte_padFill (s : State) (b : Nat) :
    s.padFill.bufByte b =
      if s.mlen.toNat ≤ b ∧ b < s.mlen.toNat + s.padLength then BitVec.ofNat 8 s.padLength
      else s.bufByte b := by
  rw [State.padFill, State.bufByte_memWrite, List.length_replicate]
  split
  · rw [List.getD_eq_getElem _ _ (by rw [List.length_replicate]; omega), List.getElem_replicate]
  · rfl

end Sys2Proof.Machine
end

