-- ==== Sys2Proof/Laws/Checks.lean ====
section
/-! SUPPORT. The checks that each command makes are the rows of 60_exceptions.md R202, in order, with the numbers of
R201; and no command writes the fault registers except by a fault (10_state.md R24). -/

namespace Sys2Proof.Machine

/-- A fault as the host sees it: `FCODE` and `FINFO`. -/
def reported : Option Raise → Option (Word × Word)
  | none => none
  | some r => some (r.code.number, r.info)

theorem reported_failWhen (b : Bool) (c : FaultCode) (i : Word) (rest : List (Option Raise)) :
    reported (firstRaise (failWhen b c i :: rest)) =
      if b then some (c.number, i) else reported (firstRaise rest) := by
  cases b <;> rfl

theorem firstFailing_cons (b : Bool) (c i : Word) (rest : List (Bool × Word × Word)) :
    firstFailing ((b, c, i) :: rest) = if b then some (c, i) else firstFailing rest := rfl

/-- A subtraction that does not go below zero is exact on words (R8, R88). -/
theorem ofNat_sub {b m : Word} (h : m.toNat ≤ b.toNat) : BitVec.ofNat 32 (b.toNat - m.toNat) = b - m := by
  apply BitVec.eq_of_toNat_eq
  rw [BitVec.toNat_sub, BitVec.toNat_ofNat]
  have := b.isLt
  have := m.isLt
  omega

theorem toNat_eq_zero_iff {n : Nat} (v : BitVec n) : v.toNat = 0 ↔ v = 0 :=
  ⟨fun h => BitVec.eq_of_toNat_eq h, fun h => by rw [h]; rfl⟩

theorem reported_checkPad (s : State) : reported (firstRaise (checkPad s)) = firstFailing (padChecks s) := by
  simp only [checkPad, padChecks, reported_failWhen, firstFailing_cons, State.padLength]
  by_cases h : s.mlen.toNat > s.buflen.toNat
  · simp [h, FaultCode.number]
  · simp [h, ofNat_sub (Nat.le_of_not_lt h), FaultCode.number, reported, firstFailing]

theorem padFitsBufferChecked_eq (s : State) :
    padFitsBufferChecked s =
      failWhen (decide (1 ≤ s.padByte.toNat ∧ s.padByte.toNat ≤ 16)
        && decide (s.buflen.toNat < s.padByte.toNat)) .padExceedsBuffer (s.padByte.setWidth 32) := by
  have hz := toNat_eq_zero_iff s.padByte
  unfold padFitsBufferChecked padFitsBuffer
  by_cases h : 1 ≤ s.padByte.toNat ∧ s.padByte.toNat ≤ 16
  · rw [if_neg (by rw [← hz]; omega)]
    simp [h]
  · rw [if_pos (by rw [← hz]; omega)]
    simp [h]

theorem bufferNonempty_eq (s : State) :
    bufferNonempty s = failWhen (decide (s.buflen = 0)) .emptyBuffer 0 := by
  rw [bufferNonempty, decide_eq_decide.mpr (toNat_eq_zero_iff s.buflen)]

theorem legalKlen_eq (n : BitVec 8) :
    legalKlen n = failWhen (n != 16 && n != 24 && n != 32) .keySize (n.setWidth 32) := by
  have : ∀ k : BitVec 8, (KeySize.ofKlen k.toNat).isNone = (k != 16 && k != 24 && k != 32) := by
    decide +kernel
  rw [legalKlen, this]

/-- What the checks of a command report is what its row of R202 reports. -/
theorem reported_checksRun (i : Instr) (s : State) :
    reported (firstRaise (checksRun i s)) = firstFailing (checksOf i s) := by
  have hp := reported_checkPad s
  cases i with
  | ecbenc p =>
    cases p <;> simp [checksRun, checksOf, needKey, checkBuffer, bufferInBuf, bufferAligned, checkSelectedPad,
      selectedPadChecks, geometryChecks, reported_failWhen, firstFailing_cons, hp] <;> rfl
  | cbcenc p =>
    cases p <;> simp [checksRun, checksOf, needKey, needIv, checkBuffer, bufferInBuf, bufferAligned,
      checkSelectedPad, selectedPadChecks, geometryChecks, reported_failWhen, firstFailing_cons, hp] <;> rfl
  | unpadchk =>
    simp only [checksRun, checksOf, bufferInBuf, bufferNonempty_eq, padFitsBufferChecked_eq, reported_failWhen,
      firstFailing_cons]
    rfl
  | unpad =>
    simp only [checksRun, checksOf, bufferInBuf, bufferNonempty_eq, padByteInRange, unpadMax, padFitsBuffer,
      reported_failWhen, firstFailing_cons]
    rfl
  | pad =>
    simp [checksRun, checksOf, bufferInBuf, reported_failWhen, firstFailing_cons, hp]
    rfl
  | _ =>
    simp [checksRun, checksOf, legalKlen_eq, needKey, needIv, roundInRange, State.rounds, KeySize.nr, blockInBuf,
      checkBuffer, bufferInBuf, bufferAligned, geometryChecks, reported_failWhen, firstFailing_cons]
    rfl

/-- The effect of a command leaves `FAULT` and the fault registers alone (R24). -/
theorem effectOf_fault (i : Instr) (s : State) :
    (effectOf i s).status.fault = s.status.fault ∧ (effectOf i s).fcode = s.fcode ∧
      (effectOf i s).finfo = s.finfo ∧ (effectOf i s).fcmd = s.fcmd := by
  cases i with
  | kexpOther k => cases h : KeySize.ofKlen k.toNat <;> simp [effectOf, h, State.constructInstance]
  | ecbenc p =>
    have h := (ecbLoop_spec s.encrypt s.blocks 0 (s.applyPad p)).1
    simp only [effectOf, State.complete_status, State.complete_fcode, State.complete_finfo, State.complete_fcmd]
    rw [h]
    cases p <;> simp [State.applyPad]
  | ecbdec =>
    have h := (ecbLoop_spec s.decrypt s.blocks 0 s).1
    simp only [effectOf, State.complete_status, State.complete_fcode, State.complete_finfo, State.complete_fcmd]
    rw [h]
    simp
  | cbcenc p =>
    have h := (cbcEncLoop_spec s.encrypt s.blocks 0 s.iv (s.applyPad p)).1
    simp only [effectOf, State.complete_status, State.complete_fcode, State.complete_finfo, State.complete_fcmd]
    rw [h]
    cases p <;> simp [State.applyPad]
  | cbcdec =>
    have h := (cbcDecLoop_spec s.decrypt s.blocks 0 s.iv s).1
    simp only [effectOf, State.complete_status, State.complete_fcode, State.complete_finfo, State.complete_fcmd]
    rw [h]
    simp
  | _ => simp [effectOf, State.constructInstance]

/-- A command whose first failing check has code `c` and detail `i` latches them (R206). -/
theorem exec_faulted {i : Instr} {s : State} {code info : Word} (hs : s.Running)
    (h : firstFailing (checksOf i s) = some (code, info)) :
    exec i s = .next (s.faulted code info (encode i)) := by
  have hr := reported_checksRun i s
  rw [h] at hr
  cases hx : firstRaise (checksRun i s) with
  | none => simp [hx, reported] at hr
  | some r =>
    simp only [hx, reported, Option.some.injEq, Prod.mk.injEq] at hr
    rw [exec_eq, runCommand_fault hs hx, ← hr.1, ← hr.2]
    rfl

/-- A command none of whose checks fails has its effect. -/
theorem exec_completes {i : Instr} {s : State} (hs : s.Running)
    (h : firstFailing (checksOf i s) = none) : exec i s = .next (effectOf i s) := by
  have hr := reported_checksRun i s
  rw [h] at hr
  cases hx : firstRaise (checksRun i s) with
  | none => exact exec_done hs hx
  | some r => simp [hx, reported] at hr

/-- The checks of a command do not look at the host's side of the port. -/
theorem checksOf_port (i : Instr) (s : State) (pending : List Event) (resp : Response) :
    checksOf i { s with pending := pending, resp := resp } = checksOf i s := by
  cases i <;> rfl

/-- Everything a command can do, in the numbers the host reads. -/
theorem exec_outcomes {i : Instr} {s t : State} (h : exec i s = .next t) :
    (s.status.fault = true ∧ t = s) ∨
    (s.status.fault = false ∧ ∃ code info, firstFailing (checksOf i s) = some (code, info) ∧
      t = s.faulted code info (encode i)) ∨
    (s.status.fault = false ∧ firstFailing (checksOf i s) = none ∧ t = effectOf i s) := by
  cases hf : s.status.fault with
  | true =>
    rw [exec_eq, runCommand_frozen hf] at h
    exact .inl ⟨rfl, (Host.Outcome.next.inj h).symm⟩
  | false =>
    cases hc : firstFailing (checksOf i s) with
    | none =>
      rw [exec_completes hf hc] at h
      exact .inr (.inr ⟨rfl, rfl, (Host.Outcome.next.inj h).symm⟩)
    | some p =>
      rw [exec_faulted hf hc] at h
      exact .inr (.inl ⟨rfl, p.1, p.2, rfl, (Host.Outcome.next.inj h).symm⟩)

end Sys2Proof.Machine
end

