-- ==== Sys2Proof/Laws/Encoding.lean ====
section
/-! SUPPORT. The two fields of a command word, and the parts of its argument (spec 30_encoding.md R60, R61). -/

namespace Sys2Proof

theorem opField_wordOf (op : BitVec 8) (arg : BitVec 24) : opField (wordOf op arg) = op := by
  apply BitVec.eq_of_getLsbD_eq
  intro i hi
  rw [opField, BitVec.getLsbD_extractLsb', wordOf, BitVec.getLsbD_append]
  have h1 : ¬ 24 + i < 24 := by omega
  have h2 : 24 + i - 24 = i := by omega
  simp [hi, h1, h2]

theorem argField_wordOf (op : BitVec 8) (arg : BitVec 24) : argField (wordOf op arg) = arg := by
  apply BitVec.eq_of_getLsbD_eq
  intro i hi
  rw [argField, BitVec.getLsbD_extractLsb', wordOf, BitVec.getLsbD_append]
  simp [hi]

/-- A word is its opcode and its argument (R60). -/
theorem wordOf_fields (w : Word) : wordOf (opField w) (argField w) = w := by
  apply BitVec.eq_of_getLsbD_eq
  intro i hi
  rw [wordOf, BitVec.getLsbD_append]
  by_cases h : i < 24
  · simp [h, argField]
  · have h1 : i - 24 < 8 := by omega
    have h2 : 24 + (i - 24) = i := by omega
    simp [h, h1, h2, opField]

/-- A bit vector whose upper part is zero is its lower part, widened with zeros. -/
theorem eq_zero_append {n m k : Nat} (v : BitVec k) (hk : k = m + n) (hz : v.extractLsb' n m = 0#m) :
    v = (0#m ++ v.extractLsb' 0 n).cast hk.symm := by
  subst hk
  apply BitVec.eq_of_getLsbD_eq
  intro i hi
  rw [BitVec.getLsbD_cast, BitVec.getLsbD_append]
  by_cases h : i < n
  · simp [h]
  · have hb : (v.extractLsb' n m).getLsbD (i - n) = false := by
      rw [hz]
      simp
    rw [BitVec.getLsbD_extractLsb'] at hb
    have h1 : i - n < m := by omega
    have h2 : n + (i - n) = i := by omega
    rw [decide_eq_true h1, Bool.true_and, h2] at hb
    simp [h, hb]

end Sys2Proof
end

