-- ==== Sys2Proof/Laws/Modes.lean ====
section
/-! SUPPORT. The frame of the mode commands: their effect writes the buffer memory, `STATE` and `RESULT`, and nothing
else (spec 44_ecb.md R151, R152; 45_cbc.md R162, R163). And `KEXP` as it stands in the dispatch. -/

namespace Sys2Proof.Machine

theorem State.applyPad_frame (s : State) (p : PadSelect) :
    s.applyPad p = { s with mem := (s.applyPad p).mem } := by
  cases p <;> rfl

theorem effectOf_ecbenc_frame (s : State) (p : PadSelect) :
    effectOf (.ecbenc p) s = { s with
      mem := (effectOf (.ecbenc p) s).mem, state := (effectOf (.ecbenc p) s).state, result := 0 } := by
  have h := (ecbLoop_spec s.encrypt s.blocks 0 (s.applyPad p)).1
  simp only [effectOf]
  rw [h, State.applyPad_frame]
  rfl

theorem effectOf_ecbdec_frame (s : State) :
    effectOf .ecbdec s = { s with
      mem := (effectOf .ecbdec s).mem, state := (effectOf .ecbdec s).state, result := 0 } := by
  have h := (ecbLoop_spec s.decrypt s.blocks 0 s).1
  simp only [effectOf]
  rw [h]
  rfl

theorem effectOf_cbcenc_frame (s : State) (p : PadSelect) :
    effectOf (.cbcenc p) s = { s with
      mem := (effectOf (.cbcenc p) s).mem, state := (effectOf (.cbcenc p) s).state, result := 0 } := by
  have h := (cbcEncLoop_spec s.encrypt s.blocks 0 s.iv (s.applyPad p)).1
  simp only [effectOf]
  rw [h, State.applyPad_frame]
  rfl

theorem effectOf_cbcdec_frame (s : State) :
    effectOf .cbcdec s = { s with
      mem := (effectOf .cbcdec s).mem, state := (effectOf .cbcdec s).state, result := 0 } := by
  have h := (cbcDecLoop_spec s.decrypt s.blocks 0 s.iv s).1
  simp only [effectOf]
  rw [h]
  rfl

/-- The catch-all `KEXP` term constructs an instance for a legal length (such a term has no word of its own). -/
theorem effectOf_kexpOther (n : BitVec 8) (s : State) :
    effectOf (.kexpOther n) s = s ∨
      ∃ k : KeySize, n = BitVec.ofNat 8 (4 * k.nk) ∧ effectOf (.kexpOther n) s = s.constructInstance k := by
  have h : ∀ n : BitVec 8, KeySize.ofKlen n.toNat = none ∨
      (KeySize.ofKlen n.toNat = some .k128 ∧ n = 16#8) ∨ (KeySize.ofKlen n.toNat = some .k192 ∧ n = 24#8) ∨
      (KeySize.ofKlen n.toNat = some .k256 ∧ n = 32#8) := by
    decide +kernel
  simp only [effectOf]
  rcases h n with h | ⟨h, e⟩ | ⟨h, e⟩ | ⟨h, e⟩ <;> rw [h]
  · exact .inl rfl
  · exact .inr ⟨.k128, e, rfl⟩
  · exact .inr ⟨.k192, e, rfl⟩
  · exact .inr ⟨.k256, e, rfl⟩

end Sys2Proof.Machine
end

