-- ==== Sys2Proof/Laws/PerInstr.lean ====
section
/-! SUPPORT. Statements made per command: the encoding of a command selects the row of the opcode table that stands
for it (spec 30_encoding.md R66). -/

namespace Sys2Proof.Laws.EncodingRow

/-- The word of `i` selects the row of `i`. -/
def Statement (i : Instr) : Prop := (rowOf i).selects (encode i)

theorem nop : Statement .nop := rfl
theorem subb : Statement .subb := rfl
theorem isubb : Statement .isubb := rfl
theorem shrow : Statement .shrow := rfl
theorem ishrow : Statement .ishrow := rfl
theorem mixc : Statement .mixc := rfl
theorem imixc : Statement .imixc := rfl
theorem kexp128 : Statement .kexp128 := rfl
theorem kexp192 : Statement .kexp192 := rfl
theorem kexp256 : Statement .kexp256 := rfl
theorem drop : Statement .drop := rfl
theorem encblk : Statement .encblk := rfl
theorem decblk : Statement .decblk := rfl
theorem ecbdec : Statement .ecbdec := rfl
theorem setiv : Statement .setiv := rfl
theorem cbcdec : Statement .cbcdec := rfl
theorem pad : Statement .pad := rfl
theorem unpad : Statement .unpad := rfl
theorem unpadchk : Statement .unpadchk := rfl

theorem addrk (rnd : BitVec 4) : Statement (.addrk rnd) := by
  revert rnd
  unfold Statement; decide

theorem kexpOther (klen : BitVec 8) : Statement (.kexpOther klen) := by
  revert klen
  unfold Statement; decide +kernel

theorem ecbenc (p : PadSelect) : Statement (.ecbenc p) := by
  cases p <;> rfl

theorem cbcenc (p : PadSelect) : Statement (.cbcenc p) := by
  cases p <;> rfl

/-- A row whose mask is the opcode field keeps the opcode and drops the argument. -/
theorem mask_opcode (op : BitVec 8) (arg : BitVec 24) :
    wordOf op arg &&& 0xFF000000#32 = op ++ 0#24 := by
  have low : ∀ j, j < 24 → (0xFF000000#32).getLsbD j = false := by decide
  have high : ∀ j, j < 32 → ¬ j < 24 → (0xFF000000#32).getLsbD j = true := by decide
  apply BitVec.eq_of_getLsbD_eq
  intro i hi
  simp only [wordOf, BitVec.getLsbD_and, BitVec.getLsbD_append]
  split
  · simp [low i ‹_›]
  · simp [high i hi ‹_›]

theorem encblkm (off : BitVec 24) : Statement (.encblkm off) := mask_opcode 0x32 off

theorem decblkm (off : BitVec 24) : Statement (.decblkm off) := mask_opcode 0x33 off

end Sys2Proof.Laws.EncodingRow
end

