-- ==== Sys2Proof/Tests/Slice0.lean ====
section
/-! SUPPORT. Tests: well-formedness, decoding of words written out from the spec, single steps with the expected
results of the spec's examples and vectors (95_test_vectors.md), and for every obligation with hypotheses a witness
that meets them. -/

open Sys2Proof Sys2Proof.Machine

namespace Sys2Proof.Tests

set_option Elab.async false

/-! ### Well-formedness: the catch-all `KEXP` row yields to the three legal lengths (R66) -/

theorem test_illformed_kexp_16 : (Instr.kexpOther 16).wellFormed = false := by decide
theorem test_illformed_kexp_24 : (Instr.kexpOther 24).wellFormed = false := by decide
theorem test_illformed_kexp_32 : (Instr.kexpOther 32).wellFormed = false := by decide

/-! ### Decoding, every constructor, words written out from R61 and R65 -/

theorem test_decode_system_and_rounds :
    decode 0x00000000 = .ok .nop ∧ decode 0x10000000 = .ok .subb ∧ decode 0x11000000 = .ok .isubb ∧
    decode 0x12000000 = .ok .shrow ∧ decode 0x13000000 = .ok .ishrow ∧ decode 0x14000000 = .ok .mixc ∧
    decode 0x15000000 = .ok .imixc ∧ decode 0x1600000F = .ok (.addrk 15) := by decide

theorem test_decode_key_and_block :
    decode 0x20000010 = .ok .kexp128 ∧ decode 0x20000018 = .ok .kexp192 ∧ decode 0x20000020 = .ok .kexp256 ∧
    decode 0x200000FF = .ok (.kexpOther 255) ∧ decode 0x21000000 = .ok .drop ∧ decode 0x30000000 = .ok .encblk ∧
    decode 0x31000000 = .ok .decblk ∧ decode 0x32000FF0 = .ok (.encblkm 4080) ∧
    decode 0x33000005 = .ok (.decblkm 5) := by decide

theorem test_decode_modes_and_padding :
    decode 0x40000000 = .ok (.ecbenc .noPad) ∧ decode 0x40000001 = .ok (.ecbenc .pkcs7) ∧
    decode 0x41000000 = .ok .ecbdec ∧ decode 0x50000000 = .ok .setiv ∧ decode 0x51000001 = .ok (.cbcenc .pkcs7) ∧
    decode 0x52000000 = .ok .cbcdec ∧ decode 0x60000000 = .ok .pad ∧ decode 0x61000000 = .ok .unpad ∧
    decode 0x62000000 = .ok .unpadchk := by decide

/-- The illegal words of V50 and V16h. -/
theorem test_decode_rejects :
    decode 0x70000000 = .error (.unassignedOpcode 0x70) ∧ decode 0xFFFFFFFF = .error (.unassignedOpcode 0xFF) ∧
    decode 0x10000001 = .error (.mustBeZero 0x10 1) ∧ decode 0x40000002 = .error (.mustBeZero 0x40 2) ∧
    decode 0x16000010 = .error (.mustBeZero 0x16 0x10) ∧ decode 0x20000110 = .error (.mustBeZero 0x20 0x110) := by
  decide

theorem test_table_words : decodeTableWord 32 0x16000003 = some (.addrk 3) ∧ decodeTableWord 32 0x00000001 = none := by
  decide

/-! ### States to start from -/

/-- The state a command leaves. -/
def after (i : Instr) (s : State) : State :=
  match exec i s with
  | .next t => t
  | .fault _ => s
  | .refused _ => s

theorem exec_after (i : Instr) (s : State) : exec i s = .next (after i s) := by
  obtain ⟨t, h⟩ := exec_next i s
  simp [after, h]

/-- The key of X1, V21 and V22. -/
def keyed (k : KeySize) : State :=
  { State.reset with key := #v[0x00010203, 0x04050607, 0x08090a0b, 0x0c0d0e0f, 0x10111213, 0x14151617, 0x18191a1b,
      0x1c1d1e1f] }.constructInstance k

/-- The plaintext block of X1. -/
def plain : Block := ⟨0x00112233, 0x44556677, 0x8899aabb, 0xccddeeff⟩

/-- The ciphertext block of X1. -/
def secret : Block := ⟨0x69c4e0d8, 0x6a7b0430, 0xd8cdb780, 0x70b4c55a⟩

/-- Put a block at buffer address `a`. -/
def put (a : Nat) (B : Block) (s : State) : State := s.storeBlock a B

/-- A CBC instance with IV 0, and two equal blocks in the buffer (V30, V33). -/
def chained : State :=
  put 16 plain (put 0 plain { keyed .k128 with status := ⟨false, true, true, .k128⟩, buflen := 32, mlen := 20 })

/-- `ICE ICE BABY` and four more bytes, in a one-block buffer (V42). -/
def ice (last : Word) : State :=
  put 0 ⟨0x49434520, 0x49434520, 0x42414259, last⟩ { State.reset with buflen := 16, mlen := 12 }

/-! ### Single steps -/

theorem test_nop : after .nop { State.reset with result := 2 } = State.reset := by decide
theorem test_subb : (after .subb { State.reset with state := ⟨0x00010203, 0x04050607, 0x08090a0b, 0x0c0d0e0f⟩ }).state
    = ⟨0x637c777b, 0xf26b6fc5, 0x3001672b, 0xfed7ab76⟩ := by decide +kernel
theorem test_isubb : (after .isubb { State.reset with state := ⟨0x63cab704, 0x0953d051, 0xcd60e0e7, 0xba70e18c⟩ }).state
    = ⟨0x00102030, 0x40506070, 0x8090a0b0, 0xc0d0e0f0⟩ := by decide +kernel
theorem test_shrow : (after .shrow { State.reset with state := ⟨0xaabbccdd, 0, 0, 0⟩ }).state
    = ⟨0xaa000000, 0x000000dd, 0x0000cc00, 0x00bb0000⟩ := by decide +kernel
theorem test_ishrow : (after .ishrow { State.reset with state := ⟨0xaabbccdd, 0, 0, 0⟩ }).state
    = ⟨0xaa000000, 0x00bb0000, 0x0000cc00, 0x000000dd⟩ := by decide +kernel
theorem test_mixc : (after .mixc { State.reset with state := ⟨0xd4bf5d30, 0xe0b452ae, 0xb84111f1, 0x1e2798e5⟩ }).state
    = ⟨0x046681e5, 0xe0cb199a, 0x48f8d37a, 0x2806264c⟩ := by decide +kernel
theorem test_imixc : (after .imixc { State.reset with state := ⟨0x00010203, 0x04050607, 0x08090a0b, 0x0c0d0e0f⟩ }).state
    = ⟨0x0a0f080d, 0x0e0b0c09, 0x02070005, 0x06030401⟩ := by decide +kernel
/-- V16 c. -/
theorem test_addrk : (after (.addrk 10) (keyed .k128)).state = ⟨0x13111d7f, 0xe3944a17, 0xf307a78b, 0x4d2b30c5⟩ := by
  decide +kernel
/-- V16 g. -/
theorem test_addrk_fault : after (.addrk 15) (keyed .k256) = (keyed .k256).faulted 12 15 0x1600000F := by
  decide +kernel
/-- V20. -/
theorem test_kexp128 : (keyed .k128).rk.toList.drop 40
    = [0x13111d7f, 0xe3944a17, 0xf307a78b, 0x4d2b30c5] ++ List.replicate 16 0 := by decide +kernel
/-- V21. -/
theorem test_kexp192 : (after .kexp192 (keyed .k128)).rk.toList.drop 48
    = [0xa4970a33, 0x1a78dc09, 0xc418c271, 0xe3a41d5d] ++ List.replicate 8 0 := by decide +kernel
/-- V22. -/
theorem test_kexp256 : (after .kexp256 chained).rk.toList.drop 56
    = [0x24fc79cc, 0xbf0979e9, 0x371ac23c, 0x6d68de36] ∧ (after .kexp256 chained).status.toWord = 0x12 := by
  decide +kernel
/-- V24. -/
theorem test_kexp_other : after (.kexpOther 20) State.reset = State.reset.faulted 2 0x14 0x20000014 := by
  decide +kernel
/-- V24. -/
theorem test_drop : (after .drop (keyed .k256)).rk = Vector.replicate 60 0 ∧
    (after .drop (keyed .k256)).key[0] = 0x00010203 := by decide +kernel
/-- X1. -/
theorem test_encblk : (after .encblk { keyed .k128 with state := plain }).state = secret := by decide +kernel
/-- V4. -/
theorem test_encblk_256 : (after .encblk { keyed .k256 with state := plain }).state
    = ⟨0x8ea2b7ca, 0x516745bf, 0xeafc4990, 0x4b496089⟩ := by decide +kernel
/-- X1. -/
theorem test_decblk : (after .decblk { keyed .k128 with state := secret }).state = plain := by decide +kernel
/-- V26. -/
theorem test_encblkm : (after (.encblkm 5) (put 5 plain (keyed .k128))).memRead 5 16 = wordsToBlock secret := by
  decide +kernel
/-- V26. -/
theorem test_encblkm_range : after (.encblkm 4081) (keyed .k128) = (keyed .k128).faulted 5 0xff1 0x32000ff1 := by
  decide +kernel
/-- V26. -/
theorem test_decblkm : (after (.decblkm 5) (put 5 secret (keyed .k128))).memRead 5 16 = wordsToBlock plain := by
  decide +kernel
/-- V30. -/
theorem test_ecbenc : (after (.ecbenc .noPad) chained).memRead 0 32 = wordsToBlock secret ++ wordsToBlock secret := by
  decide +kernel
/-- V51. -/
theorem test_ecbenc_order : after (.ecbenc .pkcs7) { keyed .k128 with buflen := 20, mlen := 30 }
    = { keyed .k128 with buflen := 20, mlen := 30 }.faulted 6 20 0x40000001 := by decide +kernel
/-- V30, backwards. -/
theorem test_ecbdec : (after .ecbdec (put 16 secret (put 0 secret chained))).memRead 0 32
    = wordsToBlock plain ++ wordsToBlock plain := by decide +kernel
/-- The example of R161. -/
theorem test_setiv : (after .setiv { keyed .k128 with ivin := plain }).iv = plain ∧
    (after .setiv (keyed .k128)).status.toWord = 6 := by decide +kernel
/-- V33. -/
theorem test_cbcenc : (after (.cbcenc .noPad) chained).loadBlock 16 = ⟨0x7d7786be, 0x32d059a6, 0x0ca8021a, 0x65dd9f09⟩ := by
  decide +kernel
/-- V3A. -/
theorem test_cbcenc_fault : after (.cbcenc .noPad) (keyed .k128) = (keyed .k128).faulted 4 0 0x51000000 := by
  decide +kernel
/-- The example of R163. -/
theorem test_cbcdec :
    let t := after .cbcdec (put 16 ⟨0x7d7786be, 0x32d059a6, 0x0ca8021a, 0x65dd9f09⟩ (put 0 secret chained))
    t.loadBlock 0 = plain ∧ t.loadBlock 16 = plain ∧ t.state = ⟨0x69d5c2eb, 0x2e2e6247, 0x50541d3b, 0xbc692ba5⟩ := by
  decide +kernel
/-- The example of R176. -/
theorem test_pad : (after .pad (ice 0xaaaaaaaa)).loadBlock 0 = ⟨0x49434520, 0x49434520, 0x42414259, 0x04040404⟩ := by
  decide +kernel
/-- V43. -/
theorem test_pad_range : after .pad { State.reset with buflen := 512, mlen := 256 }
    = { State.reset with buflen := 512, mlen := 256 }.faulted 8 0x100 0x60000000 := by decide +kernel
/-- V42. -/
theorem test_unpad : (after .unpad (ice 0x04040400)).outlen = 16 ∧ (after .unpad (ice 0x01020304)).outlen = 12 := by
  decide +kernel
/-- V42. -/
theorem test_unpad_range : after .unpad (ice 0x04040411) = (ice 0x04040411).faulted 10 0x11 0x61000000 := by
  decide +kernel
/-- X2, X3, X4. -/
theorem test_unpadchk : (after .unpadchk (ice 0x04040404)).outlen = 12 ∧ (after .unpadchk (ice 0x05050505)).result = 2 ∧
    (after .unpadchk (ice 0x01020304)).result = 2 := by decide +kernel
/-- V43. -/
theorem test_unpadchk_exceeds : after .unpadchk { ice 0x04040404 with buflen := 3, mem := [(0, 7), (1, 7), (2, 9)] }
    = { ice 0x04040404 with buflen := 3, mem := [(0, 7), (1, 7), (2, 9)] }.faulted 11 9 0x62000000 := by
  decide +kernel

/-! ### The assembler -/

/-- A line of each kind that V52 and P1 use, with a comment; the words are the ones printed there. -/
theorem test_assemble :
    assemble "KEXP 16 ; WR CMD, 0x20000010\nRD STATUS -> 0x00000002\nWRB 15, 0x11\n\nECBENC PKCS7".toList
      = some [.wr 0 0x20000010, .rd 4, .wrb 0x100F 0x11, .wr 0 0x40000001] := by decide +kernel

/-- `CBC.NEW` stages the vector and issues `SETIV` (R70). -/
theorem test_assemble_pseudo :
    assemble "CBC.NEW 000102030405060708090a0b0c0d0e0f".toList
      = some [.wr 0x60 0x00010203, .wr 0x64 0x04050607, .wr 0x68 0x08090a0b, .wr 0x6C 0x0c0d0e0f, .wr 0 0x50000000] := by
  decide +kernel

/-- Operands outside the ranges of R69 are refused. -/
theorem test_assemble_refuses : assemble "ADDRK 16".toList = none ∧ assemble "KEXP 256".toList = none ∧
    assemble "LDKEY 0001".toList = none ∧ assemble "WRB 0, 256".toList = none := by decide +kernel

/-! ### Witnesses: states and operands that meet the hypotheses of each obligation -/

/-- A frozen block: `KEXP 20` has faulted (V24). -/
def frozen : State := State.reset.faulted 2 0x14 0x20000014

theorem step_after {s : State} {e : Event} {rest : List Event} (h : s.pending = e :: rest) {t : State}
    (ht : perform e { s with pending := rest } = .next t) : step s = .next t := by
  simp [step, h, ht]

theorem only_mem (s : State) (m : Memory) :
    ({ s with mem := m } : State) = { s with mem := ({ s with mem := m } : State).mem } := rfl

theorem bufByte_write (s : State) (a b : Nat) (v : List Byte) (h : ¬ (a ≤ b ∧ b < a + v.length)) :
    ({ s with mem := (s.memWrite a v).mem } : State).bufByte b = s.bufByte b :=
  (State.bufByte_memWrite s a b v).trans (if_neg h)

theorem blockAligned_chained : chained.BlockAligned := by
  unfold State.BlockAligned State.BufferFits
  decide +kernel

theorem padFits_chained : chained.PadFits := by
  unfold State.PadFits
  decide +kernel

theorem witness_DecodeInvertsEncode : (Instr.kexpOther 255).wellFormed = true ∧ (Instr.kexpOther 0).wellFormed = true ∧
    (Instr.encblkm 0xFFFFFF).wellFormed = true ∧ (Instr.addrk 15).wellFormed = true := by decide +kernel

theorem witness_EncodeInvertsDecode : decode 0x200000FF = .ok (.kexpOther 255) ∧
    decode 0x33FFFFFF = .ok (.decblkm 0xFFFFFF) := by decide +kernel

theorem witness_LegalWordsSelectTableRows : decode 0x20000010 = .ok .kexp128 ∧
    rowOf (.kexpOther 0) ∈ opcodeTable ∧ (rowOf (.kexpOther 0)).selects 0x20000010 ∧
    ¬ ∃ r ∈ opcodeTable, r.selects 0x20000110 := by decide +kernel

theorem witness_IllegalWordsFault : State.reset.Running ∧
    (∀ r ∈ opcodeTable, ¬ r.selects 0x70000000) ∧ ∀ r ∈ opcodeTable, ¬ r.selects 0x00000001 := by decide +kernel

theorem witness_StepRunsDecodedCommand :
    let s : State := { State.reset with pending := [.wr 0 0x21000000, .rd 4] }
    s.Running ∧ s.pending = .wr 0 0x21000000 :: [.rd 4] ∧ decode 0x21000000 = .ok .drop := by decide +kernel

theorem witness_RegisterReadsReturnTheRegister :
    (0x000, 0) ∈ readableWords State.reset ∧ (0x004, 1) ∈ readableWords frozen ∧
    (0x010, 2) ∈ readableWords frozen ∧ (0x1EC, 0x6d68de36) ∈ readableWords (keyed .k256) := by decide +kernel

theorem witness_RegisterWrites :
    frozen.status.fault = true ∧ State.reset.Running ∧ decode 0 = .ok .nop ∧
    decode 0x70000000 = .error (.unassignedOpcode 0x70) ∧ 0x05C = 0x040 + 4 * (7 : Fin 8).val ∧
    0x06C = 0x060 + 4 * (3 : Fin 4).val ∧ 0x08C = 0x080 + 4 * (3 : Fin 4).val := by decide +kernel

/-- The bounds of the read-only clause. -/
theorem witness_RegisterWrites_readOnly : readOnlyOffset 0x004 ∧ readOnlyOffset 0x018 ∧ readOnlyOffset 0x070 ∧
    readOnlyOffset 0x07C ∧ readOnlyOffset 0x100 ∧ readOnlyOffset 0x1EC := by
  simp [readOnlyOffset]

/-- The bounds of the refused offsets, and writable registers beside them. -/
theorem witness_RegisterWrites_refused :
    refusedTransaction 4096 (.wr 0x01C 0) ∧ refusedTransaction 4096 (.wr 0x028 0) ∧
    refusedTransaction 4096 (.wr 0x090 0) ∧ refusedTransaction 4096 (.wr 0x1F0 0) ∧
    refusedTransaction 4096 (.wr 0x002 0) ∧ refusedTransaction 4096 (.wr 0x1000 0) ∧
    ¬ refusedTransaction 4096 (.wr 0x020 0) ∧ ¬ refusedTransaction 4096 (.wr 0x08C 0) := by
  simp [refusedTransaction, reservedOffset]

theorem witness_BufferByteWrites :
    let s : State := { State.reset with pending := [.wrb (0x1000 + 4095) 1] }
    let u : State := { frozen with pending := [.wrb (0x1000 + 0) 1] }
    let b : State := { State.reset with pending := [.wrb (0x1000 + 4096) 1] }
    b.pending = [.wrb (0x1000 + 4096) 1] ∧ s.Running ∧ 4095 < s.params.bufBytes ∧ u.status.fault = true ∧ s.params.bufBytes ≤ 4096 ∧
    s.pending = [.wrb (0x1000 + 4095) 1] ∧ u.pending = [.wrb (0x1000 + 0) 1] := by decide +kernel

/-- The clauses of the other widths: a 32-bit write at the first offset of the buffer window, running and frozen, and a
transaction of another width. -/
theorem witness_BufferByteWrites_widths :
    let s : State := { State.reset with pending := [.wr 0x1000 1] }
    let u : State := { frozen with pending := [.wr 0x1000 1] }
    let w : State := { State.reset with pending := [.otherWidth 0x1000] }
    s.pending = [.wr 0x1000 1] ∧ u.pending = [.wr 0x1000 1] ∧ 0x1000 ≤ 0x1000 ∧ w.pending = [.otherWidth 0x1000] ∧
    s.Running ∧ u.status.fault = true := by decide +kernel

/-- The clauses of the other widths: a 32-bit read at the first offset of the buffer window, a transaction of another
width, and a byte read just beyond the window. -/
theorem witness_BufferByteReads_widths :
    let s : State := { State.reset with pending := [.rd 0x1000] }
    let w : State := { frozen with pending := [.otherWidth 0x1FFF] }
    let b : State := { State.reset with pending := [.rdb (0x1000 + 4096)] }
    s.pending = [.rd 0x1000] ∧ 0x1000 ≤ 0x1000 ∧ w.pending = [.otherWidth 0x1FFF] ∧
    b.pending = [.rdb (0x1000 + 4096)] ∧ b.params.bufBytes ≤ 4096 := by decide +kernel

theorem witness_BufferByteReads :
    let s : State := { frozen with pending := [.rdb (0x1000 + 4095)] }
    s.pending = [.rdb (0x1000 + 4095)] ∧ 4095 < s.params.bufBytes ∧ s.params.bufBytes ≤ 4096 := by decide +kernel

theorem witness_RefusedTransactionsHaveNoStep :
    refusedTransaction 4096 (.rdb 0xFFF) ∧ refusedTransaction 4096 (.rdb 0x2000) ∧
    refusedTransaction 4096 (.rd 0xFFC) ∧ refusedTransaction 4096 (.otherWidth 0) ∧
    ¬ refusedTransaction 4096 (.rdb 0x1000) ∧ ¬ refusedTransaction 4096 (.rdb 0x1FFF) ∧
    ¬ refusedTransaction 4096 (.rd 0x1EC) ∧ ¬ refusedTransaction 4096 .reset := by
  simp only [refusedTransaction, reservedOffset]
  decide +kernel

theorem witness_ResetEvent :
    let s : State := { frozen with pending := [.reset, .rd 4] }
    let u : State := { frozen with pending := [.powerOn] }
    s.pending = .reset :: [.rd 4] ∧ u.pending = .powerOn :: [] := by decide +kernel

theorem witness_StepKeepsInvariant :
    let s : State := { State.reset with pending := [.wr 0 0x20000010] }
    s.Inv ∧ ∃ t, step s = .next t ∧ t.status.kvalid = true := by
  refine ⟨⟨by decide, rfl, rfl, fun _ => ⟨rfl, rfl, rfl⟩, fun _ => rfl, fun h => absurd h (by decide),
    fun _ => ⟨rfl, rfl, rfl⟩, fun h => absurd h (by decide), by decide⟩, _, rfl, rfl⟩

theorem witness_FrozenUntilReset :
    let s : State := { frozen with pending := [.wr 0 0x70000000] }
    let u : State := { frozen with pending := [.reset] }
    s.status.fault = true ∧ s.pending = .wr 0 0x70000000 :: [] ∧ frozen.pending = [] ∧
    ∃ t, step u = .next t ∧ t.status.fault = false :=
  ⟨rfl, rfl, rfl, _, rfl, rfl⟩

theorem witness_FaultEntryIsPrecise :
    let s : State := { State.reset with pending := [.wr 0 0x30000000] }
    let u : State := { State.reset with pending := [.wr 0 0x70000000] }
    s.Running ∧ s.pending = .wr 0 0x30000000 :: [] ∧ (∃ t, step s = .next t ∧ t.status.fault = true) ∧
    u.Running ∧ u.pending = .wr 0 0x70000000 :: [] ∧ ∃ t, step u = .next t ∧ t.status.fault = true :=
  ⟨rfl, rfl, ⟨_, rfl, rfl⟩, rfl, rfl, _, rfl, rfl⟩

theorem witness_FirstFailingCheckIsReported : State.reset.Running ∧
    firstFailing (checksOf (.cbcenc .pkcs7) State.reset) = some (3, 0) ∧
    firstFailing (checksOf (.cbcenc .pkcs7) chained) = none := by decide +kernel

theorem witness_NopClearsResult : State.reset.Running ∧ frozen.status.fault = true ∧
    opField 0x00000001 = 0x00 ∧ argField 0x00000001 ≠ 0 := by decide +kernel

theorem witness_SubstitutionCommands : State.reset.Running ∧
    ∃ t u, exec .subb State.reset = .next t ∧ exec .isubb t = .next u := ⟨rfl, _, _, exec_after _ _, exec_after _ _⟩

theorem witness_RowRotationCommands : State.reset.Running ∧
    ∃ t u, exec .shrow State.reset = .next t ∧ exec .ishrow t = .next u := ⟨rfl, _, _, exec_after _ _, exec_after _ _⟩

theorem witness_ColumnMixingCommands : State.reset.Running ∧
    ∃ t u, exec .mixc State.reset = .next t ∧ exec .imixc t = .next u := ⟨rfl, _, _, exec_after _ _, exec_after _ _⟩

/-- The last round key is legal, the next one faults. -/
theorem witness_AddRoundKeyCommand : (keyed .k128).Keyed ∧ State.reset.Running ∧ State.reset.status.kvalid = false ∧
    (10 : BitVec 4).toNat ≤ 10 + 2 * (keyed .k128).status.ksz.code.toNat ∧
    10 + 2 * (keyed .k128).status.ksz.code.toNat < (11 : BitVec 4).toNat ∧
    14 = 10 + 2 * (keyed .k256).status.ksz.code.toNat := by decide +kernel

theorem witness_KeyExpansionCommand : State.reset.Running ∧ (17 : BitVec 8) ≠ 16 ∧ (17 : BitVec 8) ≠ 24 ∧
    (17 : BitVec 8) ≠ 32 ∧ opField 0x20000110 = 0x20 ∧ (argField 0x20000110).extractLsb' 8 16 ≠ 0 := by decide +kernel

/-- Two states that differ in the fifth key word and in `RK`. -/
theorem witness_ScheduleDependsOnKeyWordsOnly :
    let s := keyed .k128
    let s' : State := { s with key := s.key.set 4 0, rk := Vector.replicate 60 1 }
    s.Running ∧ s'.Running ∧ (∀ i : Fin 8, i.val < KeySize.k128.nk → s'.key[i] = s.key[i]) ∧ s' ≠ s ∧
    (∃ t, exec (kexpOf .k128) s = .next t) ∧ ∃ t, exec (kexpOf .k128) s' = .next t :=
  ⟨rfl, rfl, by decide +kernel, by decide +kernel, exec_next _ _, exec_next _ _⟩

theorem witness_DropCommand : (keyed .k256).Running ∧ frozen.status.fault = true := by decide +kernel

theorem witness_RegisterBlockCommands : State.reset.Running ∧ State.reset.status.kvalid = false ∧
    (keyed .k192).Running ∧ (keyed .k192).status.kvalid = true ∧
    ∃ t u, exec .encblk (keyed .k192) = .next t ∧ exec .decblk t = .next u :=
  ⟨rfl, rfl, rfl, rfl, _, _, exec_after _ _, exec_after _ _⟩

/-- The last legal offset and the first one beyond it. -/
theorem witness_BufferBlockCommands : (keyed .k128).Running ∧ (keyed .k128).status.kvalid = true ∧
    (4080 : BitVec 24).toNat + 16 ≤ (keyed .k128).params.bufBytes ∧
    (keyed .k128).params.bufBytes < (4081 : BitVec 24).toNat + 16 ∧ State.reset.status.kvalid = false := by decide +kernel

theorem witness_ValueAndInPlaceFormsAgree :
    let s : State := { put 5 plain (keyed .k128) with state := plain }
    s.Keyed ∧ (5 : BitVec 24).toNat + 16 ≤ s.params.bufBytes ∧ s.state = s.loadBlock (5 : BitVec 24).toNat ∧
    (∃ t, exec .encblk s = .next t) ∧ (∃ t, exec (.encblkm 5) s = .next t) ∧ (∃ t, exec .decblk s = .next t) ∧
    ∃ t, exec (.decblkm 5) s = .next t :=
  ⟨by decide +kernel, by decide +kernel, by decide +kernel, exec_next _ _, exec_next _ _, exec_next _ _, exec_next _ _⟩

theorem witness_CipherRoundTrip : 0 < (keyed .k128).rounds := by decide +kernel

theorem witness_RoundCommandsMakeTheCipher : (keyed .k128).Keyed ∧ (keyed .k192).Keyed ∧ (keyed .k256).Keyed := by
  decide +kernel

theorem witness_EcbEncryption : chained.Keyed ∧ chained.BlockAligned ∧ chained.PadFits ∧
    1 < chained.buflen.toNat / 16 :=
  ⟨by decide +kernel, blockAligned_chained, padFits_chained, by decide +kernel⟩

theorem witness_EcbDecryption : chained.Keyed ∧ chained.BlockAligned ∧ { chained with buflen := 0 }.BlockAligned :=
  ⟨by decide +kernel, blockAligned_chained, by unfold State.BlockAligned State.BufferFits; decide +kernel⟩

theorem witness_EcbRoundTrip : (keyed .k256).Keyed ∧ { keyed .k256 with buflen := 4096 }.BlockAligned :=
  ⟨by decide +kernel, by unfold State.BlockAligned State.BufferFits; decide +kernel⟩

theorem witness_EcbEqualBlocks : chained.Keyed ∧ chained.BlockAligned ∧ (∃ t, exec (.ecbenc .noPad) chained = .next t) ∧
    0 < chained.buflen.toNat / 16 ∧ 1 < chained.buflen.toNat / 16 ∧ chained.loadBlock (16 * 0) = chained.loadBlock (16 * 1) :=
  ⟨by decide +kernel, blockAligned_chained, exec_next _ _, by decide +kernel, by decide +kernel, by decide +kernel⟩

theorem witness_EcbIsBlockByBlock : chained.Keyed ∧ chained.params.Legal ∧ chained.BlockAligned ∧ chained.buflen ≠ 0 ∧
    chained.PadFits :=
  ⟨by decide +kernel, by decide +kernel, blockAligned_chained, by decide +kernel, padFits_chained⟩

theorem witness_PadThenEncryptAgrees : chained.Keyed ∧ chained.BlockAligned ∧ chained.PadFits ∧
    chained.status.ivvalid = true :=
  ⟨by decide +kernel, blockAligned_chained, padFits_chained, by decide +kernel⟩

/-- A host write to the last word of `IVIN` after `SETIV`. -/
theorem witness_SetivCommand_ivin :
    let s : State := { chained with pending := [.wr 0x06C 9] }
    s.pending = [.wr (0x060 + 4 * (3 : Fin 4).val) 9] ∧ ∃ t, step s = .next t ∧ t.ivin.w3 = 9 :=
  ⟨rfl, _, rfl, rfl⟩

theorem witness_SetivCommand : (keyed .k128).Running ∧ (keyed .k128).status.kvalid = true ∧ State.reset.Running ∧
    State.reset.status.kvalid = false := by decide +kernel

theorem witness_CbcEncryption : chained.Chained ∧ chained.BlockAligned ∧ chained.PadFits ∧
    1 < chained.buflen.toNat / 16 :=
  ⟨by decide +kernel, blockAligned_chained, padFits_chained, by decide +kernel⟩

theorem witness_CbcDecryption : chained.Chained ∧ chained.BlockAligned ∧ { chained with buflen := 0 }.BlockAligned :=
  ⟨by decide +kernel, blockAligned_chained, by unfold State.BlockAligned State.BufferFits; decide +kernel⟩

theorem witness_CbcRoundTrip : chained.Chained ∧ chained.BlockAligned :=
  ⟨by decide +kernel, blockAligned_chained⟩

/-- The flipped bit of V33: bit 0 of the first byte of block 0, with a block after it. -/
theorem witness_CbcBitFlip :
    let s := chained
    let D : Block := ⟨0x01000000, 0, 0, 0⟩
    let s' : State := { s with mem := (s.storeBlock 0 (xorBlock plain D)).mem }
    s.Chained ∧ s.BlockAligned ∧ 0 < s.buflen.toNat / 16 ∧ D ≠ zeroBlock ∧ s' = { s with mem := s'.mem } ∧
    SameBufferOutside (16 * 0) 16 s s' ∧ s'.loadBlock (16 * 0) = xorBlock (s.loadBlock (16 * 0)) D ∧
    0 + 1 < s.buflen.toNat / 16 ∧ (∃ t, exec .cbcdec s = .next t) ∧ ∃ t, exec .cbcdec s' = .next t :=
  ⟨by decide +kernel, blockAligned_chained, by decide +kernel, by decide +kernel, only_mem _ _,
    fun _ hb => bufByte_write _ _ _ _ (by simp [wordsToBlock, wordBytes]; omega), by decide +kernel,
    by decide +kernel, exec_next _ _, exec_next _ _⟩

/-- Pad lengths 255 and 256, a payload of the whole buffer and of one byte more, a buffer one byte too long. -/
theorem witness_PadCommand :
    let s (b m : Word) : State := { State.reset with buflen := b, mlen := m }
    (s 512 257).Running ∧ (s 512 257).BufferFits ∧ (s 512 257).PadFits ∧ (s 16 16).PadFits ∧
    255 < (s 512 256).buflen.toNat - (s 512 256).mlen.toNat ∧ (s 512 256).mlen.toNat ≤ (s 512 256).buflen.toNat ∧
    (s 16 17).buflen.toNat < (s 16 17).mlen.toNat ∧ (s 4097 0).params.bufBytes < (s 4097 0).buflen.toNat := by
  simp only [State.PadFits, State.BufferFits]
  decide +kernel

/-- Last bytes 16 and 17, and a last byte above the length of the buffer. -/
theorem witness_UnpadCommand :
    let s (last : Word) : State := ice last
    let u : State := { s 0 with buflen := 3, mem := [(2, 9)] }
    (s 0x04040410).Running ∧ (s 0x04040410).BufferFits ∧ (s 0x04040410).buflen ≠ 0 ∧
    ((s 0x04040410).bufByte 15).toNat = 16 ∧ 16 < ((s 0x04040411).bufByte 15).toNat ∧
    u.BufferFits ∧ u.buflen.toNat < (u.bufByte 2).toNat ∧ (u.bufByte 2).toNat ≤ 16 ∧ State.reset.buflen = 0 := by
  simp only [State.BufferFits]
  decide +kernel

/-- Every branch: last byte 17, 0 under both parameters, 9 in three bytes, a mismatch and a valid pad. -/
theorem witness_CheckedUnpadCommand :
    let u : State := { ice 0 with buflen := 3, mem := [(2, 9)] }
    16 < ((ice 0x04040411).bufByte 15).toNat ∧ (ice 0x04040400).bufByte 15 = 0 ∧
    (ice 0).params.errZeroPad = .mismatchingPaddingBytes ∧ 1 ≤ (u.bufByte 2).toNat ∧ (u.bufByte 2).toNat ≤ 16 ∧
    u.buflen.toNat < (u.bufByte 2).toNat ∧ (ice 0x05050505).bufByte 15 = 5 ∧ (ice 0x05050505).bufByte 11 ≠ 5 ∧
    (∀ j : Fin 4, (ice 0x04040404).bufByte (12 + j.val) = 4) ∧ (ice 0).Running ∧ (ice 0).buflen ≠ 0 := by
  decide +kernel

theorem witness_PadUnpadRoundTrip : (ice 0).Running ∧ (ice 0).BufferFits ∧ (ice 0).mlen.toNat < (ice 0).buflen.toNat ∧
    (ice 0).buflen.toNat - (ice 0).mlen.toNat ≤ 16 ∧ (0 : Nat) < (ice 0).mlen.toNat := by
  simp only [State.BufferFits]
  decide +kernel

/-- After `PAD` with pad length 4: the last byte changed to 0x11, and the first pad byte changed. -/
theorem witness_CorruptedPaddingIsRejected :
    let s := ice 0
    let t := after .pad s
    let u (a : Nat) : State := { t with mem := (t.memWrite a [0x11]).mem }
    s.Running ∧ s.BufferFits ∧ 16 ≤ s.buflen.toNat ∧ s.mlen.toNat < s.buflen.toNat ∧
    s.buflen.toNat - s.mlen.toNat ≤ 16 ∧ exec .pad s = .next t ∧
    (∀ a, u a = { t with mem := (u a).mem } ∧ SameBufferOutside a 1 t (u a) ∧ ∃ v, exec .unpadchk (u a) = .next v) ∧
    (u 15).bufByte 15 ≠ t.bufByte 15 ∧ 15 + 1 = s.buflen.toNat ∧ (u 12).bufByte 12 ≠ t.bufByte 12 ∧
    s.mlen.toNat ≤ 12 ∧ 12 + 1 < s.buflen.toNat := by
  refine ⟨by decide +kernel, by unfold State.BufferFits; decide +kernel, by decide +kernel, by decide +kernel,
    by decide +kernel, exec_after _ _, fun a => ⟨only_mem _ _, fun b hb => bufByte_write _ _ _ _ (by simp; omega), exec_next _ _⟩, by decide +kernel, by decide +kernel,
    by decide +kernel, by decide +kernel, by decide +kernel⟩

theorem witness_UnpadFormsAgree : ∃ t, (ice 0x04040404).Running ∧ exec .unpadchk (ice 0x04040404) = .next t ∧
    t.status.fault = false ∧ t.result = 0 :=
  ⟨_, by decide +kernel, exec_after _ _, by decide +kernel, by decide +kernel⟩

theorem witness_FieldMultiplication : (0x57 : Byte).toNat < 128 ∧ ¬ (0x80 : Byte).toNat < 128 ∧ 255 < 256 := by decide +kernel

/-- 0x53 and 0xCA are inverse to each other. -/
theorem witness_TablesAreConsistent : gmul 0x53 (0xCA : Byte).toNat = 1 ∧ (0x53 : Byte) ≠ 0 := by decide +kernel

theorem witness_RegisterWriters : exec .kexp128 State.reset = .next (after .kexp128 State.reset) ∧
    (after .kexp128 State.reset).rk ≠ State.reset.rk ∧ (after .encblk State.reset).fcode ≠ State.reset.fcode ∧
    (after .unpad (ice 0x04040404)).outlen ≠ (ice 0x04040404).outlen :=
  ⟨exec_after _ _, by decide +kernel, by decide +kernel, by decide +kernel⟩

theorem witness_FlagTable : (Instr.unpadchk).wellFormed = true ∧ (ice 0x05050505).Running ∧
    exec .unpadchk (ice 0x05050505) = .next (after .unpadchk (ice 0x05050505)) ∧
    (after .unpadchk (ice 0x05050505)).status.fault = false ∧ (after .encblk State.reset).status.fault = true :=
  ⟨rfl, by decide +kernel, exec_after _ _, by decide +kernel, by decide +kernel⟩

theorem witness_SessionTransitions : (Instr.setiv).wellFormed = true ∧ frozen.session = .faulted ∧
    (keyed .k128).session = .keyed ∧ chained.session = .keyedIv ∧ State.reset.session = .empty ∧
    needsIv .cbcdec = true ∧ (after .cbcdec (keyed .k128)).fcode = 4 ∧ (after .cbcdec State.reset).fcode = 3 := by
  decide +kernel

theorem witness_BufferBytesWritten : (∃ t, exec .cbcdec chained = .next t) ∧
    (after .cbcdec State.reset).status.fault = true ∧ writtenRange .cbcdec chained = (0, 32) :=
  ⟨exec_next _ _, by decide +kernel, by decide +kernel⟩

/-- Two states that differ in a byte beyond the buffer of the command. -/
theorem witness_BufferBytesRead :
    let s' : State := { chained with mem := (chained.memWrite 32 [0x11]).mem }
    s' = { chained with mem := s'.mem } ∧ (∀ a, readsByte .cbcdec chained a → s'.bufByte a = chained.bufByte a) ∧
    s' ≠ chained ∧ (∃ t, exec .cbcdec chained = .next t) ∧ ∃ t, exec .cbcdec s' = .next t := by
  refine ⟨only_mem _ _, fun a ha => bufByte_write _ _ _ _ ?_, by decide +kernel, exec_next _ _, exec_next _ _⟩
  have h32 : a < 32 := ha
  omega

theorem witness_NewInstanceProgram : State.reset.Running ∧
    (List.replicate 24 (0 : Byte)).length = 4 * KeySize.k192.nk := by decide +kernel

end Sys2Proof.Tests
end

namespace Sys2Proof.Machine

/-! Proofs about the state (spec 10_state.md): the reset values, a command issued through `CMD`, which command may
change which register and flag, and the invariants of R31 over every step. -/

/-! ### Reset -/

@[simp] theorem col_zeroBlock (c : Fin 4) : col zeroBlock c = 0 := by
  match c with
  | 0 => rfl
  | 1 => rfl
  | 2 => rfl
  | 3 => rfl

/-- Settles O13: each register array entry by entry, the other fields by the definition of the reset state. -/
theorem resetValues : Obligations.ResetValues :=
  ⟨fun i => by simp [State.reset], col_zeroBlock, col_zeroBlock, col_zeroBlock, fun i => by simp [State.reset],
    rfl, rfl, rfl, rfl, rfl, rfl, rfl, rfl, rfl, rfl, rfl, rfl, rfl, rfl⟩

/-! ### A write to `CMD` -/

/-- Offset 0 is `CMD` (R11). -/
theorem State.select32_zero (s : State) : s.select32 0 = .ok .cmd := rfl

/-- While no fault is latched a write to `CMD` issues its word (R25, R191). -/
theorem step_wr_cmd {s : State} {w : Word} {rest : List Event} (hs : s.Running)
    (hp : s.pending = .wr 0 w :: rest) :
    step s = issue w { s with pending := rest, resp := .completed } := by
  have hf : s.status.fault = false := hs
  simp [step, hp, perform, State.select32_zero, State.performWrite, hf]

/-- While no fault is latched a word that decodes is executed (R64). -/
theorem issue_of_decode_ok {s : State} {w : Word} {i : Instr} (hs : s.Running) (hd : decode w = .ok i) :
    issue w s = exec i s := by
  have hf : s.status.fault = false := hs
  simp [issue, hf, hd]

/-- Settles O6: the write reaches `CMD`, which issues the word, which is executed. -/
theorem stepRunsDecodedCommand : Obligations.StepRunsDecodedCommand := by
  intro s w rest i hs hp hd
  exact (step_wr_cmd hs hp).trans (issue_of_decode_ok (s := { s with pending := rest, resp := .completed }) hs hd)

/-! ### What a command that completes can do -/

/-- The commands whose effect on the registers is on `STATE` and `RESULT` alone. -/
def transformsState : Instr → Bool
  | .subb | .isubb | .shrow | .ishrow | .mixc | .imixc | .addrk _ | .encblk | .decblk | .encblkm _ | .decblkm _
  | .ecbenc _ | .ecbdec | .cbcenc _ | .cbcdec => true
  | .nop | .kexp128 | .kexp192 | .kexp256 | .kexpOther _ | .drop | .setiv | .pad | .unpad | .unpadchk => false

/-- Everything a command `i` that completes can do, one constructor per kind of command. -/
inductive Completion (i : Instr) (s t : State) : Prop where
  /-- `KEXP` of a legal length (R123, R124) -/
  | construct (k : KeySize) (hi : i = kexpOf k ∨ i = .kexpOther (BitVec.ofNat 8 (4 * k.nk)))
      (ht : t = s.constructInstance k)
  /-- `DROP` (R126) -/
  | drop (hi : i = .drop) (ht : t = { s with
      rk := Vector.replicate 60 0, iv := zeroBlock, state := zeroBlock, result := 0
      status := ⟨s.status.fault, false, false, .k128⟩ })
  /-- `SETIV`, which needs a schedule (R161) -/
  | latch (hi : i = .setiv) (hk : s.status.kvalid = true)
      (ht : t = { s with iv := s.ivin, status := { s.status with ivvalid := true }, result := 0 })
  /-- `UNPAD` (R177) -/
  | unpad (hi : i = .unpad) (n : Word) (ht : t = { s with outlen := n, result := 0 })
  /-- `UNPADCHK` (R178) -/
  | unpadchk (hi : i = .unpadchk) (n : Word) (c : ResultCode) (ht : t = { s with outlen := n, result := c.number })
  /-- `NOP` and `PAD` (R176, R195) -/
  | fill (hi : i = .nop ∨ i = .pad) (m : Memory) (ht : t = { s with mem := m, result := 0 })
  /-- the round transforms, the cipher and the modes (R100, R137 to R140, R151, R152, R162, R163) -/
  | transform (hi : transformsState i = true) (m : Memory) (b : Block)
      (ht : t = { s with mem := m, state := b, result := 0 })

theorem needKey_eq_none {s : State} : needKey s = none ↔ s.status.kvalid = true := by
  simp [needKey, failWhen_eq_none]

theorem KeySize.eq_of_ofKlen {n : BitVec 8} {k : KeySize} (h : KeySize.ofKlen n.toNat = some k) :
    n = BitVec.ofNat 8 (4 * k.nk) := by
  revert h
  cases k <;> revert n <;> decide +kernel

/-- The check of `KEXP` passes for the legal lengths alone, and then its effect is that of a legal `KEXP` (R123). -/
theorem effectOf_kexpOther_of_checks {n : BitVec 8} {s : State}
    (h : firstRaise (checksRun (.kexpOther n) s) = none) :
    ∃ k : KeySize, n = BitVec.ofNat 8 (4 * k.nk) ∧ effectOf (.kexpOther n) s = s.constructInstance k := by
  have hn : (KeySize.ofKlen n.toNat).isNone = false :=
    failWhen_eq_none.mp (firstRaise_eq_none.mp h _ List.mem_cons_self)
  cases hk : KeySize.ofKlen n.toNat with
  | none => simp [hk] at hn
  | some k => exact ⟨k, KeySize.eq_of_ofKlen hk, by simp [effectOf, hk]⟩

/-- The effect of a command whose checks pass is one of the kinds of `Completion`. -/
theorem effectOf_completion {i : Instr} {s : State} (h : firstRaise (checksRun i s) = none) :
    Completion i s (effectOf i s) := by
  cases i with
  | kexp128 => exact .construct .k128 (.inl rfl) rfl
  | kexp192 => exact .construct .k192 (.inl rfl) rfl
  | kexp256 => exact .construct .k256 (.inl rfl) rfl
  | kexpOther n =>
    obtain ⟨k, rfl, he⟩ := effectOf_kexpOther_of_checks h
    exact .construct k (.inr rfl) he
  | drop => exact .drop rfl rfl
  | setiv => exact .latch rfl (needKey_eq_none.mp (firstRaise_eq_none.mp h _ List.mem_cons_self)) rfl
  | unpad => exact .unpad rfl _ rfl
  | unpadchk => exact .unpadchk rfl _ _ rfl
  | nop => exact .fill (.inl rfl) _ rfl
  | pad => exact .fill (.inr rfl) _ rfl
  | ecbenc p => exact .transform rfl _ _ (effectOf_ecbenc_frame s p)
  | ecbdec => exact .transform rfl _ _ (effectOf_ecbdec_frame s)
  | cbcenc p => exact .transform rfl _ _ (effectOf_cbcenc_frame s p)
  | cbcdec => exact .transform rfl _ _ (effectOf_cbcdec_frame s)
  | _ => exact .transform rfl _ _ rfl

/-! ### Who writes what -/

/-- A command that completes leaves what the host owns alone (R11). -/
theorem Completion.keeps_host {i : Instr} {s t : State} (h : Completion i s t) :
    t.params = s.params ∧ t.key = s.key ∧ t.ivin = s.ivin ∧ t.buflen = s.buflen ∧ t.mlen = s.mlen ∧
    t.powerOns = s.powerOns ∧ t.pending = s.pending ∧ t.resp = s.resp := by
  cases h <;> subst t <;> simp

/-- `RK` is written by `KEXP` and `DROP` alone (R16). -/
theorem Completion.rk_writer {i : Instr} {s t : State} (h : Completion i s t) (hne : t.rk ≠ s.rk) :
    i = .drop ∨ ∃ k : KeySize, i = kexpOf k ∨ i = .kexpOther (BitVec.ofNat 8 (4 * k.nk)) := by
  cases h with
  | construct k hi => exact .inr ⟨k, hi⟩
  | drop hi => exact .inl hi
  | _ => subst t; exact absurd rfl hne

/-- `IV` is written by `SETIV`, `KEXP` and `DROP` alone (R14). -/
theorem Completion.iv_writer {i : Instr} {s t : State} (h : Completion i s t) (hne : t.iv ≠ s.iv) :
    i = .setiv ∨ i = .drop ∨ ∃ k : KeySize, i = kexpOf k ∨ i = .kexpOther (BitVec.ofNat 8 (4 * k.nk)) := by
  cases h with
  | construct k hi => exact .inr (.inr ⟨k, hi⟩)
  | drop hi => exact .inr (.inl hi)
  | latch hi => exact .inl hi
  | _ => subst t; exact absurd rfl hne

/-- `OUTLEN` is written by the unpad commands alone (R23). -/
theorem Completion.outlen_writer {i : Instr} {s t : State} (h : Completion i s t) (hne : t.outlen ≠ s.outlen) :
    i = .unpad ∨ i = .unpadchk := by
  cases h with
  | unpad hi => exact .inl hi
  | unpadchk hi => exact .inr hi
  | _ => subst t; exact absurd rfl hne

/-- `STATE` is written by `DROP` and the transforms alone (R15). -/
theorem Completion.state_writer {i : Instr} {s t : State} (h : Completion i s t) (hne : t.state ≠ s.state) :
    i = .drop ∨ transformsState i = true := by
  cases h with
  | drop hi => exact .inl hi
  | transform hi => exact .inr hi
  | _ => subst t; exact absurd rfl hne

/-- Settles O55: a frozen command changes nothing, a fault the fault registers and `FAULT`, and for a command that
completes each register has its writers. -/
theorem registerWriters : Obligations.RegisterWriters := by
  intro i s t h
  rcases exec_cases h with ⟨-, rfl⟩ | ⟨hf, r, -, rfl⟩ | ⟨-, hr, rfl⟩
  · simp
  · simp [hf]
  · have hc := effectOf_completion hr
    obtain ⟨hparams, hkey, hivin, hbuflen, hmlen, hpower, hpending, hresp⟩ := hc.keeps_host
    obtain ⟨-, hfcode, hfinfo, hfcmd⟩ := effectOf_fault i s
    refine ⟨hparams, hkey, hivin, hbuflen, hmlen, hpower, hpending, hresp, hc.rk_writer, hc.iv_writer,
      hc.outlen_writer, fun hne => ?_, by simp [hfcode, hfinfo, hfcmd]⟩
    rcases hc.state_writer hne with rfl | hi
    · exact .inl rfl
    · cases i <;> simp [transformsState] at hi ⊢

/-! ### Flags -/

theorem effectOf_kexpOf (k : KeySize) (s : State) : effectOf (kexpOf k) s = s.constructInstance k := by
  cases k <;> rfl

/-- The catch-all `KEXP` of a legal length is no command (R66). -/
theorem not_wellFormed_kexpOther_legal (k : KeySize) :
    (Instr.kexpOther (BitVec.ofNat 8 (4 * k.nk))).wellFormed = false := by
  cases k <;> decide

/-- The last row of R26: the commands other than `KEXP`, `DROP`, `SETIV` and `UNPADCHK` leave `STATUS` alone and
write 0 to `RESULT`. -/
theorem Completion.flags_of_other {i : Instr} {s t : State} (h : Completion i s t) (hw : i.wellFormed = true)
    (hk : ∀ k, i ≠ kexpOf k) (hd : i ≠ .drop) (hv : i ≠ .setiv) (hu : i ≠ .unpadchk) :
    t.status = s.status ∧ t.result = 0 := by
  cases h with
  | construct k hi =>
    obtain rfl := hi.resolve_left (hk k)
    simp [not_wellFormed_kexpOther_legal] at hw
  | drop hi => exact absurd hi hd
  | latch hi => exact absurd hi hv
  | unpadchk hi => exact absurd hi hu
  | _ => subst t; exact ⟨rfl, rfl⟩

theorem ResultCode.number_cases (c : ResultCode) : c.number = 0 ∨ c.number = 1 ∨ c.number = 2 := by
  cases c <;> simp [ResultCode.number]

/-- Settles O56: a fault sets `FAULT` alone; the four commands with rows of their own have their effect, and the
others complete as the last row says. -/
theorem flagTable : Obligations.FlagTable := by
  intro i s t hw hs h
  have hs : s.status.fault = false := hs
  rcases exec_cases h with ⟨hf, -⟩ | ⟨-, r, -, rfl⟩ | ⟨-, hr, rfl⟩
  · simp [hs] at hf
  · simp
  · have hf : (effectOf i s).status.fault = false := by rw [(effectOf_fault i s).1, hs]
    refine ⟨by simp [hf], fun _ => ⟨?_, ?_, ?_, ?_, (effectOf_completion hr).flags_of_other hw⟩⟩
    · rintro k rfl
      simp [effectOf_kexpOf, hs]
    · rintro rfl
      simp [effectOf, hs, ResultCode.number]
    · rintro rfl
      simp [effectOf, ResultCode.number]
    · rintro rfl
      exact ⟨rfl, s.unpadVerdict.number_cases⟩

/-! ### The bounds that the checks give -/

/-- Checks that all pass pass in part. -/
theorem firstRaise_eq_none_of_subset {checks part : List (Option Raise)} (h : firstRaise checks = none)
    (hsub : part ⊆ checks) : firstRaise part = none :=
  firstRaise_eq_none.mpr fun c hc => firstRaise_eq_none.mp h c (hsub hc)

theorem blockInBuf_eq_none {s : State} {off : BitVec 24} :
    blockInBuf s off = none ↔ off.toNat + 16 ≤ s.params.bufBytes := by
  simp [blockInBuf, failWhen_eq_none]

theorem bufferInBuf_eq_none {s : State} : bufferInBuf s = none ↔ s.BufferFits := by
  simp [bufferInBuf, failWhen_eq_none, State.BufferFits]

theorem firstRaise_checkPad_eq_none {s : State} : firstRaise (checkPad s) = none ↔ s.PadFits := by
  simp [checkPad, firstRaise_eq_none, failWhen_eq_none, State.PadFits, State.padLength]

theorem State.BufferFits.blocks_le {s : State} (h : s.BufferFits) : 16 * (0 + s.blocks) ≤ s.params.bufBytes := by
  unfold State.BufferFits at h
  unfold State.blocks
  omega

/-! ### What a command does to the buffer memory -/

/-- The padding fill stays inside the buffer. -/
theorem padFill_mem {P : Memory → Prop} {s : State} (hP : StoreKeeps s.params.bufBytes P) (hb : s.BufferFits)
    (hp : s.PadFits) (hm : P s.mem) : P s.padFill.mem := by
  rw [State.padFill_mem]
  refine hP.storeBytes ?_ hm
  rw [List.length_replicate, State.padLength, Nat.add_sub_cancel' hp.1]
  exact hb

theorem applyPad_mem {P : Memory → Prop} {s : State} {p : PadSelect} (hP : StoreKeeps s.params.bufBytes P)
    (hb : s.BufferFits) (hp : firstRaise (checkSelectedPad s p) = none) (hm : P s.mem) : P (s.applyPad p).mem := by
  cases p with
  | noPad => exact hm
  | pkcs7 => exact padFill_mem hP hb (firstRaise_checkPad_eq_none.mp hp) hm

theorem processBlock_mem {P : Memory → Prop} {s : State} {a : Nat} (hP : StoreKeeps s.params.bufBytes P)
    (ha : a + 16 ≤ s.params.bufBytes) (f : Block → Block) (hm : P s.mem) : P (s.processBlock f a).mem := by
  rw [State.processBlock_mem]
  exact hP.storeBytes (by rwa [length_wordsToBlock]) hm

/-- A property of the buffer memory that every store inside the buffer keeps is kept by every command whose checks
pass: the checks keep its stores inside the buffer. -/
theorem effectOf_mem {P : Memory → Prop} {i : Instr} {s : State} (hP : StoreKeeps s.params.bufBytes P)
    (h : firstRaise (checksRun i s) = none) (hm : P s.mem) : P (effectOf i s).mem := by
  have hfits (hmem : bufferInBuf s ∈ checksRun i s) : s.BufferFits :=
    bufferInBuf_eq_none.mp (firstRaise_eq_none.mp h _ hmem)
  have hoff (off : BitVec 24) (hmem : blockInBuf s off ∈ checksRun i s) : off.toNat + 16 ≤ s.params.bufBytes :=
    blockInBuf_eq_none.mp (firstRaise_eq_none.mp h _ hmem)
  cases i with
  | kexpOther n =>
    obtain ⟨k, -, he⟩ := effectOf_kexpOther_of_checks h
    rwa [he]
  | encblkm off | decblkm off =>
    simp only [effectOf, State.complete_mem]
    exact processBlock_mem hP (hoff off (by simp [checksRun])) _ hm
  | ecbenc p =>
    have hb := hfits (by simp [checksRun, checkBuffer])
    have hp := firstRaise_eq_none_of_subset h (List.subset_append_right _ _)
    exact ecbLoop_mem hP _ _ _ _ hb.blocks_le (applyPad_mem hP hb hp hm)
  | ecbdec => exact ecbLoop_mem hP _ _ _ _ (hfits (by simp [checksRun, checkBuffer])).blocks_le hm
  | cbcenc p =>
    have hb := hfits (by simp [checksRun, checkBuffer])
    have hp := firstRaise_eq_none_of_subset h (List.subset_append_right _ _)
    exact cbcEncLoop_mem hP _ _ _ _ _ hb.blocks_le (applyPad_mem hP hb hp hm)
  | cbcdec => exact cbcDecLoop_mem hP _ _ _ _ _ (hfits (by simp [checksRun, checkBuffer])).blocks_le hm
  | pad =>
    have hp := firstRaise_eq_none_of_subset h (List.subset_cons_self _ _)
    exact padFill_mem hP (hfits (by simp [checksRun])) (firstRaise_checkPad_eq_none.mp hp) hm
  | _ => exact hm

/-! ### The invariant -/

/-- Settles O15: no field of the reset state is set, so each clause is about zeros or about nothing. -/
theorem resetSatisfiesInvariant : Obligations.ResetSatisfiesInvariant where
  paramsLegal  := by decide
  memCanonical := rfl
  memWithin    := rfl
  noInstance _ := ⟨rfl, rfl, rfl⟩
  noIv _       := rfl
  schedule h   := nomatch h
  noFault _    := ⟨rfl, rfl, rfl⟩
  faultCode h  := nomatch h
  resultCode   := by decide

theorem FaultCode.number_range (c : FaultCode) : 1 ≤ c.number.toNat ∧ c.number.toNat ≤ 12 := by
  cases c <;> decide

theorem ResultCode.number_le_two (c : ResultCode) : c.number.toNat ≤ 2 := by
  cases c <;> decide

/-- `KEY` has the words that a schedule of any size is derived from (R12, R120). -/
theorem State.length_keyWords (s : State) (k : KeySize) : (s.keyWords k.nk).length = k.nk := by
  have hk : k.nk ≤ 8 := by cases k <;> decide
  simpa [State.keyWords] using hk

/-- The fields that the invariant speaks of. -/
def State.invFields (s : State) :
    Params × Memory × Block × Vector Word 60 × Status × Word × Word × Word × Word :=
  (s.params, s.mem, s.iv, s.rk, s.status, s.result, s.fcode, s.finfo, s.fcmd)

/-- The invariant depends on its fields alone. -/
theorem State.Inv.congr {s t : State} (h : s.Inv) (e : t.invFields = s.invFields) : t.Inv := by
  cases s
  cases t
  simp only [State.invFields, Prod.mk.injEq] at e
  obtain ⟨rfl, rfl, rfl, rfl, rfl, rfl, rfl, rfl, rfl⟩ := e
  exact { h with }

/-- A new buffer memory in canonical form and a result code keep the invariant. -/
theorem State.Inv.with_mem_result {s : State} (h : s.Inv) {m : Memory} (hm : m.wf = true)
    (hw : m.within s.params.bufBytes = true) (c : ResultCode) : { s with mem := m, result := c.number }.Inv :=
  { h with
    memCanonical := hm
    memWithin    := hw
    resultCode   := c.number_le_two }

/-- Fault entry keeps the invariant: the causes are numbered 1 to 12 (R201). -/
theorem State.Inv.faultEntry {s : State} (h : s.Inv) (r : Raise) (w : Word) : (s.faultEntry r w).Inv :=
  { h with
    noFault   := fun hf => nomatch hf
    faultCode := fun _ => r.code.number_range }

/-- `KEXP` keeps the invariant: its schedule is derived from the first `Nk` words of `KEY` (R123). -/
theorem State.Inv.constructInstance {s : State} (h : s.Inv) (k : KeySize) : (s.constructInstance k).Inv where
  paramsLegal   := h.paramsLegal
  memCanonical  := h.memCanonical
  memWithin     := h.memWithin
  noInstance hk := nomatch hk
  noIv _        := rfl
  schedule _    := ⟨s.keyWords k.nk, s.length_keyWords k, rfl⟩
  noFault       := h.noFault
  faultCode     := h.faultCode
  resultCode    := ResultCode.number_le_two .ok

/-- A completing command keeps the invariant, provided that its stores do. -/
theorem Completion.inv {i : Instr} {s t : State} (h : Completion i s t) (hs : s.Inv) (hm : t.mem.wf = true)
    (hw : t.mem.within s.params.bufBytes = true) : t.Inv := by
  cases h with
  | construct k _ ht => rw [ht]; exact hs.constructInstance k
  | drop _ ht =>
    subst t
    exact { hs with
      noInstance := fun _ => ⟨rfl, rfl, rfl⟩
      noIv       := fun _ => rfl
      schedule   := fun hk => nomatch hk
      resultCode := ResultCode.number_le_two .ok }
  | latch _ hk ht =>
    subst t
    exact { hs with
      noInstance := fun hn => by simp [hk] at hn
      noIv       := fun hn => nomatch hn
      resultCode := ResultCode.number_le_two .ok }
  | unpadchk _ n c ht => subst t; exact (hs.with_mem_result hm hw c).congr rfl
  | _ => subst t; exact (hs.with_mem_result hm hw .ok).congr rfl

/-- Every command keeps the invariant. -/
theorem exec_inv {i : Instr} {s t : State} (h : s.Inv) (ht : exec i s = .next t) : t.Inv := by
  rcases exec_cases ht with ⟨-, rfl⟩ | ⟨-, r, -, rfl⟩ | ⟨-, hr, rfl⟩
  · exact h
  · exact h.faultEntry r _
  · exact (effectOf_completion hr).inv h (effectOf_mem (storeKeeps_wf _) hr h.memCanonical)
      (effectOf_mem (storeKeeps_within _) hr h.memWithin)

/-- Both reset events keep the invariant: the registers are those of the reset state, the parameters stay, and the
buffer memory stays or is emptied. -/
theorem State.Inv.resetRegisters {s : State} (h : s.Inv) : s.resetRegisters.Inv :=
  { resetSatisfiesInvariant with
    paramsLegal  := h.paramsLegal
    memCanonical := h.memCanonical
    memWithin    := h.memWithin }

theorem State.Inv.powerCycle {s : State} (h : s.Inv) : s.powerCycle.Inv :=
  { resetSatisfiesInvariant with paramsLegal := h.paramsLegal }

/-- A host write to a register writes none that the invariant speaks of. -/
theorem State.Inv.writeReg {s : State} (h : s.Inv) (r : Reg) (v : Word) : (s.writeReg r v).Inv := by
  cases r <;> exact h.congr rfl

/-! ### What an event can do -/

/-- An 8-bit transaction that is not refused reaches an address of the buffer memory (R44, R45). -/
theorem State.lt_of_select8_eq_ok {s : State} {o a : Nat} (h : s.select8 o = .ok a) : a < s.params.bufBytes := by
  unfold State.select8 State.windowEnd at h
  split at h
  · cases h
  split at h
  · have ha := Except.ok.inj h
    omega
  · cases h

/-- Everything an event can do, from a state from whose pending events it has been taken. -/
inductive Transition (s t : State) : Prop where
  /-- the port answers, and nothing else happens: a read, or a write without effect (R190 to R193, R207) -/
  | answer (resp : Response) (ht : t = { s with resp := resp })
  /-- a word issued by a write to `CMD` is executed (R25, R64) -/
  | command (i : Instr) (hs : s.Running) (ht : exec i { s with resp := .completed } = .next t)
  /-- a word that does not decode is issued (R67) -/
  | illegal (w : Word) (hs : s.Running)
      (ht : t = { s with resp := .completed }.faultEntry ⟨.illegalCmd, w⟩ w)
  /-- a write to another register (R191) -/
  | write (r : Reg) (v : Word) (hs : s.Running) (ht : t = { s with resp := .completed }.writeReg r v)
  /-- a write to a buffer byte (R193) -/
  | store (a : Nat) (v : Byte) (hs : s.Running) (ha : a < s.params.bufBytes)
      (ht : t = { s with mem := s.mem.store a v, resp := .completed })
  /-- a reset with power kept (R230) -/
  | reset (ht : t = s.resetRegisters)
  /-- a power-on reset (R230) -/
  | powerOn (ht : t = s.powerCycle)

/-- Issuing a word: ignored, executed, or a fault. -/
theorem issue_cases {w : Word} {s t : State} (h : issue w s = .next t) :
    (s.status.fault = true ∧ t = s) ∨
    (s.status.fault = false ∧ ∃ i, decode w = .ok i ∧ exec i s = .next t) ∨
    (s.status.fault = false ∧ (∃ e, decode w = .error e) ∧ t = s.faultEntry ⟨.illegalCmd, w⟩ w) := by
  cases hf : s.status.fault with
  | true => exact .inl ⟨rfl, by simpa [issue, hf] using h.symm⟩
  | false =>
    cases hd : decode w with
    | ok i => exact .inr (.inl ⟨rfl, i, rfl, by rwa [issue_of_decode_ok hf hd] at h⟩)
    | error e => exact .inr (.inr ⟨rfl, ⟨e, rfl⟩, by simpa [issue, hf, hd] using h.symm⟩)

theorem performWrite_transition {s t : State} {r : Reg} {v : Word}
    (h : { s with resp := .completed }.performWrite r v = .next t) : Transition s t := by
  unfold State.performWrite at h
  split at h
  · cases h
    exact .answer _ rfl
  next hf =>
    have hs : s.Running := Bool.eq_false_of_not_eq_true hf
    split at h
    · rcases issue_cases h with ⟨-, rfl⟩ | ⟨-, i, -, ht⟩ | ⟨-, -, rfl⟩
      · exact .answer _ rfl
      · exact .command i hs ht
      · exact .illegal v hs rfl
    all_goals
      cases h
      exact .write _ v hs rfl

theorem perform_transition {e : Event} {s t : State} (h : perform e s = .next t) : Transition s t := by
  cases e with
  | rd o =>
    simp only [perform] at h
    split at h <;> cases h
    exact .answer _ rfl
  | wr o v =>
    simp only [perform] at h
    split at h
    · exact performWrite_transition h
    · cases h
  | rdb o =>
    simp only [perform] at h
    split at h <;> cases h
    exact .answer _ rfl
  | wrb o v =>
    simp only [perform] at h
    split at h
    next a ha =>
      split at h <;> cases h
      · exact .answer _ rfl
      next hf => exact .store a v (Bool.eq_false_of_not_eq_true hf) (State.lt_of_select8_eq_ok ha) rfl
    · cases h
  | otherWidth o => cases h
  | reset => cases h; exact .reset rfl
  | powerOn => cases h; exact .powerOn rfl

/-- Every event that is not refused keeps the invariant. -/
theorem Transition.inv {s t : State} (h : Transition s t) (hs : s.Inv) : t.Inv := by
  have hanswer : { s with resp := .completed }.Inv := hs.congr rfl
  cases h with
  | answer resp ht => rw [ht]; exact hs.congr rfl
  | command i _ ht => exact exec_inv hanswer ht
  | illegal w _ ht => rw [ht]; exact hanswer.faultEntry _ w
  | write r v _ ht => rw [ht]; exact hanswer.writeReg r v
  | store a v _ ha ht =>
    subst t
    exact { hanswer with
      memCanonical := Memory.store_wf hs.memCanonical a v
      memWithin    := Memory.store_within hs.memWithin ha v }
  | reset ht => rw [ht]; exact hs.resetRegisters
  | powerOn ht => rw [ht]; exact hs.powerCycle

/-- Settles O16: an idle step keeps the state, and every event keeps the invariant. -/
theorem stepKeepsInvariant : Obligations.StepKeepsInvariant := by
  intro s t hs h
  unfold step at h
  split at h
  · cases h
    exact hs
  next e rest _ => exact (perform_transition h).inv (hs.congr rfl)

end Sys2Proof.Machine

namespace Sys2Proof.Machine

/-! Proofs about the buffer memory and the host's access to it (spec 20_memory.md): every command ends, which
transactions are refused, and which buffer bytes a command writes and reads. -/

/-- Settles O54: a command is its checks and then its effect, and both ways end in a next state. -/
theorem everyCommandEnds : Obligations.EveryCommandEnds := exec_next

/-! ### Refused transactions (R44, R45) -/

/-- The word indices without a register (R11). -/
theorem Reg.atIndex_eq_none {k : Nat} :
    Reg.atIndex k = none ↔ k = 7 ∨ (10 ≤ k ∧ k < 16) ∨ (36 ≤ k ∧ k < 64) ∨ 124 ≤ k := by
  simp only [Reg.atIndex, ite_eq_iff, reduceCtorEq, and_false, false_or, and_true]
  omega

/-- The word-aligned offsets of the register window without a register are the reserved ones (R11). -/
theorem Reg.atIndex_eq_none_iff_reserved {o : Nat} (ho : o < 0x1000) (ha : o % 4 = 0) :
    Reg.atIndex (o / 4) = none ↔ reservedOffset o := by
  rw [Reg.atIndex_eq_none, reservedOffset]
  omega

theorem refusedTransaction_rd {n o : Nat} :
    refusedTransaction n (.rd o) ↔ reservedOffset o ∨ o % 4 ≠ 0 ∨ 0x1000 ≤ o := Iff.rfl

theorem refusedTransaction_rdb {n o : Nat} :
    refusedTransaction n (.rdb o) ↔ o < 0x1000 ∨ 0x1000 + n ≤ o := Iff.rfl

/-- A 32-bit transaction at a register's offset reaches it, and at any other offset it is refused. -/
theorem State.select32_cases (s : State) (o : Nat) :
    (refusedTransaction s.params.bufBytes (.rd o) ∧ ∃ why, s.select32 o = .error why) ∨
    (¬ refusedTransaction s.params.bufBytes (.rd o) ∧ ∃ r, s.select32 o = .ok r) := by
  rw [refusedTransaction_rd]
  unfold State.select32 bufferBase
  split
  next hlo =>
    split
    next ha =>
      have hres := Reg.atIndex_eq_none_iff_reserved hlo ha
      cases hr : Reg.atIndex (o / 4) with
      | none => exact .inl ⟨.inl (hres.mp hr), _, rfl⟩
      | some r =>
        have hno : ¬ reservedOffset o := fun h => by simp [hres.mpr h] at hr
        exact .inr ⟨by simp only [hno, false_or]; omega, r, rfl⟩
    next ha => exact .inl ⟨.inr (.inl ha), _, rfl⟩
  next hhi =>
    have href : 0x1000 ≤ o := Nat.le_of_not_lt hhi
    split <;> exact .inl ⟨.inr (.inr href), _, rfl⟩

/-- An 8-bit transaction in the buffer window reaches its byte, and at any other offset it is refused. -/
theorem State.select8_cases (s : State) (o : Nat) :
    (refusedTransaction s.params.bufBytes (.rdb o) ∧ ∃ why, s.select8 o = .error why) ∨
    (¬ refusedTransaction s.params.bufBytes (.rdb o) ∧ ∃ a, s.select8 o = .ok a) := by
  rw [refusedTransaction_rdb]
  unfold State.select8 State.windowEnd bufferBase
  split
  next hlo => exact .inl ⟨.inl hlo, _, rfl⟩
  next hlo =>
    split
    next hhi => exact .inr ⟨by omega, _, rfl⟩
    next hhi => exact .inl ⟨.inr (Nat.le_of_not_lt hhi), _, rfl⟩

/-- Issuing a word never stops the model. -/
theorem issue_next (w : Word) (s : State) : ∃ t, issue w s = .next t := by
  unfold issue
  split
  · exact ⟨_, rfl⟩
  split
  · exact exec_next _ _
  · exact ⟨_, rfl⟩

/-- A write that reaches a register completes (R191). -/
theorem State.performWrite_next (s : State) (r : Reg) (v : Word) : ∃ t, s.performWrite r v = .next t := by
  unfold State.performWrite
  split
  · exact ⟨_, rfl⟩
  cases r with
  | cmd => exact issue_next v s
  | _ => exact ⟨_, rfl⟩

/-- An event stops the model with a bus error when it is a refused transaction, and else has a next state. -/
theorem perform_cases (e : Event) (s : State) :
    (refusedTransaction s.params.bufBytes e ∧ ∃ why o, perform e s = .fault (.busError why o)) ∨
    (¬ refusedTransaction s.params.bufBytes e ∧ ∃ t, perform e s = .next t) := by
  cases e with
  | rd o =>
    rcases s.select32_cases o with ⟨href, why, hs⟩ | ⟨href, r, hs⟩
    · exact .inl ⟨href, why, o, by simp [perform, hs]⟩
    · exact .inr ⟨href, by simp [perform, hs]⟩
  | wr o v =>
    rcases s.select32_cases o with ⟨href, why, hs⟩ | ⟨href, r, hs⟩
    · exact .inl ⟨href, why, o, by simp [perform, hs]⟩
    · exact .inr ⟨href, by simpa [perform, hs] using State.performWrite_next _ r v⟩
  | rdb o =>
    rcases s.select8_cases o with ⟨href, why, hs⟩ | ⟨href, a, hs⟩
    · exact .inl ⟨href, why, o, by simp [perform, hs]⟩
    · exact .inr ⟨href, by simp [perform, hs]⟩
  | wrb o v =>
    rcases s.select8_cases o with ⟨href, why, hs⟩ | ⟨href, a, hs⟩
    · exact .inl ⟨href, why, o, by simp [perform, hs]⟩
    · refine .inr ⟨href, ?_⟩
      simp only [perform, hs]
      split <;> exact ⟨_, rfl⟩
  | otherWidth o => exact .inl ⟨trivial, _, o, rfl⟩
  | reset => exact .inr ⟨id, _, rfl⟩
  | powerOn => exact .inr ⟨id, _, rfl⟩

/-- Settles O12: a step with an event pending performs it, and a refused one stops the model. -/
theorem refusedTransactionsHaveNoStep : Obligations.RefusedTransactionsHaveNoStep := by
  intro s e rest hp
  have hstep : step s = perform e { s with pending := rest } := by simp [step, hp]
  rw [hstep]
  rcases perform_cases e { s with pending := rest } with ⟨href, hf⟩ | ⟨href, hn⟩
  · exact ⟨fun _ => hf, fun h => absurd href h⟩
  · exact ⟨fun h => absurd h href, fun _ => hn⟩

/-! ### The bytes a command writes (R46) -/

@[simp] theorem State.bufByte_complete (s : State) (c : ResultCode) : (s.complete c).bufByte = s.bufByte :=
  State.bufByte_of_mem rfl rfl

/-- The blocks of the buffer lie inside its `BUFLEN` bytes (R150). -/
theorem State.blocks_le_buflen (s : State) : 16 * (0 + s.blocks) ≤ s.buflen.toNat := by
  unfold State.blocks
  omega

/-- The pad region is `BUF[MLEN .. BUFLEN-1]`, and empty when `MLEN` is beyond `BUFLEN` (R175). -/
theorem State.bufByte_padFill_eq (s : State) (b : Nat) :
    s.padFill.bufByte b =
      if s.mlen.toNat ≤ b ∧ b < s.buflen.toNat then BitVec.ofNat 8 s.padLength else s.bufByte b := by
  have hregion : s.mlen.toNat ≤ b ∧ b < s.mlen.toNat + s.padLength ↔ s.mlen.toNat ≤ b ∧ b < s.buflen.toNat := by
    unfold State.padLength
    omega
  rw [State.bufByte_padFill]
  exact if_congr hregion rfl rfl

/-- Padding writes no byte from `BUFLEN` on. -/
theorem State.bufByte_applyPad_of_le {s : State} {b : Nat} (h : s.buflen.toNat ≤ b) (p : PadSelect) :
    (s.applyPad p).bufByte b = s.bufByte b := by
  cases p with
  | noPad => rfl
  | pkcs7 => exact (s.bufByte_padFill_eq b).trans (if_neg (by omega))

/-- A command that completes changes no byte outside its written range. -/
theorem effectOf_sameBufferOutside (i : Instr) (s : State) :
    SameBufferOutside (writtenRange i s).1 (writtenRange i s).2 s (effectOf i s) := by
  have hblocks := s.blocks_le_buflen
  intro b hb
  have hmode (hw : writtenRange i s = (0, s.buflen.toNat)) : s.buflen.toNat ≤ b := by simpa [hw] using hb
  cases i with
  | kexpOther n =>
    rcases effectOf_kexpOther n s with he | ⟨k, -, he⟩ <;> rw [he]
    exact congrFun (State.bufByte_of_mem rfl rfl) b
  | encblkm off | decblkm off =>
    simp only [effectOf, State.bufByte_complete, State.bufByte_processBlock]
    exact State.bufByte_storeBlock_of_outside hb
  | ecbenc p =>
    have hle := hmode rfl
    obtain ⟨-, -, hkeep, -⟩ := ecbLoop_spec s.encrypt s.blocks 0 (s.applyPad p)
    simp only [effectOf, State.bufByte_complete]
    rw [hkeep b (by omega), State.bufByte_applyPad_of_le hle]
  | ecbdec =>
    have hle := hmode rfl
    obtain ⟨-, -, hkeep, -⟩ := ecbLoop_spec s.decrypt s.blocks 0 s
    simp only [effectOf, State.bufByte_complete]
    exact hkeep b (by omega)
  | cbcenc p =>
    have hle := hmode rfl
    obtain ⟨-, -, hkeep, -⟩ := cbcEncLoop_spec s.encrypt s.blocks 0 s.iv (s.applyPad p)
    simp only [effectOf, State.bufByte_complete]
    rw [hkeep b (by omega), State.bufByte_applyPad_of_le hle]
  | cbcdec =>
    have hle := hmode rfl
    obtain ⟨-, -, hkeep, -⟩ := cbcDecLoop_spec s.decrypt s.blocks 0 s.iv s
    simp only [effectOf, State.bufByte_complete]
    exact hkeep b (by omega)
  | pad =>
    simp only [effectOf, State.bufByte_complete, State.bufByte_padFill_eq]
    exact if_neg (by simp only [writtenRange] at hb; omega)
  | _ => exact congrFun (State.bufByte_of_mem rfl rfl) b

/-- Settles O58: an ignored or faulting command stores nothing, and one that completes leaves `FAULT` clear and stores
inside its range. -/
theorem bufferBytesWritten : Obligations.BufferBytesWritten := by
  intro i s t h
  rcases exec_cases h with ⟨-, rfl⟩ | ⟨-, r, -, rfl⟩ | ⟨hf, -, rfl⟩
  · exact ⟨fun _ _ => rfl, fun _ _ => rfl⟩
  · exact ⟨fun _ _ => rfl, fun _ _ => rfl⟩
  · refine ⟨effectOf_sameBufferOutside i s, fun ht => ?_⟩
    rw [(effectOf_fault i s).1, hf] at ht
    exact nomatch ht

/-- Storing a block and leaving a block in `STATE`, in two updates. -/
theorem State.storeBlock_setState (s : State) (a : Nat) (B S : Block) :
    ({ s with mem := (s.storeBlock a B).mem, state := S } : State) = { s.storeBlock a B with state := S } := by
  simp

/-! ### States that agree on a set of buffer bytes -/

/-- `s` and `s'` hold the same registers, and the same buffer bytes at the addresses of `R`. -/
structure AgreeOn (R : Nat → Prop) (s s' : State) : Prop where
  regs  : s' = { s with mem := s'.mem }
  bytes : ∀ a, R a → s'.bufByte a = s.bufByte a

/-- `u` writes registers only, and what it writes does not depend on the buffer memory. -/
def RegisterUpdate (u : State → State) : Prop :=
  ∀ (s : State) (m : Memory), u { s with mem := m } = { u s with mem := m, powerOns := s.powerOns }

theorem registerUpdate_complete (c : ResultCode) : RegisterUpdate (State.complete · c) := fun _ _ => rfl

theorem registerUpdate_faultEntry (r : Raise) (w : Word) : RegisterUpdate (State.faultEntry · r w) := fun _ _ => rfl

theorem registerUpdate_outlen (n : Word) : RegisterUpdate fun s => { s with outlen := n } := fun _ _ => rfl

theorem registerUpdate_kexpOther (n : BitVec 8) : RegisterUpdate (effectOf (.kexpOther n)) := by
  intro s m
  simp only [effectOf]
  cases KeySize.ofKlen n.toNat <;> rfl

theorem RegisterUpdate.mem_eq {u : State → State} (hu : RegisterUpdate u) (s : State) : (u s).mem = s.mem :=
  congrArg (·.mem) (hu s s.mem :)

theorem RegisterUpdate.powerOns_eq {u : State → State} (hu : RegisterUpdate u) (s : State) :
    (u s).powerOns = s.powerOns :=
  congrArg (·.powerOns) (hu s s.mem :)

theorem RegisterUpdate.bufByte_eq {u : State → State} (hu : RegisterUpdate u) (s : State) :
    (u s).bufByte = s.bufByte :=
  State.bufByte_of_mem (hu.mem_eq s) (hu.powerOns_eq s)

section
variable {R : Nat → Prop} {s s' : State} (h : AgreeOn R s s')
include h

theorem AgreeOn.mono {Q : Nat → Prop} (hQ : ∀ a, Q a → R a) : AgreeOn Q s s' :=
  ⟨h.regs, fun a ha => h.bytes a (hQ a ha)⟩

/-- What does not read the buffer memory is the same on both states. -/
theorem AgreeOn.congr {α : Sort _} {g : State → α} (hg : ∀ (s : State) (m : Memory), g { s with mem := m } = g s) :
    g s' = g s := by
  rw [h.regs, hg]

theorem AgreeOn.iv_eq : s'.iv = s.iv := h.congr fun _ _ => rfl

theorem AgreeOn.buflen_eq : s'.buflen = s.buflen := h.congr fun _ _ => rfl

theorem AgreeOn.blocks_eq : s'.blocks = s.blocks := h.congr fun _ _ => rfl

theorem AgreeOn.encrypt_eq : s'.encrypt = s.encrypt := h.congr fun _ _ => rfl

theorem AgreeOn.decrypt_eq : s'.decrypt = s.decrypt := h.congr fun _ _ => rfl

theorem AgreeOn.fault_eq : s'.status.fault = s.status.fault := h.congr (g := fun s => s.status.fault) fun _ _ => rfl

/-- A register update on both states keeps their agreement. -/
theorem AgreeOn.update {u : State → State} (hu : RegisterUpdate u) : AgreeOn R (u s) (u s') where
  regs := by
    rw [hu.mem_eq s']
    conv_lhs => rw [h.regs, hu]
    rw [← hu.powerOns_eq s]
  bytes a ha := by
    rw [hu.bufByte_eq, hu.bufByte_eq]
    exact h.bytes a ha

/-- Storing the same bytes at the same address on both states makes them agree there too. -/
theorem AgreeOn.memWrite (a : Nat) (v : List Byte) :
    AgreeOn (fun b => R b ∨ (a ≤ b ∧ b < a + v.length)) (s.memWrite a v) (s'.memWrite a v) where
  regs := by
    conv_lhs => rw [State.memWrite, h.regs]
    rfl
  bytes b hb := by
    rw [State.bufByte_memWrite, State.bufByte_memWrite]
    split
    next => rfl
    next hout => exact h.bytes b (hb.resolve_right hout)

theorem AgreeOn.loadBlock_eq {a : Nat} (ha : ∀ i, i < 16 → R (a + i)) : s'.loadBlock a = s.loadBlock a :=
  State.loadBlock_congr fun i hi => h.bytes _ (ha i hi)

theorem AgreeOn.storeBlock (a : Nat) (B : Block) : AgreeOn R (s.storeBlock a B) (s'.storeBlock a B) := by
  unfold State.storeBlock
  exact (h.memWrite a (wordsToBlock B)).mono fun _ hb => .inl hb

theorem AgreeOn.setState (S : Block) : AgreeOn R { s with state := S } { s' with state := S } :=
  h.update (u := fun s => { s with state := S }) fun _ _ => rfl

theorem AgreeOn.processBlock {a : Nat} (ha : ∀ i, i < 16 → R (a + i)) (f : Block → Block) :
    AgreeOn R (s.processBlock f a) (s'.processBlock f a) := by
  unfold State.processBlock
  rw [h.loadBlock_eq ha, State.storeBlock_setState, State.storeBlock_setState]
  exact (h.storeBlock a _).setState _

end

/-! The block loops keep the agreement on a range that holds their blocks. -/

theorem ecbLoop_agreeOn {N : Nat} (f : Block → Block) (n i : Nat) {s s' : State} (hN : 16 * (i + n) ≤ N)
    (h : AgreeOn (· < N) s s') : AgreeOn (· < N) (ecbLoop f n i s) (ecbLoop f n i s') := by
  induction n generalizing i s s' with
  | zero => exact h
  | succ n ih => exact ih (i + 1) (by omega) (h.processBlock (fun j hj => by omega) f)

theorem cbcEncLoop_agreeOn {N : Nat} (f : Block → Block) (n i : Nat) (prev : Block) {s s' : State}
    (hN : 16 * (i + n) ≤ N) (h : AgreeOn (· < N) s s') :
    AgreeOn (· < N) (cbcEncLoop f n i prev s) (cbcEncLoop f n i prev s') := by
  induction n generalizing i prev s s' with
  | zero => exact h
  | succ n ih =>
    have hblock : ∀ j, j < 16 → 16 * i + j < N := fun j hj => by omega
    simp only [cbcEncLoop, h.loadBlock_eq hblock]
    exact ih (i + 1) _ (by omega) (h.processBlock hblock _)

theorem cbcDecLoop_agreeOn {N : Nat} (f : Block → Block) (n i : Nat) (prev : Block) {s s' : State}
    (hN : 16 * (i + n) ≤ N) (h : AgreeOn (· < N) s s') :
    AgreeOn (· < N) (cbcDecLoop f n i prev s) (cbcDecLoop f n i prev s') := by
  induction n generalizing i prev s s' with
  | zero => exact h
  | succ n ih =>
    have hblock : ∀ j, j < 16 → 16 * i + j < N := fun j hj => by omega
    simp only [cbcDecLoop, h.loadBlock_eq hblock, State.storeBlock_setState]
    exact ih (i + 1) _ (by omega) ((h.storeBlock _ _).setState _)

/-! ### The bytes a command reads (R46) -/

/-- `PadFill` makes the states agree on the pad region, whatever they held there (R175). -/
theorem AgreeOn.padFill {R : Nat → Prop} {s s' : State} (h : AgreeOn R s s') :
    AgreeOn (fun b => R b ∨ (s.mlen.toNat ≤ b ∧ b < s.buflen.toNat)) s.padFill s'.padFill := by
  have hfill : s'.padFill = s'.memWrite s.mlen.toNat (List.replicate s.padLength (BitVec.ofNat 8 s.padLength)) := by
    rw [State.padFill, h.congr (g := State.mlen) fun _ _ => rfl, h.congr (g := State.padLength) fun _ _ => rfl]
  rw [hfill]
  refine (h.memWrite _ _).mono fun b hb => hb.imp_right fun hr => ?_
  rw [List.length_replicate, State.padLength]
  omega

/-- Once the selected padding is applied, the states agree on the whole buffer of the command. -/
theorem AgreeOn.applyPad {p : PadSelect} {s s' : State} (h : AgreeOn (readsByte (.ecbenc p) s) s s') :
    AgreeOn (· < s.buflen.toNat) (s.applyPad p) (s'.applyPad p) := by
  cases p with
  | noPad => exact h
  | pkcs7 =>
    refine h.padFill.mono fun b hb => ?_
    show b < s.mlen.toNat ∨ _
    omega

/-- When the checks of an unpad command pass, the buffer is not empty (R177, R178). -/
theorem buflen_ne_zero_of_checks {s : State} {checks : List (Option Raise)} (h : firstRaise checks = none)
    (hmem : bufferNonempty s ∈ checks) : s.buflen.toNat ≠ 0 := by
  simpa [bufferNonempty, failWhen_eq_none] using firstRaise_eq_none.mp h _ hmem

/-- Of a buffer that is not empty the unpad commands read the last byte (R177, R178). -/
theorem AgreeOn.padByte_eq {R : Nat → Prop} {s s' : State} (h : AgreeOn R s s') (hne : s.buflen.toNat ≠ 0)
    (hR : ∀ a, a + 1 = s.buflen.toNat → R a) : s'.padByte = s.padByte := by
  rw [State.padByte, h.buflen_eq]
  exact h.bytes _ (hR _ (by omega))

theorem AgreeOn.unpaddedLength_eq {R : Nat → Prop} {s s' : State} (h : AgreeOn R s s') (hp : s'.padByte = s.padByte) :
    s'.unpaddedLength = s.unpaddedLength := by
  rw [State.unpaddedLength, State.unpaddedLength, hp, h.buflen_eq]

/-- The checks of the unpad commands on the pad byte come after `EMPTY_BUFFER`, so they matter only for a buffer that
is not empty (R177, R178). -/
theorem AgreeOn.firstRaise_unpad {R : Nat → Prop} {s s' : State} (h : AgreeOn R s s')
    (hR : ∀ a, a + 1 = s.buflen.toNat → R a) {rest : State → List (Option Raise)}
    (hrest : s'.padByte = s.padByte → rest s' = rest s) :
    firstRaise (bufferInBuf s' :: bufferNonempty s' :: rest s') =
      firstRaise (bufferInBuf s :: bufferNonempty s :: rest s) := by
  rw [h.congr (g := bufferInBuf) fun _ _ => rfl, h.congr (g := bufferNonempty) fun _ _ => rfl]
  by_cases he : s.buflen.toNat = 0
  · cases bufferInBuf s <;> simp [bufferNonempty, he]
  · rw [hrest (h.padByte_eq he hR)]

/-- The checks of a command read no byte outside the range it reads (R46). -/
theorem AgreeOn.firstRaise_checksRun {i : Instr} {s s' : State} (h : AgreeOn (readsByte i s) s s') :
    firstRaise (checksRun i s') = firstRaise (checksRun i s) := by
  have hregs (hi : ∀ (s : State) (m : Memory), checksRun i { s with mem := m } = checksRun i s) :
      firstRaise (checksRun i s') = firstRaise (checksRun i s) := congrArg firstRaise (h.congr hi)
  cases i with
  | unpad =>
    exact h.firstRaise_unpad (rest := fun s => [padByteInRange s, padFitsBuffer s]) (fun _ ha => ha) fun hp => by
      simp only [padByteInRange, padFitsBuffer, hp, h.buflen_eq]
  | unpadchk =>
    exact h.firstRaise_unpad (rest := fun s => [padFitsBufferChecked s]) (fun _ ha => .inl ha) fun hp => by
      simp only [padFitsBufferChecked, padFitsBuffer, hp, h.buflen_eq]
  | ecbenc p | cbcenc p => cases p <;> exact hregs fun _ _ => rfl
  | _ => exact hregs fun _ _ => rfl

/-- When the checks of `UNPADCHK` pass, a pad length of 1 to 16 fits the buffer (R178). -/
theorem padByte_le_of_checks {s : State} (h : firstRaise (checksRun .unpadchk s) = none)
    (hp : 1 ≤ s.padByte.toNat ∧ s.padByte.toNat ≤ 16) : s.padByte.toNat ≤ s.buflen.toNat := by
  have hfits : padFitsBufferChecked s = none := firstRaise_eq_none.mp h _ (by simp [checksRun])
  rw [padFitsBufferChecked_eq, failWhen_eq_none] at hfits
  simpa [hp] using hfits

/-- The verdict of `UNPADCHK` reads the pad bytes only when the pad length is 1 to 16 (R178). -/
theorem AgreeOn.unpadVerdict_eq {s s' : State} (h : AgreeOn (readsByte .unpadchk s) s s')
    (hc : firstRaise (checksRun .unpadchk s) = none) (hp : s'.padByte = s.padByte) :
    s'.unpadVerdict = s.unpadVerdict := by
  have hparams : s'.params = s.params := h.congr fun _ _ => rfl
  unfold State.unpadVerdict
  rw [hp, hparams]
  split
  next => rfl
  next hle =>
    split
    next => rfl
    next hz =>
      have hone : 1 ≤ s.padByte.toNat := Nat.pos_of_ne_zero (mt (toNat_eq_zero_iff _).mp hz)
      have hmax : s.padByte.toNat ≤ 16 := Nat.le_of_not_lt hle
      have hfits := padByte_le_of_checks hc ⟨hone, hmax⟩
      have hread : s'.memRead (s.buflen.toNat - s.padByte.toNat) s.padByte.toNat =
          s.memRead (s.buflen.toNat - s.padByte.toNat) s.padByte.toNat :=
        State.memRead_congr fun j hj => h.bytes _ (.inr ⟨hone, hmax, hfits, Nat.le_add_right _ _, by omega⟩)
      rw [State.padMismatch, State.padMismatch, hp, h.buflen_eq, hread]

/-- The byte at `a` is in the range that the command writes. -/
def writesByte (i : Instr) (s : State) (a : Nat) : Prop :=
  (writtenRange i s).1 ≤ a ∧ a < (writtenRange i s).1 + (writtenRange i s).2

/-- A command that completes on states that agree on the bytes it reads leaves them in agreement on the bytes it
writes. -/
theorem effectOf_agreeOn {i : Instr} {s s' : State} (h : AgreeOn (readsByte i s) s s')
    (hc : firstRaise (checksRun i s) = none) : AgreeOn (writesByte i s) (effectOf i s) (effectOf i s') := by
  have hle := s.blocks_le_buflen
  have hmode (hw : writtenRange i s = (0, s.buflen.toNat)) : ∀ a, writesByte i s a → a < s.buflen.toNat :=
    fun a ha => by simpa [writesByte, hw] using ha
  have hnone (hw : writtenRange i s = (0, 0)) {t t' : State} (ht : AgreeOn (readsByte i s) t t') :
      AgreeOn (writesByte i s) t t' := ht.mono fun a ha => by simp [writesByte, hw] at ha
  cases i with
  | encblkm off =>
    simp only [effectOf, h.encrypt_eq]
    exact (h.processBlock (fun j hj => ⟨by omega, by omega⟩) _).update (registerUpdate_complete _)
  | decblkm off =>
    simp only [effectOf, h.decrypt_eq]
    exact (h.processBlock (fun j hj => ⟨by omega, by omega⟩) _).update (registerUpdate_complete _)
  | ecbenc p =>
    simp only [effectOf, h.encrypt_eq, h.blocks_eq]
    exact ((ecbLoop_agreeOn _ _ _ hle h.applyPad).update (registerUpdate_complete _)).mono (hmode rfl)
  | ecbdec =>
    simp only [effectOf, h.decrypt_eq, h.blocks_eq]
    exact ((ecbLoop_agreeOn _ _ _ hle h).update (registerUpdate_complete _)).mono (hmode rfl)
  | cbcenc p =>
    have hpad : AgreeOn (· < s.buflen.toNat) (s.applyPad p) (s'.applyPad p) :=
      (h.mono fun a ha => by cases p <;> exact ha).applyPad
    simp only [effectOf, h.encrypt_eq, h.blocks_eq, h.iv_eq]
    exact ((cbcEncLoop_agreeOn _ _ _ _ hle hpad).update (registerUpdate_complete _)).mono (hmode rfl)
  | cbcdec =>
    simp only [effectOf, h.decrypt_eq, h.blocks_eq, h.iv_eq]
    exact ((cbcDecLoop_agreeOn _ _ _ _ hle h).update (registerUpdate_complete _)).mono (hmode rfl)
  | pad =>
    refine (h.padFill.update (registerUpdate_complete .ok)).mono fun a ha => .inr ?_
    simp only [writesByte, writtenRange] at ha
    omega
  | unpad =>
    have hp := h.padByte_eq (buflen_ne_zero_of_checks (s := s) hc (by simp [checksRun])) fun _ ha => ha
    simp only [effectOf, h.unpaddedLength_eq hp]
    exact hnone rfl ((h.update (registerUpdate_outlen _)).update (registerUpdate_complete _))
  | unpadchk =>
    have hp := h.padByte_eq (buflen_ne_zero_of_checks (s := s) hc (by simp [checksRun])) fun _ ha => .inl ha
    simp only [effectOf, State.checkedLength, h.unpadVerdict_eq hc hp, h.unpaddedLength_eq hp]
    exact hnone rfl ((h.update (registerUpdate_outlen _)).update (registerUpdate_complete _))
  | kexpOther n => exact hnone rfl (h.update (registerUpdate_kexpOther n))
  | _ => exact hnone rfl (h.update (u := effectOf _) fun _ _ => rfl)

/-- A command on two states that agree on the bytes it reads: both runs are ignored, both take the same fault, or both
complete. -/
theorem exec_agreeOn {i : Instr} {s s' t t' : State} (h : AgreeOn (readsByte i s) s s') (ht : exec i s = .next t)
    (ht' : exec i s' = .next t') : AgreeOn (fun a => t.status.fault = false ∧ writesByte i s a) t t' := by
  have hchecks := h.firstRaise_checksRun
  have hfault := h.fault_eq
  rw [exec_eq] at ht'
  rcases exec_cases ht with ⟨hf, rfl⟩ | ⟨hf, r, hr, rfl⟩ | ⟨hf, hr, rfl⟩
  · rw [runCommand_frozen (hfault.trans hf)] at ht'
    cases ht'
    exact h.mono fun a ha => by simp [hf] at ha
  · rw [runCommand_fault (hfault.trans hf) (hchecks.trans hr)] at ht'
    cases ht'
    exact (h.update (registerUpdate_faultEntry r _)).mono fun a ha => by simp at ha
  · rw [runCommand_done (hfault.trans hf) (hchecks.trans hr)] at ht'
    cases ht'
    exact (effectOf_agreeOn h hr).mono fun a ha => ha.2

/-- Settles O59: the two runs do the same thing, and neither stores outside the written range, which the registers
give. -/
theorem bufferBytesRead : Obligations.BufferBytesRead := by
  intro i s s' t t' hregs hbytes ht ht'
  have h : AgreeOn (readsByte i s) s s' := ⟨hregs, hbytes⟩
  have hrange : writtenRange i s' = writtenRange i s := h.congr (g := writtenRange i) fun _ _ => by cases i <;> rfl
  obtain ⟨hregs', hbytes'⟩ := exec_agreeOn h ht ht'
  refine ⟨hregs', fun hf a hlo hhi => hbytes' a ⟨hf, hlo, hhi⟩, ?_⟩
  rw [← hrange]
  exact (bufferBytesWritten i s' t' ht').1

end Sys2Proof.Machine

namespace Sys2Proof

/-! Proofs about command words and the assembler (spec 30_encoding.md): decoding and encoding are inverse to each
other, the opcode table selects what decodes, and what the lines of R69 and R70 assemble to. -/

/-! ### Fields that an argument is made of (R61) -/

@[simp] theorem rndField_argR (rnd : BitVec 4) : rndField (argR rnd) = rnd :=
  BitVec.extractLsb'_append_eq_right

@[simp] theorem mustBeZero_argR (rnd : BitVec 4) : (argR rnd).extractLsb' 4 20 = 0#20 :=
  BitVec.extractLsb'_append_eq_left

@[simp] theorem klenField_argK (klen : BitVec 8) : klenField (argK klen) = klen :=
  BitVec.extractLsb'_append_eq_right

@[simp] theorem mustBeZero_argK (klen : BitVec 8) : (argK klen).extractLsb' 8 16 = 0#16 :=
  BitVec.extractLsb'_append_eq_left

@[simp] theorem padField_argP (p : PadSelect) : padField (argP p) = p := by
  cases p <;> rfl

@[simp] theorem mustBeZero_argP (p : PadSelect) : (argP p).extractLsb' 1 23 = 0#23 :=
  BitVec.extractLsb'_append_eq_left

theorem argR_rndField {arg : BitVec 24} (h : arg.extractLsb' 4 20 = 0#20) : argR (rndField arg) = arg :=
  (eq_zero_append arg rfl h).symm

theorem argK_klenField {arg : BitVec 24} (h : arg.extractLsb' 8 16 = 0#16) : argK (klenField arg) = arg :=
  (eq_zero_append arg rfl h).symm

/-- Every padding bit is the bit of a selector. -/
theorem padBit_ite (b : BitVec 1) : padBit (if b = 1#1 then .pkcs7 else .noPad) = b := by
  revert b
  decide

theorem argP_padField {arg : BitVec 24} (h : arg.extractLsb' 1 23 = 0#23) : argP (padField arg) = arg := by
  rw [argP, padField, padBit_ite]
  exact (eq_zero_append arg rfl h).symm

/-! ### From commands to words and back (R64, R66) -/

@[simp] theorem whenZero_zero (n : Nat) (w : Word) (i : Instr) : whenZero w 0#n i = .ok i := if_pos rfl

theorem whenZero_eq_ok {n : Nat} {w : Word} {mbz : BitVec n} {i j : Instr} (h : whenZero w mbz i = .ok j) :
    mbz = 0#n ∧ i = j := by
  unfold whenZero at h
  split at h
  next hz => exact ⟨hz, Except.ok.inj h⟩
  next => cases h

theorem kexpRow_of_wellFormed {klen : BitVec 8} (h : (Instr.kexpOther klen).wellFormed = true) :
    kexpRow klen = .kexpOther klen := by
  have hk : klen ≠ 16#8 ∧ klen ≠ 24#8 ∧ klen ≠ 32#8 := by simpa [Instr.wellFormed, legalKeyLengths] using h
  simp [kexpRow, hk]

theorem wellFormed_kexpRow (klen : BitVec 8) : (kexpRow klen).wellFormed = true := by
  revert klen
  decide +kernel

/-- The four rows of `KEXP` have the one word form `0x20000000 | KLEN` (R66). -/
theorem encode_kexpRow (klen : BitVec 8) : encode (kexpRow klen) = wordOf 0x20 (argK klen) := by
  unfold kexpRow
  split
  next h => rw [h]; rfl
  split
  next h => rw [h]; rfl
  split
  next h => rw [h]; rfl
  next => rfl

/-- The word of a `KEXP` decodes to the row of its key length, whichever of the four rows it is the word of. -/
theorem decode_encode_kexpOther (klen : BitVec 8) : decode (encode (.kexpOther klen)) = .ok (kexpRow klen) := by
  simp [encode, decode, opField_wordOf, argField_wordOf]

/-- Settles O1: opcode and argument are read back from the word, and the fields from the argument; the catch-all
`KEXP` is its own row because its length is not a legal one. -/
theorem decodeInvertsEncode : Obligations.DecodeInvertsEncode := by
  intro i hw
  cases i with
  | kexpOther klen => rw [decode_encode_kexpOther, kexpRow_of_wellFormed hw]
  | addrk | encblkm | decblkm | ecbenc | cbcenc => simp [encode, decode, opField_wordOf, argField_wordOf]
  | _ => rfl

/-- A word is the word of an opcode and an argument when its fields are these (R60). -/
theorem wordOf_eq {w : Word} {op : BitVec 8} {arg : BitVec 24} (ho : (opField w).toNat = op.toNat)
    (ha : arg = argField w) : wordOf op arg = w := by
  rw [← BitVec.eq_of_toNat_eq ho, ha, wordOf_fields]

/-- A word that is accepted in format N is the word of the command it is accepted as. -/
theorem encode_of_formatN {w : Word} {i j : Instr} {op : BitVec 8} (h : formatN w i = .ok j)
    (hw : i.wellFormed = true) (he : encode i = wordOf op 0) (ho : (opField w).toNat = op.toNat) :
    j.wellFormed = true ∧ encode j = w := by
  obtain ⟨hz, rfl⟩ := whenZero_eq_ok h
  exact ⟨hw, he.trans (wordOf_eq ho hz.symm)⟩

/-- Settles O2: in each branch of the decoder the opcode is the command's, and the argument is made of the command's
fields once its must-be-zero part is zero. -/
theorem encodeInvertsDecode : Obligations.EncodeInvertsDecode := by
  intro w i h
  unfold decode at h
  split at h <;> rename_i ho
  case h_8 => -- `ADDRK`
    obtain ⟨hz, rfl⟩ := whenZero_eq_ok h
    exact ⟨rfl, wordOf_eq ho (argR_rndField hz)⟩
  case h_9 => -- `KEXP`
    obtain ⟨hz, rfl⟩ := whenZero_eq_ok h
    exact ⟨wellFormed_kexpRow _, (encode_kexpRow _).trans (wordOf_eq ho (argK_klenField hz))⟩
  case h_13 | h_14 => -- `ENCBLKM`, `DECBLKM`
    cases h
    exact ⟨rfl, wordOf_eq ho rfl⟩
  case h_15 | h_18 => -- `ECBENC`, `CBCENC`
    obtain ⟨hz, rfl⟩ := whenZero_eq_ok h
    exact ⟨rfl, wordOf_eq ho (argP_padField hz)⟩
  case h_23 => cases h -- an unassigned opcode
  all_goals exact encode_of_formatN h rfl rfl ho

/-! ### The opcode table (R66) -/

/-- The rows of the table are those of the commands. -/
theorem exists_rowOf_eq_of_mem : ∀ r ∈ opcodeTable, ∃ i, rowOf i = r := by
  simp [opcodeTable]

theorem rowOf_mem_opcodeTable (i : Instr) : rowOf i ∈ opcodeTable := by
  cases i <;> simp [opcodeTable, rowOf]

/-- The word of a command selects its row. -/
theorem rowOf_selects_encode (i : Instr) : (rowOf i).selects (encode i) := by
  cases i with
  | addrk rnd => exact Laws.EncodingRow.addrk rnd
  | kexpOther klen => exact Laws.EncodingRow.kexpOther klen
  | encblkm off => exact Laws.EncodingRow.encblkm off
  | decblkm off => exact Laws.EncodingRow.decblkm off
  | ecbenc p => exact Laws.EncodingRow.ecbenc p
  | cbcenc p => exact Laws.EncodingRow.cbcenc p
  | _ => rfl

/-- A word of opcode and argument is the argument's bits set in the opcode's word. -/
theorem wordOf_eq_or (op : BitVec 8) (arg : BitVec 24) : wordOf op arg = wordOf op 0 ||| arg.setWidth 32 := by
  apply BitVec.eq_of_getLsbD_eq
  intro i hi
  simp only [wordOf, BitVec.getLsbD_or, BitVec.getLsbD_append, BitVec.getLsbD_setWidth]
  by_cases h : i < 24
  · simp [h, hi]
  · simp [h, BitVec.getLsbD_of_ge arg i (Nat.le_of_not_lt h)]

/-- An operand widened with zeros to an argument and then to a word is the operand as a word. -/
theorem setWidth_zero_append {m n : Nat} (v : BitVec n) : (0#m ++ v).setWidth 32 = v.setWidth 32 := by
  apply BitVec.eq_of_getLsbD_eq
  intro i hi
  simp only [BitVec.getLsbD_append, BitVec.getLsbD_setWidth]
  by_cases h : i < n
  · simp [h]
  · simp [h, BitVec.getLsbD_of_ge v i (Nat.le_of_not_lt h)]

/-- A word that selects a row with `n` operand bits is the row's pattern with the operand set in it. -/
theorem eq_pattern_or {p w : Word} (n : Nat) (h : w &&& (BitVec.allOnes 32 <<< n) = p) :
    w = p ||| (w.extractLsb' 0 n).setWidth 32 := by
  subst h
  apply BitVec.eq_of_getLsbD_eq
  intro i hi
  simp only [BitVec.getLsbD_or, BitVec.getLsbD_and, BitVec.getLsbD_shiftLeft, BitVec.getLsbD_allOnes,
    BitVec.getLsbD_setWidth, BitVec.getLsbD_extractLsb', Nat.zero_add]
  by_cases hn : i < n
  · simp [hi, hn]
  · simp [hi, hn, show i - n < 32 by omega]

/-! ### Words as R69 writes them: the opcode's word with the operand's bits set -/

theorem encode_addrk (rnd : BitVec 4) : encode (.addrk rnd) = 0x16000000 ||| rnd.setWidth 32 := by
  rw [encode, wordOf_eq_or, argR, setWidth_zero_append]
  rfl

theorem encode_kexpOther (klen : BitVec 8) : encode (.kexpOther klen) = 0x20000000 ||| klen.setWidth 32 := by
  rw [encode, wordOf_eq_or, argK, setWidth_zero_append]
  rfl

theorem encode_encblkm (off : BitVec 24) : encode (.encblkm off) = 0x32000000 ||| off.setWidth 32 :=
  wordOf_eq_or 0x32 off

theorem encode_decblkm (off : BitVec 24) : encode (.decblkm off) = 0x33000000 ||| off.setWidth 32 :=
  wordOf_eq_or 0x33 off

theorem encode_ecbenc (p : PadSelect) : encode (.ecbenc p) = 0x40000000 ||| (padBit p).setWidth 32 := by
  cases p <;> rfl

theorem encode_cbcenc (p : PadSelect) : encode (.cbcenc p) = 0x51000000 ||| (padBit p).setWidth 32 := by
  cases p <;> rfl

/-- A word that selects the row of a command is the word of a command of that row. -/
theorem exists_encode_of_selects {w : Word} (i : Instr) (h : (rowOf i).selects w) :
    ∃ j, rowOf j = rowOf i ∧ encode j = w := by
  cases i with
  | addrk => exact ⟨.addrk (w.extractLsb' 0 4), rfl, (encode_addrk _).trans (eq_pattern_or 4 h).symm⟩
  | kexpOther => exact ⟨.kexpOther (w.extractLsb' 0 8), rfl, (encode_kexpOther _).trans (eq_pattern_or 8 h).symm⟩
  | encblkm => exact ⟨.encblkm (w.extractLsb' 0 24), rfl, (encode_encblkm _).trans (eq_pattern_or 24 h).symm⟩
  | decblkm => exact ⟨.decblkm (w.extractLsb' 0 24), rfl, (encode_decblkm _).trans (eq_pattern_or 24 h).symm⟩
  | ecbenc =>
    exact ⟨.ecbenc (if w.extractLsb' 0 1 = 1#1 then .pkcs7 else .noPad), rfl,
      by rw [encode_ecbenc, padBit_ite]; exact (eq_pattern_or 1 h).symm⟩
  | cbcenc =>
    exact ⟨.cbcenc (if w.extractLsb' 0 1 = 1#1 then .pkcs7 else .noPad), rfl,
      by rw [encode_cbcenc, padBit_ite]; exact (eq_pattern_or 1 h).symm⟩
  | _ => exact ⟨_, rfl, h.symm.trans BitVec.and_allOnes⟩

/-- The word of a command, well-formed or not, decodes to a command whose row has a mask as large as its own. -/
theorem exists_decode_encode (i : Instr) :
    ∃ j, decode (encode i) = .ok j ∧ (rowOf i).mask &&& (rowOf j).mask = (rowOf i).mask := by
  cases hw : i.wellFormed with
  | true => exact ⟨i, decodeInvertsEncode i hw, BitVec.and_self⟩
  | false =>
    cases i with
    | kexpOther klen =>
      have hmask : ∀ k, (rowOf (.kexpOther k)).mask &&& (rowOf (kexpRow k)).mask = (rowOf (.kexpOther k)).mask := by
        decide +kernel
      exact ⟨_, decode_encode_kexpOther klen, hmask klen⟩
    | _ => cases hw

/-- A word that selects a row of the table decodes, to a command whose row has a mask as large as that row's. -/
theorem exists_decode_of_selects {r : OpcodeRow} {w : Word} (hr : r ∈ opcodeTable) (h : r.selects w) :
    ∃ j, decode w = .ok j ∧ r.mask &&& (rowOf j).mask = r.mask := by
  obtain ⟨i, rfl⟩ := exists_rowOf_eq_of_mem r hr
  obtain ⟨j, hrow, rfl⟩ := exists_encode_of_selects i h
  rw [← hrow]
  exact exists_decode_encode j

/-- A word that decodes selects the row of the command it decodes to. -/
theorem rowOf_selects_of_decode {w : Word} {i : Instr} (h : decode w = .ok i) : (rowOf i).selects w := by
  obtain ⟨-, rfl⟩ := encodeInvertsDecode w i h
  exact rowOf_selects_encode i

/-- Settles O3: the row of the decoded command is selected, and every row that is selected makes the word decode to
the command, with a mask no larger. -/
theorem legalWordsSelectTableRows : Obligations.LegalWordsSelectTableRows := by
  intro w
  refine ⟨⟨?_, ?_⟩, fun i hd => ⟨rowOf_selects_of_decode hd, fun r hr hsel => ?_⟩⟩
  · rintro ⟨i, hd⟩
    exact ⟨_, rowOf_mem_opcodeTable i, rowOf_selects_of_decode hd⟩
  · rintro ⟨r, hr, hsel⟩
    obtain ⟨j, hd, -⟩ := exists_decode_of_selects hr hsel
    exact ⟨j, hd⟩
  · obtain ⟨j, hj, hmask⟩ := exists_decode_of_selects hr hsel
    obtain rfl : i = j := Except.ok.inj (hd.symm.trans hj)
    exact hmask

/-- Settles O4: each word is a closed one, and the decoder is evaluated on it. -/
theorem sampleWordsDecode : Obligations.SampleWordsDecode := by
  unfold Obligations.SampleWordsDecode
  decide

end Sys2Proof

namespace Sys2Proof.Machine

/-! ### Illegal words (R67) -/

/-- While no fault is latched a word that does not decode faults `ILLEGAL_CMD` (R64, R67). -/
theorem issue_of_decode_error {s : State} {w : Word} {e : IllegalWord} (hs : s.Running) (hd : decode w = .error e) :
    issue w s = .next (s.faulted 1 w w) := by
  have hf : s.status.fault = false := hs
  simp only [issue, hf, hd]
  rfl

/-- Settles O5: the word does not decode, since it would select the row of the command. -/
theorem illegalWordsFault : Obligations.IllegalWordsFault := by
  intro s w rest hs hp hno
  rw [step_wr_cmd hs hp]
  cases hd : decode w with
  | ok i => exact absurd (rowOf_selects_of_decode hd) (hno _ (rowOf_mem_opcodeTable i))
  | error e => exact issue_of_decode_error (s := { s with pending := rest, resp := .completed }) hs hd

/-! ### Command lines (R69) -/

/-- An operand in range is set in the base word, which is written to `CMD`. -/
theorem asmCommand_operand {base n : Nat} (hb : base < 2 ^ 32) (hn : n ≤ 32) (v : BitVec n) :
    asmCommand base (2 ^ n) v.toNat = some [.wr 0 (BitVec.ofNat 32 base ||| v.setWidth 32)] := by
  have hv : v.toNat < 2 ^ 32 := v.isLt.trans_le (Nat.pow_le_pow_right (by decide) hn)
  have hw : BitVec.ofNat 32 (base ||| v.toNat) = BitVec.ofNat 32 base ||| v.setWidth 32 := by
    rw [BitVec.ofNat_or, BitVec.ofNat_toNat]
  simp only [asmCommand, v.isLt, asmWrite, Nat.or_lt_two_pow hb hv, if_true, hw]
  rfl

/-- An operand out of range is refused. -/
theorem asmCommand_of_le {base bound n : Nat} (h : bound ≤ n) : asmCommand base bound n = none :=
  if_neg (Nat.not_lt.mpr h)

/-- The line of a command, its operand in range by the width of its field, assembles to the command's word. -/
theorem assembleLine_lineOf (i : Instr) : assembleLine (lineOf i) = some [.wr 0 (encode i)] := by
  cases i with
  | addrk rnd => rw [encode_addrk]; exact asmCommand_operand (by decide) (by decide) rnd
  | kexpOther klen => rw [encode_kexpOther]; exact asmCommand_operand (by decide) (by decide) klen
  | encblkm off => rw [encode_encblkm]; exact asmCommand_operand (by decide) (by decide) off
  | decblkm off => rw [encode_decblkm]; exact asmCommand_operand (by decide) (by decide) off
  | ecbenc p => rw [encode_ecbenc]; exact asmCommand_operand (by decide) (by decide) (padBit p)
  | cbcenc p => rw [encode_cbcenc]; exact asmCommand_operand (by decide) (by decide) (padBit p)
  | _ => rfl

/-- Settles O7: command by command, and each bound is the one the assembler checks. -/
theorem assemblerIssuesCommandWords : Obligations.AssemblerIssuesCommandWords :=
  ⟨assembleLine_lineOf, fun _ => asmCommand_of_le, fun _ => asmCommand_of_le,
    fun _ h => ⟨asmCommand_of_le h, asmCommand_of_le h⟩, fun _ h => ⟨asmCommand_of_le h, asmCommand_of_le h⟩⟩

/-! ### The schedule that `KEXP` derives (42_key_schedule.md R121, R123) -/

theorem length_extendSchedule (nk n : Nat) (ws : List Word) :
    (extendSchedule nk n ws).length = n + ws.length := by
  induction n generalizing ws with
  | zero => simp [extendSchedule]
  | succ n ih => simp [extendSchedule, ih, Nat.add_assoc, Nat.add_comm 1]

/-- Extending a schedule leaves the words it has in place (newest first: they are a suffix). -/
theorem suffix_extendSchedule (nk n : Nat) (ws : List Word) : ws <:+ extendSchedule nk n ws := by
  induction n generalizing ws with
  | zero => exact List.suffix_refl ws
  | succ n ih => exact (List.suffix_cons _ ws).trans (ih (nextWord nk ws :: ws))

/-- Every added word is the next word of the words before it. -/
theorem exists_nextWord_suffix {nk n i : Nat} {ws : List Word} (hlo : ws.length ≤ i) (hhi : i < n + ws.length) :
    ∃ us : List Word, us.length = i ∧ nextWord nk us :: us <:+ extendSchedule nk n ws := by
  induction n generalizing ws with
  | zero => omega
  | succ n ih =>
    rcases Nat.eq_or_lt_of_le hlo with rfl | hlt
    · exact ⟨ws, rfl, suffix_extendSchedule nk n _⟩
    · exact ih hlt (by simp only [List.length_cons]; omega)

/-- The `j`-th newest of the words `us` is word `us.length - 1 - j` of a schedule that they begin. -/
theorem getD_of_suffix {us ws : List Word} {j : Nat} (h : us <:+ ws) (hj : j < us.length) :
    us.getD j 0 = ws.reverse.getD (us.length - 1 - j) 0 := by
  obtain ⟨later, rfl⟩ := h
  rw [List.reverse_append, List.getD_append _ _ _ _ (by simp only [List.length_reverse]; omega),
    List.getD_reverse _ (by omega)]
  congr 1
  omega

section
variable {k : List Word} {nk : Nat} (hk : k.length = nk) (hpos : 0 < nk)
include hk

/-- The schedule of `Nk` key words has `4 * (Nk + 7)` words. -/
theorem length_expandKey : (expandKey k nk).length = 4 * (nk + 7) := by
  simp only [expandKey, List.length_reverse, length_extendSchedule]
  omega

/-- The schedule begins with the key. -/
theorem getD_expandKey_key {i : Nat} (hi : i < nk) : (expandKey k nk).getD i 0 = k.getD i 0 := by
  have hpre : k <+: expandKey k nk := by
    simpa [expandKey] using (suffix_extendSchedule nk (4 * (nk + 7) - nk) k.reverse).reverse
  obtain ⟨later, he⟩ := hpre
  rw [← he, List.getD_append _ _ _ _ (by omega)]

include hpos

/-- The recurrence of R121. -/
theorem getD_expandKey_next {i : Nat} (hlo : nk ≤ i) (hhi : i < 4 * (nk + 7)) :
    (expandKey k nk).getD i 0 = (expandKey k nk).getD (i - nk) 0 ^^^
      (if i % nk = 0 then subWord (rotWord ((expandKey k nk).getD (i - 1) 0)) ^^^ rconWord (i / nk - 1)
       else if nk = 8 ∧ i % nk = 4 then subWord ((expandKey k nk).getD (i - 1) 0)
       else (expandKey k nk).getD (i - 1) 0) := by
  obtain ⟨us, rfl, hsuf⟩ := exists_nextWord_suffix (nk := nk) (n := 4 * (nk + 7) - nk) (i := i)
    (ws := k.reverse) (by rw [List.length_reverse]; omega) (by rw [List.length_reverse]; omega)
  have hold : us <:+ extendSchedule nk (4 * (nk + 7) - nk) k.reverse := (List.suffix_cons _ us).trans hsuf
  have hnew : nextWord nk us = (expandKey k nk).getD us.length 0 := by
    simpa [expandKey] using getD_of_suffix (j := 0) hsuf (by simp)
  have hprev : us.getD 0 0 = (expandKey k nk).getD (us.length - 1) 0 :=
    getD_of_suffix hold (by omega)
  have hback : us.getD (nk - 1) 0 = (expandKey k nk).getD (us.length - nk) 0 := by
    rw [getD_of_suffix hold (by omega), expandKey]
    congr 1
    omega
  rw [← hnew, ← hprev, ← hback, nextWord]

end

theorem getD_scheduleRegs (w : List Word) {i : Nat} (hi : i < 60) : (scheduleRegs w).getD i 0 = w.getD i 0 := by
  simp [scheduleRegs, Vector.getD, hi]

/-- The words of `KEY` that a key size takes. -/
theorem getD_keyWords (s : State) (k : KeySize) {i : Nat} (hi : i < k.nk) :
    (s.keyWords k.nk).getD i 0 = s.key.getD i 0 := by
  simp [State.keyWords, Vector.getD, List.getD, hi]

/-- `KEXP` derives the schedule of the first words of `KEY` (R123). -/
theorem isSchedule_constructInstance (s : State) (k : KeySize) :
    IsSchedule s.key k.nk k.nw (s.constructInstance k).rk := by
  have hlen := State.length_keyWords s k
  have hpos : 0 < k.nk := by cases k <;> decide
  have hnw : k.nw = 4 * (k.nk + 7) := by cases k <;> rfl
  have hnk : k.nk ≤ k.nw := by omega
  have h60 : k.nw ≤ 60 := by cases k <;> decide
  rw [State.constructInstance_rk]
  refine ⟨fun i hi => ?_, fun i hlo hhi => ?_, fun i hlo hhi => ?_⟩
  · rw [getD_scheduleRegs _ (by omega), getD_expandKey_key hlen hi, getD_keyWords s k hi]
  · rw [getD_scheduleRegs _ (by omega), getD_scheduleRegs _ (by omega), getD_scheduleRegs _ (by omega)]
    exact getD_expandKey_next hlen hpos hlo (by omega)
  · rw [getD_scheduleRegs _ hhi, List.getD_eq_default]
    rw [length_expandKey hlen]
    omega

/-! ### `AESnnn.NEW`: `LDKEY`, then `KEXP` (R70) -/

theorem runSteps_succ {n : Nat} {s t : State} (h : step s = .next t) : runSteps (n + 1) s = runSteps n t := by
  simp [runSteps, h]

/-- The offset of a word of `KEY` reaches it (R11). -/
theorem State.select32_key (s : State) (i : Fin 8) : s.select32 (Reg.key i).offset = .ok (.key i) := by
  have hlo : ∀ i : Fin 8, (Reg.key i).offset < bufferBase := by decide
  have halign : ∀ i : Fin 8, (Reg.key i).offset % 4 = 0 := by decide
  have hreg : ∀ i : Fin 8, Reg.atIndex ((Reg.key i).offset / 4) = some (.key i) := by decide
  simp [State.select32, hlo, halign, hreg]

/-- While no fault is latched a write to a word of `KEY` stores it (R191). -/
theorem step_wr_key {s : State} {i : Fin 8} {v : Word} {rest : List Event} (hs : s.Running)
    (hp : s.pending = .wr (Reg.key i).offset v :: rest) :
    step s = .next { s with key := s.key.set i v, pending := rest, resp := .completed } := by
  have hf : s.status.fault = false := hs
  simp [step, hp, perform, State.select32_key, State.performWrite, hf, State.writeReg]

/-- Writing the words `f i` to `KEY[i]` for each `i` of a list sets these words and nothing else in the block. -/
theorem runSteps_keyWrites (f : Nat → Word) (is : List Nat) {s : State} {rest : List Event} (hs : s.Running)
    (hlt : ∀ i ∈ is, i < 8)
    (hp : s.pending = is.map (fun i => .wr (Reg.key (Fin.ofNat 8 i)).offset (f i)) ++ rest) :
    ∃ t, (∀ n, runSteps (is.length + n) s = runSteps n t) ∧
      t = { s with key := t.key, pending := rest, resp := t.resp } ∧
      ∀ j : Fin 8, t.key[j] = if j.val ∈ is then f j.val else s.key[j] := by
  induction is generalizing s with
  | nil => exact ⟨s, fun n => by simp, by rw [← show s.pending = rest from hp], fun j => by simp⟩
  | cons i is ih =>
    have hi : i < 8 := hlt i List.mem_cons_self
    have hstep := step_wr_key (i := Fin.ofNat 8 i) (v := f i) hs hp
    obtain ⟨t, hrun, hframe, hkey⟩ := ih
      (s := { s with key := s.key.set (Fin.ofNat 8 i) (f i), resp := .completed
                     pending := is.map (fun i => .wr (Reg.key (Fin.ofNat 8 i)).offset (f i)) ++ rest })
      hs (fun j hj => hlt j (List.mem_cons_of_mem i hj)) rfl
    refine ⟨t, fun n => ?_, hframe, fun j => ?_⟩
    · rw [List.length_cons, Nat.add_right_comm]
      exact (runSteps_succ hstep).trans (hrun n)
    · rw [hkey]
      by_cases hj : j.val ∈ is
      · simp [hj]
      · by_cases hij : i = j.val
        · simp [hij]
        · simp [hj, Ne.symm hij, Nat.mod_eq_of_lt hi, hij]

/-- While no fault is latched the word of a legal `KEXP` written to `CMD` has the effect of R123. -/
theorem step_wr_kexpOf {s : State} {k : KeySize} {rest : List Event} (hs : s.Running)
    (hp : s.pending = .wr 0 (encode (kexpOf k)) :: rest) :
    step s = .next ({ s with pending := rest, resp := .completed }.constructInstance k) := by
  have hwf : (kexpOf k).wellFormed = true := by cases k <;> rfl
  have hchecks : ∀ t, firstFailing (checksOf (kexpOf k) t) = none := by cases k <;> exact fun _ => rfl
  rw [stepRunsDecodedCommand s _ rest _ hs hp (decodeInvertsEncode _ hwf),
    exec_completes (s := { s with pending := rest, resp := .completed }) hs (hchecks _), effectOf_kexpOf]

/-- The word of `KEXP` that the assembler makes of a key size. -/
theorem asmCommand_kexp (k : KeySize) : asmCommand 0x20000000 256 k.bytes = some [.wr 0 (encode (kexpOf k))] := by
  cases k <;> rfl

/-- `AESnnn.NEW hex` stages the key and issues `KEXP` (R70). -/
theorem assembleLine_aesNew {k : KeySize} {key : List Byte} (hlen : key.length = 4 * k.nk) :
    assembleLine (.aesNew k key) =
      some (asmStage (fun i => .key (Fin.ofNat 8 i)) key k.nk ++ [.wr 0 (encode (kexpOf k))]) := by
  have hsize : KeySize.ofKlen (4 * k.nk) = some k := by cases k <;> rfl
  have hkexp := asmCommand_kexp k
  rw [KeySize.bytes] at hkexp
  simp [assembleLine, KeySize.bytes, asmKey, hlen, hsize, both, hkexp]

/-- Settles O60: the staged words are written one by one, and then `KEXP` runs on the key they make. -/
theorem newInstanceProgram : Obligations.NewInstanceProgram := by
  intro s k key hs hlen
  have hnk : k.nk ≤ 8 := by cases k <;> decide
  obtain ⟨u, hrun, hframe, hkey⟩ := runSteps_keyWrites (fun i => wordAt key (4 * i)) (List.range k.nk)
    (s := s.withProgram (asmStage (fun i => .key (Fin.ofNat 8 i)) key k.nk ++ [.wr 0 (encode (kexpOf k))]))
    (rest := .wr 0 (encode (kexpOf k)) :: s.pending) hs
    (fun i hi => (List.mem_range.mp hi).trans_le hnk) (by simp [State.withProgram, asmStage])
  have hstatus : u.status = s.status := by rw [hframe]; rfl
  have hpending : u.pending = .wr 0 (encode (kexpOf k)) :: s.pending := by rw [hframe]
  have hbuffer : u.bufByte = s.bufByte := State.bufByte_of_mem (by rw [hframe]; rfl) (by rw [hframe]; rfl)
  have hstep := step_wr_kexpOf (show u.Running by rw [State.Running, hstatus]; exact hs) hpending
  refine ⟨_, { u with pending := s.pending, resp := .completed }.constructInstance k, assembleLine_aesNew hlen, ?_,
    fun i hi => ?_, ?_, ?_, ?_, ?_⟩
  · simpa [asmStage, runSteps, hstep] using hrun 1
  · simpa [hi, wordAt] using hkey i
  · simp [hstatus]
  · exact isSchedule_constructInstance _ k
  · rfl
  · exact congrFun hbuffer

end Sys2Proof.Machine

namespace Sys2Proof.Machine

/-! Proofs about the field and the tables (spec 40_field_and_tables.md). The laws of `gmul` come from three facts: it is
additive in its first factor, it commutes there with `xtime`, and 1 is neutral. `byte_induction` carries them from the
first factor 1 to every byte. -/

/-! ### Doubling (R81) -/

/-- Doubling is shifting, and reducing by 0x11B what overflows a byte. -/
theorem xtime_toNat (a : Byte) :
    (xtime a).toNat = if a.toNat < 128 then 2 * a.toNat else (2 * a.toNat) ^^^ 0x11B := by
  revert a
  decide +kernel

theorem xtime_xor (a b : Byte) : xtime (a ^^^ b) = xtime a ^^^ xtime b := by
  have hcancel : (a <<< 1 ^^^ 0x1B#8) ^^^ (b <<< 1 ^^^ 0x1B#8) = a <<< 1 ^^^ b <<< 1 := by
    calc _ = (a <<< 1 ^^^ b <<< 1) ^^^ (0x1B#8 ^^^ 0x1B#8) := by ac_rfl
      _ = _ := by rw [BitVec.xor_self, BitVec.xor_zero]
  simp only [xtime, BitVec.msb_xor, BitVec.shiftLeft_xor_distrib]
  cases a.msb <;> cases b.msb
  · rfl
  · exact BitVec.xor_assoc _ _ _
  · change (a <<< 1 ^^^ b <<< 1) ^^^ 0x1B#8 = (a <<< 1 ^^^ 0x1B#8) ^^^ b <<< 1
    ac_rfl
  · exact hcancel.symm

/-! ### Multiplication in the first factor (R82) -/

/-- The loop keeps every property that doubling and adding keep. -/
theorem gmulLoop_induction {P : Byte → Prop} (hdouble : ∀ a, P a → P (xtime a))
    (hadd : ∀ a b, P a → P b → P (a ^^^ b)) (n : Nat) {a r : Byte} (k : Nat) (ha : P a) (hr : P r) :
    P (gmulLoop n a k r) := by
  induction n generalizing a k r with
  | zero => exact hr
  | succ n ih =>
    refine ih _ (hdouble a ha) ?_
    split
    · exact hadd r a hr ha
    · exact hr

theorem gmulLoop_xor (n : Nat) (a b r s : Byte) (k : Nat) :
    gmulLoop n (a ^^^ b) k (r ^^^ s) = gmulLoop n a k r ^^^ gmulLoop n b k s := by
  induction n generalizing a b r s k with
  | zero => rfl
  | succ n ih =>
    simp only [gmulLoop, xtime_xor, ← ih]
    congr 1
    split
    · ac_rfl
    · rfl

theorem gmulLoop_xtime (n : Nat) (a r : Byte) (k : Nat) :
    gmulLoop n (xtime a) k (xtime r) = xtime (gmulLoop n a k r) := by
  induction n generalizing a r k with
  | zero => rfl
  | succ n ih =>
    simp only [gmulLoop, ← ih]
    congr 1
    split
    · exact (xtime_xor r a).symm
    · rfl

theorem gmul_xor_left (a b : Byte) (k : Nat) : gmul (a ^^^ b) k = gmul a k ^^^ gmul b k :=
  gmulLoop_xor 8 a b 0 0 k

theorem gmul_xtime_left (a : Byte) (k : Nat) : gmul (xtime a) k = xtime (gmul a k) :=
  gmulLoop_xtime 8 a 0 k

@[simp] theorem gmul_one_left (b : Byte) : gmul 1 b.toNat = b := by
  revert b
  decide +kernel

/-- Every byte is made of 1 by doubling and adding, since `gmul 1` makes it so. -/
theorem byte_induction {P : Byte → Prop} (hone : P 1) (hdouble : ∀ a, P a → P (xtime a))
    (hadd : ∀ a b, P a → P b → P (a ^^^ b)) (a : Byte) : P a := by
  have hzero : P 0 := hadd 1 1 hone hone
  rw [← gmul_one_left a]
  exact gmulLoop_induction hdouble hadd 8 a.toNat hone hzero

/-! ### Multiplication is commutative and associative (R82) -/

@[simp] theorem gmul_zero_left (k : Nat) : gmul 0 k = 0 :=
  (gmul_xor_left 0 0 k).trans BitVec.xor_self

@[simp] theorem gmul_zero_right (a : Byte) : gmul a 0 = 0 := rfl

@[simp] theorem gmul_one_right (a : Byte) : gmul a 1 = a := BitVec.zero_xor

theorem gmul_two (a : Byte) : gmul a 2 = xtime a := BitVec.zero_xor

theorem gmul_xor_right (a b c : Byte) : gmul a (b ^^^ c).toNat = gmul a b.toNat ^^^ gmul a c.toNat := by
  induction a using byte_induction with
  | hone => simp only [gmul_one_left]
  | hdouble a ih => simp only [gmul_xtime_left, ih, xtime_xor]
  | hadd a a' ih ih' =>
    simp only [gmul_xor_left, ih, ih']
    ac_rfl

theorem gmul_xtime_right (a b : Byte) : gmul a (xtime b).toNat = xtime (gmul a b.toNat) := by
  induction a using byte_induction with
  | hone => simp only [gmul_one_left]
  | hdouble a ih => simp only [gmul_xtime_left, ih]
  | hadd a a' ih ih' => simp only [gmul_xor_left, ih, ih', xtime_xor]

theorem gmul_comm (a b : Byte) : gmul a b.toNat = gmul b a.toNat := by
  induction a using byte_induction with
  | hone => exact (gmul_one_left b).trans (gmul_one_right b).symm
  | hdouble a ih => rw [gmul_xtime_left, gmul_xtime_right, ih]
  | hadd a a' ih ih' => rw [gmul_xor_left, gmul_xor_right, ih, ih']

theorem gmul_assoc (a b c : Byte) : gmul (gmul a b.toNat) c.toNat = gmul a (gmul b c.toNat).toNat := by
  induction a using byte_induction with
  | hone => simp only [gmul_one_left]
  | hdouble a ih => simp only [gmul_xtime_left, ih]
  | hadd a a' ih ih' => simp only [gmul_xor_left, ih, ih']

/-- Settles O51: the law of `xtime` byte by byte, those of `gmul` by `byte_induction` on the first factor. -/
theorem fieldMultiplication : Obligations.FieldMultiplication :=
  ⟨xtime_toNat, fun a => ⟨gmul_zero_right a, gmul_one_right a, gmul_two a⟩, fun a b k _ => gmul_xor_left a b k,
    gmul_comm, gmul_assoc⟩

/-! ### The S-boxes (R84, R85) -/

theorem invSbox_sbox (a : Byte) : invSbox (sbox a) = a := by
  revert a
  decide +kernel

theorem sbox_invSbox (a : Byte) : sbox (invSbox a) = a := by
  revert a
  decide +kernel

theorem sbox_ne_self (a : Byte) : sbox a ≠ a := by
  revert a
  decide +kernel

/-- The byte that the affine map of the S-box construction takes to `b` (R84). -/
def sboxAffineInverse (b : Byte) : Byte :=
  b.rotateLeft 1 ^^^ b.rotateLeft 3 ^^^ b.rotateLeft 6 ^^^ 0x05

theorem sboxAffine_sboxAffineInverse (b : Byte) : sboxAffine (sboxAffineInverse b) = b := by
  revert b
  decide +kernel

/-- The affine map undone on the S-box gives the field inverse (R84). -/
theorem gmul_sboxAffineInverse_sbox {a : Byte} (ha : a ≠ 0) :
    gmul a (sboxAffineInverse (sbox a)).toNat = 1 := by
  revert a
  decide +kernel

/-- A byte has at most one field inverse. -/
theorem eq_of_gmul_eq_one {a b c : Byte} (hb : gmul a b.toNat = 1) (hc : gmul a c.toNat = 1) : b = c :=
  calc b = gmul b (gmul a c.toNat).toNat := by rw [hc]; exact (gmul_one_right b).symm
    _ = gmul (gmul b a.toNat) c.toNat := (gmul_assoc b a c).symm
    _ = c := by rw [gmul_comm b a, hb, gmul_one_left]

theorem sbox_of_gmul_eq_one {a b : Byte} (h : gmul a b.toNat = 1) : sbox a = sboxAffine b := by
  have ha : a ≠ 0 := by
    rintro rfl
    exact absurd ((gmul_zero_left _).symm.trans h) (by decide)
  rw [eq_of_gmul_eq_one h (gmul_sboxAffineInverse_sbox ha), sboxAffine_sboxAffineInverse]

/-! ### The round constants and the word functions (R86, R87) -/

theorem rconWord_succ {j : Nat} (hj : j < 9) :
    rconWord (j + 1) = wordOfBytes (xtime (byteOf (rconWord j) 0)) 0 0 0 := by
  revert j
  decide +kernel

/-- Byte `r` of a word rotated left by one byte is byte `r + 1` modulo 4. -/
theorem byteOf_rotateLeft_eight (w : Word) {r : Nat} (hr : r < 4) :
    byteOf (w.rotateLeft 8) r = byteOf w ((r + 1) % 4) := by
  apply BitVec.eq_of_getLsbD_eq
  intro i hi
  rw [byteOf_getLsbD, byteOf_getLsbD, BitVec.getLsbD_rotateLeft]
  rcases Nat.lt_or_eq_of_le (Nat.le_of_lt_succ hr) with hlt | rfl
  · have hge : ¬ 24 - 8 * r + i < 8 := by omega
    have hlt32 : 24 - 8 * r + i < 32 := by omega
    have hindex : 24 - 8 * r + i - 8 = 24 - 8 * ((r + 1) % 4) + i := by omega
    simp [hge, hlt32, hindex]
  · simp [hi]

theorem rotWord_eq_rotateLeft (w : Word) : rotWord w = w.rotateLeft 8 := by
  apply word_ext <;> simp [rotWord, byteOf_rotateLeft_eight]

theorem subWord_rotWord (w : Word) : subWord (rotWord w) = rotWord (subWord w) := by
  simp [subWord, rotWord]

/-- Settles O52: the tables entry by entry, the S-box through the inverse of its affine map, the word functions byte
by byte. -/
theorem tablesAreConsistent : Obligations.TablesAreConsistent :=
  ⟨fun a => ⟨invSbox_sbox a, sbox_invSbox a, sbox_ne_self a⟩, rfl, fun _ _ => sbox_of_gmul_eq_one,
    fun _ ha => ⟨_, gmul_sboxAffineInverse_sbox ha⟩, rfl, fun _ => rconWord_succ,
    fun w => ⟨rotWord_eq_rotateLeft w, subWord_rotWord w⟩⟩

end Sys2Proof.Machine

namespace Sys2Proof.Machine

/-! Proofs about the round transforms (spec 41_round_transforms.md): what each does byte by byte, which of them undo
each other, and the commands that apply them to `STATE`. The column mixings are linear over the field, so each of their
laws is checked on the words it is spanned by. -/

/-! ### Bytes of a word, by row -/

theorem byteOf_wordOfBytes (f : Fin 4 → Byte) (r : Fin 4) :
    byteOf (wordOfBytes (f 0) (f 1) (f 2) (f 3)) r.val = f r := by
  match r with
  | 0 => exact byteOf_wordOfBytes_zero ..
  | 1 => exact byteOf_wordOfBytes_one ..
  | 2 => exact byteOf_wordOfBytes_two ..
  | 3 => exact byteOf_wordOfBytes_three ..

/-- A word is determined by its bytes, row by row. -/
theorem word_ext_rows {v w : Word} (h : ∀ r : Fin 4, byteOf v r.val = byteOf w r.val) : v = w :=
  word_ext (h 0) (h 1) (h 2) (h 3)

/-! ### SubBytes and InvSubBytes (R101, R102) -/

theorem gridByte_subBytes (S : Block) (r c : Fin 4) : gridByte (subBytes S) r.val c = sbox (gridByte S r.val c) := by
  rw [gridByte, subBytes, col_ofCols]
  exact byteOf_wordOfBytes (fun r => sbox (gridByte S r.val c)) r

theorem gridByte_invSubBytes (S : Block) (r c : Fin 4) :
    gridByte (invSubBytes S) r.val c = invSbox (gridByte S r.val c) := by
  rw [gridByte, invSubBytes, col_ofCols]
  exact byteOf_wordOfBytes (fun r => invSbox (gridByte S r.val c)) r

@[simp] theorem invSubBytes_subBytes (S : Block) : invSubBytes (subBytes S) = S :=
  grid_ext fun r c => by rw [gridByte_invSubBytes, gridByte_subBytes, invSbox_sbox]

@[simp] theorem subBytes_invSubBytes (S : Block) : subBytes (invSubBytes S) = S :=
  grid_ext fun r c => by rw [gridByte_subBytes, gridByte_invSubBytes, sbox_invSbox]

/-! ### ShiftRows and InvShiftRows (R103, R104) -/

theorem gridByte_shiftRows (S : Block) (r c : Fin 4) : gridByte (shiftRows S) r.val c = gridByte S r.val (c + r) := by
  rw [← byteOf_wordOfBytes (fun r => gridByte S r.val (c + r)) r, gridByte, shiftRows, col_ofCols, add_zero]
  rfl

theorem gridByte_invShiftRows (S : Block) (r c : Fin 4) :
    gridByte (invShiftRows S) r.val c = gridByte S r.val (c - r) := by
  obtain ⟨h1, h2, h3⟩ : c + 3 = c - 1 ∧ c + 2 = c - 2 ∧ c + 1 = c - 3 := by
    revert c
    decide
  rw [← byteOf_wordOfBytes (fun r => gridByte S r.val (c - r)) r, gridByte, invShiftRows, col_ofCols, sub_zero,
    h1, h2, h3]
  rfl

@[simp] theorem invShiftRows_shiftRows (S : Block) : invShiftRows (shiftRows S) = S :=
  grid_ext fun r c => by rw [gridByte_invShiftRows, gridByte_shiftRows, sub_add_cancel]

@[simp] theorem shiftRows_invShiftRows (S : Block) : shiftRows (invShiftRows S) = S :=
  grid_ext fun r c => by rw [gridByte_shiftRows, gridByte_invShiftRows, add_sub_cancel_right]

/-- Substituting bytes and moving them commute (R108). -/
theorem subBytes_shiftRows (S : Block) : subBytes (shiftRows S) = shiftRows (subBytes S) :=
  grid_ext fun r c => by simp only [gridByte_subBytes, gridByte_shiftRows]

theorem invSubBytes_invShiftRows (S : Block) : invSubBytes (invShiftRows S) = invShiftRows (invSubBytes S) :=
  grid_ext fun r c => by simp only [gridByte_invSubBytes, gridByte_invShiftRows]

/-! ### Linear maps of columns (R82) -/

/-- The word with every byte doubled. -/
def doubleWord (w : Word) : Word :=
  wordOfBytes (xtime (byteOf w 0)) (xtime (byteOf w 1)) (xtime (byteOf w 2)) (xtime (byteOf w 3))

/-- The word with every byte multiplied by `b`. -/
def scaleWord (b : Byte) (w : Word) : Word :=
  wordOfBytes (gmul (byteOf w 0) b.toNat) (gmul (byteOf w 1) b.toNat) (gmul (byteOf w 2) b.toNat)
    (gmul (byteOf w 3) b.toNat)

theorem byteOf_doubleWord (w : Word) (r : Fin 4) : byteOf (doubleWord w) r.val = xtime (byteOf w r.val) :=
  byteOf_wordOfBytes (fun r => xtime (byteOf w r.val)) r

theorem byteOf_scaleWord (b : Byte) (w : Word) (r : Fin 4) :
    byteOf (scaleWord b w) r.val = gmul (byteOf w r.val) b.toNat :=
  byteOf_wordOfBytes (fun r => gmul (byteOf w r.val) b.toNat) r

theorem scaleWord_one (w : Word) : scaleWord 1 w = w :=
  word_ext_rows fun r => (byteOf_scaleWord 1 w r).trans (gmul_one_right _)

theorem scaleWord_xtime (b : Byte) (w : Word) : scaleWord (xtime b) w = doubleWord (scaleWord b w) :=
  word_ext_rows fun r => by rw [byteOf_scaleWord, byteOf_doubleWord, byteOf_scaleWord, gmul_xtime_right]

theorem scaleWord_xor (a b : Byte) (w : Word) : scaleWord (a ^^^ b) w = scaleWord a w ^^^ scaleWord b w :=
  word_ext_rows fun r => by rw [byteOf_xor, byteOf_scaleWord, byteOf_scaleWord, byteOf_scaleWord, gmul_xor_right]

theorem scaleWord_wordOfBytes (b a0 a1 a2 a3 : Byte) : scaleWord b (wordOfBytes a0 a1 a2 a3) =
    wordOfBytes (gmul a0 b.toNat) (gmul a1 b.toNat) (gmul a2 b.toNat) (gmul a3 b.toNat) := by
  simp [scaleWord]

/-- Every word is the sum of its bytes, each a multiple of the word with 1 in its place. -/
theorem sum_scaleWord_byteOf (w : Word) :
    scaleWord (byteOf w 0) (wordOfBytes 1 0 0 0) ^^^ scaleWord (byteOf w 1) (wordOfBytes 0 1 0 0)
      ^^^ scaleWord (byteOf w 2) (wordOfBytes 0 0 1 0) ^^^ scaleWord (byteOf w 3) (wordOfBytes 0 0 0 1) = w := by
  simp only [scaleWord_wordOfBytes, gmul_one_left, gmul_zero_left, wordOfBytes_xor]
  simp

/-- A map of columns that is additive and commutes with doubling: one given by a matrix over the field. -/
structure ColumnLinear (f : Word → Word) : Prop where
  xor : ∀ v w, f (v ^^^ w) = f v ^^^ f w
  double : ∀ w, f (doubleWord w) = doubleWord (f w)

theorem ColumnLinear.comp {f g : Word → Word} (hf : ColumnLinear f) (hg : ColumnLinear g) : ColumnLinear (f ∘ g) where
  xor v w := by simp only [Function.comp_apply, hg.xor, hf.xor]
  double w := by simp only [Function.comp_apply, hg.double, hf.double]

theorem ColumnLinear.scale {f : Word → Word} (hf : ColumnLinear f) (b : Byte) (w : Word) :
    f (scaleWord b w) = scaleWord b (f w) := by
  induction b using byte_induction with
  | hone => rw [scaleWord_one, scaleWord_one]
  | hdouble b ih => rw [scaleWord_xtime, scaleWord_xtime, hf.double, ih]
  | hadd a b iha ihb => rw [scaleWord_xor, scaleWord_xor, hf.xor, iha, ihb]

/-- A linear map that fixes the four unit columns is the identity. -/
theorem ColumnLinear.eq_self {f : Word → Word} (hf : ColumnLinear f)
    (h0 : f (wordOfBytes 1 0 0 0) = wordOfBytes 1 0 0 0) (h1 : f (wordOfBytes 0 1 0 0) = wordOfBytes 0 1 0 0)
    (h2 : f (wordOfBytes 0 0 1 0) = wordOfBytes 0 0 1 0) (h3 : f (wordOfBytes 0 0 0 1) = wordOfBytes 0 0 0 1)
    (w : Word) : f w = w := by
  rw [← sum_scaleWord_byteOf w]
  simp only [hf.xor, hf.scale, h0, h1, h2, h3]

/-- A linear map that fixes the column of ones fixes every column of equal bytes. -/
theorem ColumnLinear.equal_bytes {f : Word → Word} (hf : ColumnLinear f)
    (h : f (wordOfBytes 1 1 1 1) = wordOfBytes 1 1 1 1) (b : Byte) : f (wordOfBytes b b b b) = wordOfBytes b b b b := by
  have hb : wordOfBytes b b b b = scaleWord b (wordOfBytes 1 1 1 1) := by
    rw [scaleWord_wordOfBytes, gmul_one_left]
  rw [hb, hf.scale, h]

/-! ### MixColumns and InvMixColumns (R105, R106) -/

/-- Byte `r` of a column multiplied by the circulant matrix with first row `m`. -/
def circulantByte (m : List Nat) (w : Word) (r : Fin 4) : Byte :=
  gmul (byteOf w 0) (m.getD (0 - r).val 0) ^^^ gmul (byteOf w 1) (m.getD (1 - r).val 0)
    ^^^ gmul (byteOf w 2) (m.getD (2 - r).val 0) ^^^ gmul (byteOf w 3) (m.getD (3 - r).val 0)

/-- A circulant matrix is linear. -/
theorem columnLinear_of_circulant {f : Word → Word} {m : List Nat}
    (hf : ∀ w (r : Fin 4), byteOf (f w) r.val = circulantByte m w r) : ColumnLinear f where
  xor v w := word_ext_rows fun r => by
    simp only [hf, byteOf_xor, circulantByte, gmul_xor_left]
    ac_rfl
  double w := word_ext_rows fun r => by
    rw [hf, byteOf_doubleWord, hf]
    simp [circulantByte, doubleWord, gmul_xtime_left, xtime_xor]

theorem byteOf_mixColumn (w : Word) (r : Fin 4) : byteOf (mixColumn w) r.val = circulantByte [2, 3, 1, 1] w r := by
  match r with
  | 0 | 1 | 2 | 3 => simp [mixColumn, circulantByte, -zero_sub]

theorem byteOf_invMixColumn (w : Word) (r : Fin 4) :
    byteOf (invMixColumn w) r.val = circulantByte [14, 11, 13, 9] w r :=
  byteOf_wordOfBytes (circulantByte [14, 11, 13, 9] w) r

theorem mixColumn_linear : ColumnLinear mixColumn := columnLinear_of_circulant byteOf_mixColumn

theorem invMixColumn_linear : ColumnLinear invMixColumn := columnLinear_of_circulant byteOf_invMixColumn

/-- The two matrices are inverse: their product takes each unit column to itself. -/
@[simp] theorem invMixColumn_mixColumn (w : Word) : invMixColumn (mixColumn w) = w :=
  (invMixColumn_linear.comp mixColumn_linear).eq_self rfl rfl rfl rfl w

@[simp] theorem mixColumn_invMixColumn (w : Word) : mixColumn (invMixColumn w) = w :=
  (mixColumn_linear.comp invMixColumn_linear).eq_self rfl rfl rfl rfl w

theorem gridByte_mixColumns (S : Block) (r c : Fin 4) :
    gridByte (mixColumns S) r.val c = circulantByte [2, 3, 1, 1] (col S c) r := by
  rw [gridByte, mixColumns, col_ofCols, byteOf_mixColumn]

theorem gridByte_invMixColumns (S : Block) (r c : Fin 4) :
    gridByte (invMixColumns S) r.val c = circulantByte [14, 11, 13, 9] (col S c) r := by
  rw [gridByte, invMixColumns, col_ofCols, byteOf_invMixColumn]

@[simp] theorem invMixColumns_mixColumns (S : Block) : invMixColumns (mixColumns S) = S :=
  block_ext fun c => by simp [invMixColumns, mixColumns]

@[simp] theorem mixColumns_invMixColumns (S : Block) : mixColumns (invMixColumns S) = S :=
  block_ext fun c => by simp [invMixColumns, mixColumns]

theorem mixColumns_xorBlock (S T : Block) : mixColumns (xorBlock S T) = xorBlock (mixColumns S) (mixColumns T) :=
  block_ext fun c => by simp only [mixColumns, col_ofCols, col_xorBlock, mixColumn_linear.xor]

theorem invMixColumns_xorBlock (S T : Block) :
    invMixColumns (xorBlock S T) = xorBlock (invMixColumns S) (invMixColumns T) :=
  block_ext fun c => by simp only [invMixColumns, col_ofCols, col_xorBlock, invMixColumn_linear.xor]

/-- Settles O53: the laws of the transforms above; SubBytes is not additive since `sbox 0` is not 0. -/
theorem transformsAreInverse : Obligations.TransformsAreInverse :=
  ⟨fun S => ⟨invSubBytes_subBytes S, subBytes_invSubBytes S⟩,
    fun S => ⟨invShiftRows_shiftRows S, shiftRows_invShiftRows S⟩,
    fun S => ⟨invMixColumns_mixColumns S, mixColumns_invMixColumns S⟩, xorBlock_cancel,
    fun S => ⟨subBytes_shiftRows S, invSubBytes_invShiftRows S⟩,
    fun S T => ⟨mixColumns_xorBlock S T, invMixColumns_xorBlock S T⟩, zeroBlock, zeroBlock, by decide +kernel⟩

/-! ### The commands of the transforms (R100) -/

/-- `STATE` after a command none of whose checks fails. -/
theorem state_of_exec {i : Instr} {s u : State} (h : exec i s = .next u) (hs : s.Running)
    (hc : firstFailing (checksOf i s) = none) : u.state = (effectOf i s).state := by
  rw [exec_completes hs hc] at h
  rw [← Host.Outcome.next.inj h]

/-- Settles O21: a substitution completes in the substituted block, and its partner takes each byte back. -/
theorem substitutionCommands : Obligations.SubstitutionCommands := by
  refine ⟨decodeInvertsEncode .subb rfl, decodeInvertsEncode .isubb rfl, fun s hs => ⟨?_, ?_⟩, by decide +kernel⟩
  · exact ⟨_, exec_completes hs rfl, rfl, gridByte_subBytes s.state, fun c => col_ofCols _ c,
      fun u hu => (state_of_exec hu hs rfl).trans (invSubBytes_subBytes s.state)⟩
  · exact ⟨_, exec_completes hs rfl, rfl, gridByte_invSubBytes s.state,
      fun u hu => (state_of_exec hu hs rfl).trans (subBytes_invSubBytes s.state)⟩

/-- Settles O22: a row rotation completes in the rotated block, and its partner rotates each row back. -/
theorem rowRotationCommands : Obligations.RowRotationCommands := by
  refine ⟨decodeInvertsEncode .shrow rfl, decodeInvertsEncode .ishrow rfl, fun s hs => ⟨?_, ?_⟩,
    fun S => ⟨(subBytes_shiftRows S).symm, (invSubBytes_invShiftRows S).symm⟩, by decide +kernel⟩
  · exact ⟨_, exec_completes hs rfl, rfl, gridByte_shiftRows s.state,
      fun u hu => (state_of_exec hu hs rfl).trans (invShiftRows_shiftRows s.state)⟩
  · exact ⟨_, exec_completes hs rfl, rfl, gridByte_invShiftRows s.state,
      fun u hu => (state_of_exec hu hs rfl).trans (shiftRows_invShiftRows s.state)⟩

/-- Settles O23: a column mixing completes in the mixed block, and its partner multiplies by the inverse matrix. -/
theorem columnMixingCommands : Obligations.ColumnMixingCommands := by
  refine ⟨decodeInvertsEncode .mixc rfl, decodeInvertsEncode .imixc rfl, fun s hs => ⟨?_, ?_⟩,
    fun b => ⟨mixColumn_linear.equal_bytes rfl b, invMixColumn_linear.equal_bytes rfl b⟩,
    fun S T => ⟨mixColumns_xorBlock S T, invMixColumns_xorBlock S T⟩, by decide +kernel⟩
  · exact ⟨_, exec_completes hs rfl, rfl, gridByte_mixColumns s.state,
      fun u hu => (state_of_exec hu hs rfl).trans (invMixColumns_mixColumns s.state)⟩
  · exact ⟨_, exec_completes hs rfl, rfl, gridByte_invMixColumns s.state,
      fun u hu => (state_of_exec hu hs rfl).trans (mixColumns_invMixColumns s.state)⟩

/-! ### `ADDRK` (R107) -/

theorem col_roundKey (rk : Vector Word 60) (r : Nat) (c : Fin 4) :
    col (roundKey rk r) c = rk.getD (4 * r + c.val) 0 := by
  match c with
  | 0 => rfl
  | 1 => rfl
  | 2 => rfl
  | 3 => rfl

/-- The first four words of the schedule that `KEXP` derives are those of the key (R121). -/
theorem getD_rk_of_kexp {s t : State} {k : KeySize} (hs : s.Running) (h : exec (kexpOf k) s = .next t) {c : Nat}
    (hc : c < 4) : t.rk.getD c 0 = s.key.getD c 0 := by
  have hchecks : firstFailing (checksOf (kexpOf k) s) = none := by cases k <;> rfl
  rw [exec_completes hs hchecks, effectOf_kexpOf] at h
  rw [← Host.Outcome.next.inj h]
  exact (isSchedule_constructInstance s k).1 c (hc.trans_le (Nat.le_add_right 4 _))

theorem firstFailing_addrk (r : BitVec 4) (s : State) : firstFailing (checksOf (.addrk r) s) =
    if s.status.kvalid = false then some (3, 0)
    else if 10 + 2 * s.status.ksz.code.toNat < r.toNat then some (12, r.setWidth 32) else none := by
  simp [checksOf, firstFailing]

/-- Settles O24: the two checks in order, and adding the same round key twice cancels. -/
theorem addRoundKeyCommand : Obligations.AddRoundKeyCommand := by
  refine ⟨fun s t k hs h c hc => getD_rk_of_kexp hs h hc, by decide, fun s r hs => ?_⟩
  rw [← encode_addrk]
  refine ⟨decodeInvertsEncode (.addrk r) rfl, fun hk => ?_, fun hk hr => ?_, fun hk hr => ?_⟩
  · exact exec_faulted hs (by simp [firstFailing_addrk, hk])
  · exact exec_faulted hs (by simp [firstFailing_addrk, hk, hr])
  · have hpass : firstFailing (checksOf (.addrk r) s) = none := by simp [firstFailing_addrk, hk, Nat.not_lt.mpr hr]
    refine ⟨_, exec_completes hs hpass, rfl, fun c => ?_, fun u hu => ?_⟩
    · exact (col_xorBlock ..).trans (by rw [col_roundKey])
    · exact (state_of_exec hu hs hpass).trans (xorBlock_cancel ..)

end Sys2Proof.Machine

namespace Sys2Proof.Machine

/-! Proofs about the key schedule (spec 42_key_schedule.md): what `KEXP` and `DROP` do, which words are a `KEXP`, and
what the schedule depends on. -/

/-! ### `KEXP` (R121, R123) -/

/-- A `KEXP` of a legal key length has no check to fail. -/
theorem exec_kexpOf {s : State} (hs : s.Running) (k : KeySize) :
    exec (kexpOf k) s = .next (s.constructInstance k) := by
  have hchecks : firstFailing (checksOf (kexpOf k) s) = none := by cases k <;> rfl
  rw [exec_completes hs hchecks, effectOf_kexpOf]

section
variable {n : BitVec 8} (h16 : n ≠ 16#8) (h24 : n ≠ 24#8) (h32 : n ≠ 32#8)
include h16 h24 h32

/-- The one check of a `KEXP` fails for every length that is not legal. -/
theorem firstFailing_kexpOther (s : State) :
    firstFailing (checksOf (.kexpOther n) s) = some (2, n.setWidth 32) := by
  simpa [checksOf, firstFailing] using And.intro h16 ⟨h24, h32⟩

theorem wellFormed_kexpOther : (Instr.kexpOther n).wellFormed = true := by
  simpa [Instr.wellFormed, legalKeyLengths] using And.intro h16 ⟨h24, h32⟩

end

/-- The argument of a `KEXP` is its key length: no word with another bit set decodes (R61). -/
theorem decode_kexp_mustBeZero {w : Word} (ho : opField w = 0x20) (hz : (argField w).extractLsb' 8 16 ≠ 0) :
    decode w = .error (.mustBeZero (opField w) (argField w)) := by
  have hop : (opField w).toNat = 0x20 := by rw [ho]; rfl
  simp only [decode, hop]
  exact if_neg hz

/-- Settles O25: a legal length passes the one check and constructs the instance; every other fails it; and a word with
more than the length does not decode. -/
theorem keyExpansionCommand : Obligations.KeyExpansionCommand := by
  refine fun s hs => ⟨fun k => ?_, fun n h16 h24 h32 => ?_, decodeInvertsEncode .kexp128 rfl,
    decodeInvertsEncode .kexp192 rfl, decodeInvertsEncode .kexp256 rfl,
    fun w ho hz => issue_of_decode_error hs (decode_kexp_mustBeZero ho hz)⟩
  · exact ⟨_, exec_kexpOf hs k, rfl, isSchedule_constructInstance s k⟩
  · rw [← encode_kexpOther]
    exact ⟨decodeInvertsEncode _ (wellFormed_kexpOther h16 h24 h32),
      exec_faulted hs (firstFailing_kexpOther h16 h24 h32 s)⟩

/-! ### What the schedule depends on (R124, R125) -/

/-- The words of `KEY` that a key size takes are the first `Nk`. -/
theorem keyWords_congr {s s' : State} {k : KeySize} (h : ∀ i : Fin 8, i.val < k.nk → s'.key[i] = s.key[i]) :
    s'.keyWords k.nk = s.keyWords k.nk := by
  refine List.ext_getElem (by rw [State.length_keyWords, State.length_keyWords]) fun i hi _ => ?_
  have hnk : i < k.nk := State.length_keyWords s' k ▸ hi
  have h8 : k.nk ≤ 8 := by cases k <;> decide
  simpa [State.keyWords] using h ⟨i, by omega⟩ hnk

/-- Settles O26: the schedule that `KEXP` derives is made of the first `Nk` key words, and these agree. -/
theorem scheduleDependsOnKeyWordsOnly : Obligations.ScheduleDependsOnKeyWordsOnly := by
  intro k s s' t t' hs hs' hkey ht ht'
  obtain rfl := Host.Outcome.next.inj ((exec_kexpOf hs k).symm.trans ht)
  obtain rfl := Host.Outcome.next.inj ((exec_kexpOf hs' k).symm.trans ht')
  rw [State.constructInstance_rk, State.constructInstance_rk, keyWords_congr hkey]

/-! ### `DROP` (R126) -/

/-- Settles O27: `DROP` has no check, so it completes unless a latched fault makes the block ignore it. -/
theorem dropCommand : Obligations.DropCommand :=
  ⟨decodeInvertsEncode .drop rfl, fun _ =>
    ⟨fun hs => exec_completes hs rfl, fun hf => (exec_eq ..).trans (runCommand_frozen hf ..)⟩⟩

end Sys2Proof.Machine

namespace Sys2Proof.Machine

/-! Proofs about the block cipher (spec 43_block_cipher.md): the cipher and the inverse cipher undo each other, what the
four block commands do, and that the round commands, issued one by one, make the cipher. -/

/-! ### The cipher and its inverse (R135, R136, R141) -/

@[simp] theorem addRoundKey_cancel (S K : Block) : addRoundKey (addRoundKey S K) K = S := xorBlock_cancel S K

/-- The rounds with one more at the end: the order in which the inverse cipher takes them back. -/
theorem cipherRounds_succ_last (rk : Vector Word 60) (n r : Nat) (S : Block) :
    cipherRounds rk (n + 1) r S =
      addRoundKey (mixColumns (shiftRows (subBytes (cipherRounds rk n r S)))) (roundKey rk (r + n)) := by
  induction n generalizing r S with
  | zero => rfl
  | succ n ih =>
    rw [cipherRounds, ih, cipherRounds, Nat.add_right_comm, Nat.add_assoc r n 1]

/-- The inverse rounds take back the rounds, up to the SubBytes and ShiftRows that follow these in the cipher. -/
theorem invCipherRounds_cipherRounds (rk : Vector Word 60) (n : Nat) (S : Block) :
    invCipherRounds rk n (shiftRows (subBytes (cipherRounds rk n 1 S))) = shiftRows (subBytes S) := by
  induction n with
  | zero => rfl
  | succ n ih => simp [invCipherRounds, cipherRounds_succ_last, Nat.add_comm 1, ih]

/-- The rounds take back the inverse rounds, up to the InvShiftRows and InvSubBytes that follow these. -/
theorem cipherRounds_invCipherRounds (rk : Vector Word 60) (n : Nat) (S : Block) :
    cipherRounds rk n 1 (invSubBytes (invShiftRows (invCipherRounds rk n S))) = invSubBytes (invShiftRows S) := by
  induction n generalizing S with
  | zero => rfl
  | succ n ih => simp [invCipherRounds, cipherRounds_succ_last, Nat.add_comm 1, ih]

@[simp] theorem invCipher_cipher (S : Block) (rk : Vector Word 60) (nr : Nat) :
    invCipher (cipher S rk nr) rk nr = S := by
  simp [invCipher, cipher, invCipherRounds_cipherRounds]

@[simp] theorem cipher_invCipher (S : Block) (rk : Vector Word 60) (nr : Nat) :
    cipher (invCipher S rk nr) rk nr = S := by
  simp [invCipher, cipher, cipherRounds_invCipherRounds]

/-- Settles O31: the rounds cancel from the middle outwards. -/
theorem cipherRoundTrip : Obligations.CipherRoundTrip :=
  fun S rk nr _ => ⟨invCipher_cipher S rk nr, cipher_invCipher S rk nr⟩

/-- Settles O32: the schedule and the cipher run on the source's key and plaintext. -/
theorem knownAnswerAes128 : Obligations.KnownAnswerAes128 := by
  unfold Obligations.KnownAnswerAes128
  decide +kernel

@[simp] theorem State.decrypt_encrypt (s : State) (S : Block) : s.decrypt (s.encrypt S) = S := invCipher_cipher ..

@[simp] theorem State.encrypt_decrypt (s : State) (S : Block) : s.encrypt (s.decrypt S) = S := cipher_invCipher ..

/-! ### `ENCBLK` and `DECBLK` (R137, R138) -/

/-- The one check of `ENCBLK`, which `DECBLK` shares. -/
theorem firstFailing_encblk (s : State) :
    firstFailing (checksOf .encblk s) = if s.status.kvalid = false then some (3, 0) else none := by
  simp [checksOf, firstFailing]

/-- Settles O28: the one check, and the cipher of the unchanged instance undone by its inverse. -/
theorem registerBlockCommands : Obligations.RegisterBlockCommands := by
  refine ⟨decodeInvertsEncode .encblk rfl, decodeInvertsEncode .decblk rfl, fun s hs => ⟨fun hk => ?_, fun hk => ?_⟩⟩
  · have hfail : firstFailing (checksOf .encblk s) = some (3, 0) := by simp [firstFailing_encblk, hk]
    exact ⟨exec_faulted hs hfail, exec_faulted (i := .decblk) hs hfail⟩
  · have hpass : firstFailing (checksOf .encblk s) = none := by simp [firstFailing_encblk, hk]
    exact ⟨⟨_, exec_completes hs hpass, rfl, fun u hu => (state_of_exec hu hs hpass).trans (s.decrypt_encrypt _)⟩,
      ⟨_, exec_completes (i := .decblk) hs hpass, rfl,
        fun u hu => (state_of_exec hu hs hpass).trans (s.encrypt_decrypt _)⟩⟩

/-! ### `ENCBLKM` and `DECBLKM` (R139, R140) -/

/-- The two checks of `ENCBLKM`, which `DECBLKM` shares. -/
theorem firstFailing_encblkm (off : BitVec 24) (s : State) : firstFailing (checksOf (.encblkm off) s) =
    if s.status.kvalid = false then some (3, 0)
    else if s.params.bufBytes < off.toNat + 16 then some (5, off.setWidth 32) else none := by
  simp [checksOf, firstFailing]

theorem firstFailing_encblkm_eq_none {off : BitVec 24} {s : State} (hk : s.status.kvalid = true)
    (hr : off.toNat + 16 ≤ s.params.bufBytes) : firstFailing (checksOf (.encblkm off) s) = none := by
  simp [firstFailing_encblkm, hk, Nat.not_lt.mpr hr]

theorem effectOf_encblkm_state (off : BitVec 24) (s : State) :
    (effectOf (.encblkm off) s).state = s.encrypt (s.loadBlock off.toNat) := rfl

theorem effectOf_decblkm_state (off : BitVec 24) (s : State) :
    (effectOf (.decblkm off) s).state = s.decrypt (s.loadBlock off.toNat) := rfl

@[simp] theorem State.memRead_complete (s : State) (c : ResultCode) (a n : Nat) :
    (s.complete c).memRead a n = s.memRead a n :=
  State.memRead_congr fun _ _ => by rw [State.bufByte_complete]

/-- The processed block holds its image. -/
theorem State.memRead_processBlock_same (s : State) (f : Block → Block) (a : Nat) :
    (s.processBlock f a).memRead a 16 = wordsToBlock (f (s.loadBlock a)) := by
  rw [← State.memRead_storeBlock_same s a (f (s.loadBlock a))]
  exact State.memRead_congr fun i _ => congrFun (State.bufByte_processBlock s f a) _

/-- Processing a block by `f` and then by an inverse of `f` leaves every byte as it was. -/
theorem sameBuffer_of_processBlock {s t u : State} {f g : Block → Block} {a : Nat} (hgf : ∀ S, g (f S) = S)
    (ht : t.bufByte = (s.processBlock f a).bufByte) (hu : u.bufByte = (t.processBlock g a).bufByte) :
    SameBuffer s u := by
  have hload : t.loadBlock a = f (s.loadBlock a) := by
    rw [State.loadBlock_of_bufByte ht, State.loadBlock_processBlock, State.loadBlock_storeBlock_same]
  intro b
  rw [hu, State.bufByte_processBlock, State.bufByte_storeBlock, hload, hgf]
  by_cases hb : a ≤ b ∧ b < a + 16
  · rw [if_pos hb, State.bufByte_loadBlock _ _ _ (by omega), Nat.add_sub_cancel' hb.1]
  · rw [if_neg hb, ht, State.bufByte_processBlock, State.bufByte_storeBlock, if_neg hb]

/-- Settles O29: the two checks in order, and the block at `off` processed by a cipher whose inverse puts it back. -/
theorem bufferBlockCommands : Obligations.BufferBlockCommands := by
  intro s off hs
  rw [← encode_encblkm, ← encode_decblkm]
  refine ⟨decodeInvertsEncode (.encblkm off) rfl, decodeInvertsEncode (.decblkm off) rfl, fun hk => ?_,
    fun hk hr => ?_, fun hk hr => ?_⟩
  · have hfail : firstFailing (checksOf (.encblkm off) s) = some (3, 0) := by simp [firstFailing_encblkm, hk]
    exact ⟨exec_faulted hs hfail, exec_faulted (i := .decblkm off) hs hfail⟩
  · have hfail : firstFailing (checksOf (.encblkm off) s) = some (5, off.setWidth 32) := by
      simp [firstFailing_encblkm, hk, hr]
    exact ⟨exec_faulted hs hfail, exec_faulted (i := .decblkm off) hs hfail⟩
  · have hpass := firstFailing_encblkm_eq_none hk hr
    refine ⟨⟨_, exec_completes hs hpass, rfl, effectOf_encblkm_state off s, ?_,
      effectOf_sameBufferOutside (.encblkm off) s, fun u hu => ?_⟩,
      ⟨_, exec_completes (i := .decblkm off) hs hpass, rfl, effectOf_decblkm_state off s, ?_,
      effectOf_sameBufferOutside (.decblkm off) s, fun u hu => ?_⟩⟩
    · simp [effectOf, State.memRead_processBlock_same]
    · rw [exec_completes (i := .decblkm off) (s := effectOf (.encblkm off) s) hs hpass] at hu
      rw [← Host.Outcome.next.inj hu]
      exact sameBuffer_of_processBlock s.decrypt_encrypt (State.bufByte_complete ..) (State.bufByte_complete ..)
    · simp [effectOf, State.memRead_processBlock_same]
    · rw [exec_completes (i := .encblkm off) (s := effectOf (.decblkm off) s) hs hpass] at hu
      rw [← Host.Outcome.next.inj hu]
      exact sameBuffer_of_processBlock s.encrypt_decrypt (State.bufByte_complete ..) (State.bufByte_complete ..)

/-- Settles O30: all four commands pass their checks, and both forms apply the same cipher to the same block. -/
theorem valueAndInPlaceFormsAgree : Obligations.ValueAndInPlaceFormsAgree := by
  rintro s off ⟨hs, hk⟩ hr hS t u t' u' ht hu ht' hu'
  have hpass : firstFailing (checksOf .encblk s) = none := by simp [firstFailing_encblk, hk]
  have hpassm := firstFailing_encblkm_eq_none hk hr
  constructor
  · rw [state_of_exec ht hs hpass, state_of_exec hu hs hpassm]
    exact congrArg s.encrypt hS
  · rw [state_of_exec ht' hs hpass, state_of_exec hu' hs hpassm]
    exact congrArg s.decrypt hS

/-! ### Sequences of round commands (R100, R107) -/

/-- Every round of a cipher instance has an index that `ADDRK` can name (R21, R62). -/
theorem State.toNat_roundIndex (s : State) {r : Nat} (hr : r ≤ s.rounds) : (BitVec.ofNat 4 r).toNat = r := by
  have hmax : s.rounds ≤ 14 := by
    unfold State.rounds
    cases s.status.ksz <;> decide
  exact Nat.mod_eq_of_lt (by omega)

/-- `s` after a command that completes with `S` in `STATE` and writes nothing else. -/
def State.withBlock (s : State) (S : Block) : State := { s with state := S, result := 0 }

theorem exec_addrk {s : State} (hs : s.Keyed) {r : Nat} (hr : r ≤ s.rounds) :
    exec (.addrk (BitVec.ofNat 4 r)) s = .next (s.withBlock (addRoundKey s.state (roundKey s.rk r))) := by
  obtain ⟨hrun, hk⟩ := hs
  have hindex := s.toNat_roundIndex hr
  have hpass : firstFailing (checksOf (.addrk (BitVec.ofNat 4 r)) s) = none := by
    rw [firstFailing_addrk, hindex, if_neg (by simp [hk])]
    exact if_neg (Nat.not_lt.mpr hr)
  rw [exec_completes hrun hpass, effectOf, hindex]
  rfl

theorem runCommands_cons_of_next {i : Instr} {s t : State} (h : exec i s = .next t) (is : List Instr) :
    runCommands (i :: is) s = runCommands is t := by
  rw [runCommands, h]

theorem runCommands_append_of_next {is : List Instr} {s t : State} (h : runCommands is s = .next t)
    (js : List Instr) : runCommands (is ++ js) s = runCommands js t := by
  induction is generalizing s with
  | nil => rw [Host.Outcome.next.inj h, List.nil_append]
  | cons i is ih =>
    obtain ⟨u, hu⟩ := exec_next i s
    rw [runCommands_cons_of_next hu] at h
    rw [List.cons_append, runCommands_cons_of_next hu, ih h]

/-- With any block in the `STATE` of `s`, the commands `is` replace it by its image under `f`. -/
def Transforms (s : State) (is : List Instr) (f : Block → Block) : Prop :=
  ∀ S, runCommands is (s.withBlock S) = .next (s.withBlock (f S))

theorem Transforms.nil (s : State) : Transforms s [] id := fun _ => rfl

theorem Transforms.append {s : State} {is js : List Instr} {f g : Block → Block} (his : Transforms s is f)
    (hjs : Transforms s js g) : Transforms s (is ++ js) fun S => g (f S) :=
  fun S => (runCommands_append_of_next (his S) js).trans (hjs (f S))

section
variable {s : State} {is : List Instr} {g : Block → Block} (hs : s.Keyed) (h : Transforms s is g)
include hs h

/-- A command without checks goes before the others. -/
theorem Transforms.cons {i : Instr} {f : Block → Block} (hi : ∀ t, checksOf i t = [])
    (hf : ∀ t, effectOf i t = t.withBlock (f t.state)) : Transforms s (i :: is) fun S => g (f S) := by
  intro S
  have hexec : exec i (s.withBlock S) = .next (s.withBlock (f S)) := by
    rw [exec_completes (s := s.withBlock S) hs.1 (by rw [hi]; rfl), hf]
    rfl
  exact (runCommands_cons_of_next hexec is).trans (h (f S))

theorem Transforms.subb : Transforms s (.subb :: is) fun S => g (subBytes S) :=
  h.cons hs (fun _ => rfl) fun _ => rfl

theorem Transforms.isubb : Transforms s (.isubb :: is) fun S => g (invSubBytes S) :=
  h.cons hs (fun _ => rfl) fun _ => rfl

theorem Transforms.shrow : Transforms s (.shrow :: is) fun S => g (shiftRows S) :=
  h.cons hs (fun _ => rfl) fun _ => rfl

theorem Transforms.ishrow : Transforms s (.ishrow :: is) fun S => g (invShiftRows S) :=
  h.cons hs (fun _ => rfl) fun _ => rfl

theorem Transforms.mixc : Transforms s (.mixc :: is) fun S => g (mixColumns S) :=
  h.cons hs (fun _ => rfl) fun _ => rfl

theorem Transforms.imixc : Transforms s (.imixc :: is) fun S => g (invMixColumns S) :=
  h.cons hs (fun _ => rfl) fun _ => rfl

/-- An `ADDRK` that starts a sequence, whatever `RESULT` holds before it. -/
theorem Transforms.runCommands_addrk {r : Nat} (hr : r ≤ s.rounds) :
    runCommands (.addrk (BitVec.ofNat 4 r) :: is) s =
      .next (s.withBlock (g (addRoundKey s.state (roundKey s.rk r)))) :=
  (runCommands_cons_of_next (exec_addrk hs hr) is).trans (h _)

theorem Transforms.addrk {r : Nat} (hr : r ≤ s.rounds) :
    Transforms s (.addrk (BitVec.ofNat 4 r) :: is) fun S => g (addRoundKey S (roundKey s.rk r)) :=
  fun S => (runCommands_cons_of_next (exec_addrk (s := s.withBlock S) hs hr) is).trans (h _)

end

/-! ### The round commands make the cipher (R135, R136) -/

section
variable {s : State} (hs : s.Keyed)
include hs

/-- The full rounds of P1 are those of the cipher. -/
theorem transforms_cipherRounds {n : Nat} (hn : n ≤ s.rounds) :
    Transforms s ((List.range n).flatMap fun r => [.subb, .shrow, .mixc, .addrk (BitVec.ofNat 4 (r + 1))])
      (cipherRounds s.rk n 1) := by
  induction n with
  | zero => exact .nil s
  | succ n ih =>
    have hround := ((((Transforms.nil s).addrk hs hn).mixc hs).shrow hs).subb hs
    intro S
    rw [cipherRounds_succ_last, Nat.add_comm 1, List.range_succ, List.flatMap_append, List.flatMap_singleton]
    exact (ih (by omega)).append hround S

/-- The full rounds of the decryption by hand are those of the inverse cipher. -/
theorem transforms_invCipherRounds {n : Nat} (hn : n ≤ s.rounds) :
    Transforms s ((List.range n).reverse.flatMap fun r =>
      [.ishrow, .isubb, .addrk (BitVec.ofNat 4 (r + 1)), .imixc]) (invCipherRounds s.rk n) := by
  induction n with
  | zero => exact .nil s
  | succ n ih =>
    have hround := ((((Transforms.nil s).imixc hs).addrk hs hn).isubb hs).ishrow hs
    rw [List.range_succ, List.reverse_append, List.reverse_singleton, List.singleton_append, List.flatMap_cons]
    exact hround.append (ih (by omega))

theorem runCommands_encryptByHand : runCommands (encryptByHand s.rounds) s = .next (s.withBlock (s.encrypt s.state)) :=
  ((transforms_cipherRounds hs (Nat.sub_le ..)).append
    ((((Transforms.nil s).addrk hs le_rfl).shrow hs).subb hs)).runCommands_addrk hs (Nat.zero_le _)

theorem runCommands_decryptByHand : runCommands (decryptByHand s.rounds) s = .next (s.withBlock (s.decrypt s.state)) :=
  ((transforms_invCipherRounds hs (Nat.sub_le ..)).append
    ((((Transforms.nil s).addrk hs (Nat.zero_le _)).isubb hs).ishrow hs)).runCommands_addrk hs le_rfl

end

/-- Settles O33: the first `ADDRK` leaves a block in `STATE`, and the commands after it map that block as the rounds of
the cipher, or of the inverse cipher, do. -/
theorem roundCommandsMakeTheCipher : Obligations.RoundCommandsMakeTheCipher := by
  rintro s ⟨hrun, hk⟩
  have hpass : firstFailing (checksOf .encblk s) = none := by simp [firstFailing_encblk, hk]
  exact ⟨(runCommands_encryptByHand ⟨hrun, hk⟩).trans (exec_completes hrun hpass).symm,
    (runCommands_decryptByHand ⟨hrun, hk⟩).trans (exec_completes (i := .decblk) hrun hpass).symm⟩

end Sys2Proof.Machine

namespace Sys2Proof.Machine

/-! Proofs about ECB (spec 44_ecb.md): what `ECBENC` and `ECBDEC` leave in every block, that they undo each other, and
that a mode encryption with padding is `PAD` followed by the blocks. -/

/-! ### When a mode command runs (R150, R151, R162, R176) -/

theorem firstRaise_append_eq_none {as bs : List (Option Raise)} :
    firstRaise (as ++ bs) = none ↔ firstRaise as = none ∧ firstRaise bs = none := by
  simp [firstRaise_eq_none, or_imp, forall_and]

theorem firstRaise_cons_eq_none {c : Option Raise} {rest : List (Option Raise)} :
    firstRaise (c :: rest) = none ↔ c = none ∧ firstRaise rest = none := by
  cases c <;> simp

theorem needIv_eq_none {s : State} : needIv s = none ↔ s.status.ivvalid = true := by
  simp [needIv, failWhen_eq_none]

theorem firstRaise_checkBuffer_eq_none {s : State} : firstRaise (checkBuffer s) = none ↔ s.BlockAligned := by
  simp [checkBuffer, firstRaise_cons_eq_none, bufferInBuf_eq_none, bufferAligned, failWhen_eq_none, State.BlockAligned]

theorem firstRaise_checkSelectedPad {s : State} {p : PadSelect} (hp : p = .pkcs7 → s.PadFits) :
    firstRaise (checkSelectedPad s p) = none := by
  cases p with
  | noPad => rfl
  | pkcs7 => exact firstRaise_checkPad_eq_none.mpr (hp rfl)

section
variable {s : State} (hs : s.Keyed) (ha : s.BlockAligned)
include hs ha

theorem exec_ecbenc (p : PadSelect) (hp : p = .pkcs7 → s.PadFits) :
    exec (.ecbenc p) s = .next (effectOf (.ecbenc p) s) := by
  refine exec_done hs.1 (firstRaise_append_eq_none.mpr ⟨?_, firstRaise_checkSelectedPad hp⟩)
  exact firstRaise_cons_eq_none.mpr ⟨needKey_eq_none.mpr hs.2, firstRaise_checkBuffer_eq_none.mpr ha⟩

theorem exec_ecbdec : exec .ecbdec s = .next (effectOf .ecbdec s) :=
  exec_done hs.1 (firstRaise_cons_eq_none.mpr ⟨needKey_eq_none.mpr hs.2, firstRaise_checkBuffer_eq_none.mpr ha⟩)

theorem exec_cbcenc (hv : s.status.ivvalid = true) (p : PadSelect) (hp : p = .pkcs7 → s.PadFits) :
    exec (.cbcenc p) s = .next (effectOf (.cbcenc p) s) := by
  refine exec_done hs.1 (firstRaise_append_eq_none.mpr ⟨?_, firstRaise_checkSelectedPad hp⟩)
  exact firstRaise_cons_eq_none.mpr ⟨needKey_eq_none.mpr hs.2,
    firstRaise_cons_eq_none.mpr ⟨needIv_eq_none.mpr hv, firstRaise_checkBuffer_eq_none.mpr ha⟩⟩

end

theorem exec_pad {s : State} (hs : s.Running) (hb : s.BufferFits) (hp : s.PadFits) :
    exec .pad s = .next (s.padFill.complete .ok) :=
  exec_done hs (firstRaise_cons_eq_none.mpr ⟨bufferInBuf_eq_none.mpr hb, firstRaise_checkPad_eq_none.mpr hp⟩)

theorem exec_encblkm {s : State} {off : BitVec 24} (hs : s.Keyed) (ho : off.toNat + 16 ≤ s.params.bufBytes) :
    exec (.encblkm off) s = .next ((s.processBlock s.encrypt off.toNat).complete .ok) :=
  exec_completes hs.1 (firstFailing_encblkm_eq_none hs.2 ho)

/-! ### The padded plaintext (R151, R175, R179) -/

@[simp] theorem State.applyPad_state (s : State) (p : PadSelect) : (s.applyPad p).state = s.state := by
  cases p <;> rfl

theorem State.paddedByte_eq_bufByte (s : State) (p : PadSelect) (a : Nat) :
    s.paddedByte p a = (s.applyPad p).bufByte a := by
  cases p with
  | noPad => rfl
  | pkcs7 => exact (s.bufByte_padFill_eq a).symm

theorem State.plainBlock_eq_loadBlock (s : State) (p : PadSelect) (i : Nat) :
    s.plainBlock p i = (s.applyPad p).loadBlock (16 * i) := by
  unfold State.plainBlock State.loadBlock
  simp only [State.paddedByte_eq_bufByte]
  rfl

/-! ### A completed command and the blocks (R22, R203) -/

@[simp] theorem State.loadBlock_complete (s : State) (c : ResultCode) : (s.complete c).loadBlock = s.loadBlock :=
  State.loadBlock_of_bufByte (State.bufByte_complete s c)

@[simp] theorem State.complete_complete (s : State) (c d : ResultCode) : (s.complete c).complete d = s.complete d := rfl

@[simp] theorem State.encrypt_complete (s : State) (c : ResultCode) : (s.complete c).encrypt = s.encrypt := rfl

@[simp] theorem State.encrypt_processBlock (s : State) (f : Block → Block) (a : Nat) :
    (s.processBlock f a).encrypt = s.encrypt := rfl

theorem State.processBlock_complete (s : State) (c : ResultCode) (f : Block → Block) (a : Nat) :
    (s.complete c).processBlock f a = (s.processBlock f a).complete c := by
  simp only [State.processBlock, State.loadBlock_complete, State.storeBlock_mem, State.complete_mem]
  simp only [State.complete]

/-- The block loop does not look at `RESULT`. -/
theorem ecbLoop_complete (f : Block → Block) (n i : Nat) (s : State) (c : ResultCode) :
    ecbLoop f n i (s.complete c) = (ecbLoop f n i s).complete c := by
  induction n generalizing i s with
  | zero => rfl
  | succ n ih => rw [ecbLoop, State.processBlock_complete, ih, ecbLoop]

/-- The chained loop does not look at `RESULT`. -/
theorem cbcEncLoop_complete (f : Block → Block) (n i : Nat) (prev : Block) (s : State) (c : ResultCode) :
    cbcEncLoop f n i prev (s.complete c) = (cbcEncLoop f n i prev s).complete c := by
  induction n generalizing i prev s with
  | zero => rfl
  | succ n ih => rw [cbcEncLoop, State.processBlock_complete, State.loadBlock_complete, ih, cbcEncLoop]

/-! ### Every block alone (R151, R152) -/

/-- Each of the first `n` blocks of `t` is the image under `f` of that block of `s`, and the bytes beyond them are those
of `s`. -/
structure MapsBlocks (n : Nat) (f : Block → Block) (s t : State) : Prop where
  block : ∀ i, i < n → t.loadBlock (16 * i) = f (s.loadBlock (16 * i))
  beyond : ∀ b, 16 * n ≤ b → t.bufByte b = s.bufByte b

theorem mapsBlocks_ecbLoop (f : Block → Block) (n : Nat) (s : State) (c : ResultCode) :
    MapsBlocks n f s ((ecbLoop f n 0 s).complete c) := by
  obtain ⟨-, hblock, hkeep, -⟩ := ecbLoop_spec f n 0 s
  constructor
  · intro i hi
    rw [State.loadBlock_complete, hblock i (Nat.zero_le i) (by omega)]
  · intro b hb
    rw [State.bufByte_complete, hkeep b (by omega)]

/-- Two states with the same first blocks and the same bytes beyond them hold the same buffer. -/
theorem MapsBlocks.sameBuffer {n : Nat} {s t : State} (h : MapsBlocks n id s t) : SameBuffer s t := by
  intro b
  by_cases hb : 16 * n ≤ b
  · exact h.beyond b hb
  · have hload : t.loadBlock (16 * (b / 16)) = s.loadBlock (16 * (b / 16)) := h.block _ (by omega)
    rw [← Nat.div_add_mod b 16, ← State.bufByte_loadBlock t _ _ (Nat.mod_lt b (by omega)), hload,
      State.bufByte_loadBlock _ _ _ (Nat.mod_lt b (by omega))]

theorem MapsBlocks.trans {n : Nat} {f g : Block → Block} {s t u : State} (h : MapsBlocks n f s t)
    (k : MapsBlocks n g t u) : MapsBlocks n (g ∘ f) s u where
  block i hi := (k.block i hi).trans (congrArg g (h.block i hi))
  beyond b hb := (k.beyond b hb).trans (h.beyond b hb)

/-- Mapping every block by `f` and then by an inverse of `f` leaves every byte as it was. -/
theorem MapsBlocks.cancel {n : Nat} {f g : Block → Block} {s t u : State} (h : MapsBlocks n f s t)
    (k : MapsBlocks n g t u) (hgf : Function.LeftInverse g f) : SameBuffer s u :=
  (hgf.comp_eq_id ▸ h.trans k).sameBuffer

/-- `STATE` after a pass over a buffer of whole blocks: the last block written, if there is one (R150). -/
theorem state_ecbLoop_blocks {s : State} (ha : s.buflen.toNat % 16 = 0) (f : Block → Block) (u : State) :
    (ecbLoop f s.blocks 0 u).state =
      if s.buflen = 0 then u.state else (ecbLoop f s.blocks 0 u).loadBlock (s.buflen.toNat - 16) := by
  obtain ⟨-, hblock, -, hstate⟩ := ecbLoop_spec f s.blocks 0 u
  have hlen : s.buflen.toNat = 16 * s.blocks := by
    unfold State.blocks
    omega
  rw [hstate]
  by_cases hz : s.buflen = 0
  · rw [if_pos hz, if_pos (by unfold State.blocks; rw [hz]; rfl)]
  · have hne : s.blocks ≠ 0 := fun h => hz ((toNat_eq_zero_iff _).mp (by omega))
    have hlast : s.buflen.toNat - 16 = 16 * (0 + s.blocks - 1) := by omega
    rw [if_neg hz, if_neg hne, hlast, hblock _ (by omega) (by omega)]

/-- Settles O34: the loop encrypts each block of the padded buffer alone. -/
theorem ecbEncryption : Obligations.EcbEncryption := by
  intro s p hs ha hp
  have hmap := mapsBlocks_ecbLoop s.encrypt s.blocks (s.applyPad p) .ok
  refine ⟨_, exec_ecbenc hs ha p hp, effectOf_ecbenc_frame s p, fun i hi => ?_,
    effectOf_sameBufferOutside (.ecbenc p) s, ?_⟩
  · rw [State.plainBlock_eq_loadBlock]
    exact hmap.block i hi
  · simpa [effectOf] using state_ecbLoop_blocks ha.2 s.encrypt (s.applyPad p)

/-- Settles O35: the loop decrypts each block of the buffer alone. -/
theorem ecbDecryption : Obligations.EcbDecryption := by
  intro s hs ha
  refine ⟨_, exec_ecbdec hs ha, effectOf_ecbdec_frame s, (mapsBlocks_ecbLoop s.decrypt s.blocks s .ok).block,
    effectOf_sameBufferOutside .ecbdec s, ?_⟩
  simpa [effectOf] using state_ecbLoop_blocks ha.2 s.decrypt s

/-! ### ECB as a map of blocks (R153) -/

/-- `t` is `s` but for the buffer memory, `STATE` and `RESULT`, all that a mode command writes. -/
def ModeFrame (s t : State) : Prop := ∃ m S r, t = { s with mem := m, state := S, result := r }

theorem ModeFrame.refl (s : State) : ModeFrame s s := ⟨_, _, _, rfl⟩

section
variable {s t : State} (h : ModeFrame s t) (hs : s.Keyed) (ha : s.BlockAligned)
include h hs ha

/-- `ECBENC 0` after commands that kept the registers is one pass by the cipher of `s`. -/
theorem ModeFrame.ecbenc :
    ∃ u, exec (.ecbenc .noPad) t = .next u ∧ ModeFrame s u ∧ MapsBlocks s.blocks s.encrypt t u := by
  obtain ⟨m, S, r, rfl⟩ := h
  exact ⟨_, exec_ecbenc (s := { s with mem := m, state := S, result := r }) hs ha .noPad nofun,
    ⟨_, _, _, effectOf_ecbenc_frame _ .noPad⟩, mapsBlocks_ecbLoop _ _ _ .ok⟩

/-- `ECBDEC` after commands that kept the registers is one pass by the inverse cipher of `s`. -/
theorem ModeFrame.ecbdec : ∃ u, exec .ecbdec t = .next u ∧ ModeFrame s u ∧ MapsBlocks s.blocks s.decrypt t u := by
  obtain ⟨m, S, r, rfl⟩ := h
  exact ⟨_, exec_ecbdec (s := { s with mem := m, state := S, result := r }) hs ha,
    ⟨_, _, _, effectOf_ecbdec_frame _⟩, mapsBlocks_ecbLoop _ _ _ .ok⟩

end

/-- Settles O36: both commands map every block, by the cipher and by its inverse. -/
theorem ecbRoundTrip : Obligations.EcbRoundTrip := by
  intro s hs ha
  constructor
  · obtain ⟨t, ht, hframe, hmap⟩ := (ModeFrame.refl s).ecbenc hs ha
    obtain ⟨u, hu, -, hmap'⟩ := hframe.ecbdec hs ha
    exact ⟨t, u, ht, hu, hmap.cancel hmap' s.decrypt_encrypt⟩
  · obtain ⟨t, ht, hframe, hmap⟩ := (ModeFrame.refl s).ecbdec hs ha
    obtain ⟨u, hu, -, hmap'⟩ := hframe.ecbenc hs ha
    exact ⟨t, u, ht, hu, hmap.cancel hmap' s.encrypt_decrypt⟩

theorem State.encrypt_injective (s : State) : Function.Injective s.encrypt :=
  Function.LeftInverse.injective s.decrypt_encrypt

/-- Settles O37: every block is mapped by one injective function. -/
theorem ecbEqualBlocks : Obligations.EcbEqualBlocks := by
  intro s t i j hs ha ht hi hj
  obtain ⟨u, hu, -, hmap⟩ := (ModeFrame.refl s).ecbenc hs ha
  obtain rfl : u = t := Host.Outcome.next.inj (hu.symm.trans ht)
  rw [hmap.block i hi, hmap.block j hj, s.encrypt_injective.eq_iff]

/-! ### `ECBENC` block by block (R153.4) -/

/-- `ENCBLKM` of `n` blocks in ascending order from block `i` on. -/
def encryptBlocks (i n : Nat) : List Instr :=
  (List.range' i n).map fun i => .encblkm (BitVec.ofNat 24 (16 * i))

theorem encryptBlocks_succ (i n : Nat) :
    encryptBlocks i (n + 1) = .encblkm (BitVec.ofNat 24 (16 * i)) :: encryptBlocks (i + 1) n := rfl

theorem exec_encblkm_block {s : State} (hs : s.Keyed) (hl : s.params.Legal) {i : Nat}
    (hi : 16 * (i + 1) ≤ s.params.bufBytes) :
    exec (.encblkm (BitVec.ofNat 24 (16 * i))) s = .next ((s.processBlock s.encrypt (16 * i)).complete .ok) := by
  obtain ⟨-, hmax, -⟩ := hl
  have hoff : (BitVec.ofNat 24 (16 * i)).toNat = 16 * i := Nat.mod_eq_of_lt (by omega)
  rw [exec_encblkm hs (by omega), hoff]

/-- Once a command has completed, the block commands do to it what the loop does. -/
theorem runCommands_encryptBlocks_complete (n i : Nat) {s : State} (hs : s.Keyed) (hl : s.params.Legal)
    (hn : 16 * (i + n) ≤ s.params.bufBytes) :
    runCommands (encryptBlocks i n) (s.complete .ok) = .next ((ecbLoop s.encrypt n i s).complete .ok) := by
  induction n generalizing i s with
  | zero => rfl
  | succ n ih =>
    have hfirst := exec_encblkm_block (s := s.complete .ok) hs hl (i := i) (by rw [State.complete_params]; omega)
    rw [State.processBlock_complete, State.complete_complete, State.encrypt_complete] at hfirst
    rw [encryptBlocks_succ, runCommands_cons_of_next hfirst, ecbLoop]
    exact ih (i + 1) (s := s.processBlock s.encrypt (16 * i)) hs hl (by rw [State.processBlock_params]; omega)

/-- The block commands are the loop; the first of them clears `RESULT`, so there has to be one. -/
theorem runCommands_encryptBlocks {n : Nat} {s : State} (hs : s.Keyed) (hl : s.params.Legal)
    (hn : 16 * n ≤ s.params.bufBytes) (hpos : n ≠ 0) :
    runCommands (encryptBlocks 0 n) s = .next ((ecbLoop s.encrypt n 0 s).complete .ok) := by
  obtain ⟨n, rfl⟩ := Nat.exists_eq_succ_of_ne_zero hpos
  rw [encryptBlocks_succ, runCommands_cons_of_next (exec_encblkm_block hs hl (by omega))]
  exact runCommands_encryptBlocks_complete n 1 (s := s.processBlock s.encrypt (16 * 0)) hs hl
    (by rw [State.processBlock_params]; omega)

/-- Settles O38: each `ENCBLKM` is one turn of the loop, and a `PAD` before them is the fill of the padding form. -/
theorem ecbIsBlockByBlock : Obligations.EcbIsBlockByBlock := by
  intro s hs hl ha hne blocks
  have hblocks : blocks = encryptBlocks 0 s.blocks := by rw [encryptBlocks, ← List.range_eq_range']; rfl
  have hfits : 16 * s.blocks ≤ s.params.bufBytes := by simpa using ha.1.blocks_le
  have hpos : s.blocks ≠ 0 := by
    have hlen := mt (toNat_eq_zero_iff s.buflen).mp hne
    have halign := ha.2
    unfold State.blocks
    omega
  rw [hblocks]
  constructor
  · rw [runCommands_encryptBlocks hs hl hfits hpos, exec_ecbenc hs ha .noPad nofun]
    rfl
  · intro hp
    rw [runCommands_cons_of_next (exec_pad hs.1 ha.1 hp), exec_ecbenc hs ha .pkcs7 fun _ => hp]
    exact runCommands_encryptBlocks_complete s.blocks 0 (s := s.padFill) hs hl
      (by rw [State.padFill_params]; omega)

/-! ### `PAD`, then the unpadded form (R151, R162, C5) -/

theorem runCommands_singleton (i : Instr) (s : State) : runCommands [i] s = exec i s := by
  obtain ⟨t, ht⟩ := exec_next i s
  rw [runCommands_cons_of_next ht, ht]
  rfl

/-- The padding form is the unpadded form on the padded buffer. -/
theorem effectOf_ecbenc_padFill (s : State) :
    effectOf (.ecbenc .noPad) (s.padFill.complete .ok) = effectOf (.ecbenc .pkcs7) s :=
  (congrArg (State.complete · .ok) (ecbLoop_complete s.encrypt s.blocks 0 s.padFill .ok)).trans rfl

theorem effectOf_cbcenc_padFill (s : State) :
    effectOf (.cbcenc .noPad) (s.padFill.complete .ok) = effectOf (.cbcenc .pkcs7) s :=
  (congrArg (State.complete · .ok) (cbcEncLoop_complete s.encrypt s.blocks 0 s.iv s.padFill .ok)).trans rfl

/-- Settles O39: the padding form starts its loop from the state that `PAD` leaves, but for `RESULT`. -/
theorem padThenEncryptAgrees : Obligations.PadThenEncryptAgrees := by
  intro s hs ha hp
  have hpad := exec_pad hs.1 ha.1 hp
  constructor
  · rw [runCommands_cons_of_next hpad, runCommands_singleton, exec_ecbenc hs ha .pkcs7 fun _ => hp,
      exec_ecbenc (s := s.padFill.complete .ok) hs ha .noPad nofun, effectOf_ecbenc_padFill]
  · intro hv
    rw [runCommands_cons_of_next hpad, runCommands_singleton, exec_cbcenc hs ha hv .pkcs7 fun _ => hp,
      exec_cbcenc (s := s.padFill.complete .ok) hs ha hv .noPad nofun, effectOf_cbcenc_padFill]

end Sys2Proof.Machine

namespace Sys2Proof.Machine

/-! Proofs about CBC (spec 45_cbc.md): `SETIV`, what `CBCENC` and `CBCDEC` leave in every block, that they undo each
other, and the bit-flip property. Both commands leave the one relation `CbcPair` between plaintext and ciphertext. -/

/-! ### `SETIV` (R161) -/

/-- The offset of a word of `IVIN` reaches it (R11). -/
theorem State.select32_ivin (s : State) (c : Fin 4) : s.select32 (0x060 + 4 * c.val) = .ok (.ivin c) := by
  match c with
  | 0 => rfl
  | 1 => rfl
  | 2 => rfl
  | 3 => rfl

/-- A host write to a word of `IVIN` writes no other register, frozen or not (R191). -/
theorem step_wr_ivin {s t : State} {c : Fin 4} {v : Word} {rest : List Event}
    (hp : s.pending = .wr (0x060 + 4 * c.val) v :: rest) (ht : step s = .next t) :
    t = { s with ivin := t.ivin, pending := rest, resp := .completed } := by
  cases hf : s.status.fault with
  | true =>
    simp only [step, hp, perform, State.select32_ivin, State.performWrite, hf, if_true] at ht
    rw [← Host.Outcome.next.inj ht]
  | false =>
    simp only [step, hp, perform, State.select32_ivin, State.performWrite, hf, Bool.false_eq_true, if_false] at ht
    rw [← Host.Outcome.next.inj ht]
    rfl

/-- Settles O40: the one check, the effect, and a later write that reaches `IVIN` alone. -/
theorem setivCommand : Obligations.SetivCommand := by
  refine ⟨decodeInvertsEncode .setiv rfl, fun s t c v rest hp ht => ?_, fun s hs => ⟨fun hk => ?_, fun hk => ?_⟩⟩
  · rw [step_wr_ivin hp ht]
    exact ⟨rfl, rfl⟩
  · exact exec_faulted hs (by simp [checksOf, firstFailing, hk])
  · exact exec_completes hs (by simp [checksOf, firstFailing, hk])

/-! ### Plaintext and ciphertext of a chain (R160, R162, R163) -/

theorem xorBlock_injective (K : Block) : Function.Injective (xorBlock · K) :=
  Function.LeftInverse.injective (g := (xorBlock · K)) (xorBlock_cancel · K)

theorem eq_zeroBlock_of_xorBlock_eq_self {A D : Block} (h : xorBlock A D = A) : D = zeroBlock :=
  block_ext fun c => by simpa using congrArg (col · c) h

/-- `C = Cipher(P ^ K)` says the same as `P = InvCipher(C) ^ K`: the formulas of R162 and R163. -/
theorem State.eq_encrypt_xorBlock_iff (s : State) {P C K : Block} :
    C = s.encrypt (xorBlock P K) ↔ P = xorBlock (s.decrypt C) K := by
  constructor
  · rintro rfl
    rw [s.decrypt_encrypt, xorBlock_cancel]
  · rintro rfl
    rw [xorBlock_cancel, s.encrypt_decrypt]

/-- What block `i` is chained with: the ciphertext block before it in the buffer of `C`, and `iv` before the first. -/
def chainBlock (iv : Block) (C : State) (i : Nat) : Block := if i = 0 then iv else C.loadBlock (16 * (i - 1))

/-- Under the cipher and mode instance of `s` the buffer of `C` holds the ciphertext of the buffer of `P`, and the
bytes beyond the blocks are the same. -/
structure CbcPair (s P C : State) : Prop where
  block : ∀ i, i < s.blocks →
    C.loadBlock (16 * i) = s.encrypt (xorBlock (P.loadBlock (16 * i)) (chainBlock s.iv C i))
  beyond : ∀ b, 16 * s.blocks ≤ b → C.bufByte b = P.bufByte b

theorem CbcPair.plain_block {s P C : State} (h : CbcPair s P C) {i : Nat} (hi : i < s.blocks) :
    P.loadBlock (16 * i) = xorBlock (s.decrypt (C.loadBlock (16 * i))) (chainBlock s.iv C i) :=
  s.eq_encrypt_xorBlock_iff.mp (h.block i hi)

/-- The ciphertext determines the plaintext. -/
theorem CbcPair.plain_unique {s P P' C : State} (h : CbcPair s P C) (k : CbcPair s P' C) : SameBuffer P P' := by
  have hmap : MapsBlocks s.blocks id P P' :=
    { block := fun i hi => (k.plain_block hi).trans (h.plain_block hi).symm
      beyond := fun b hb => (k.beyond b hb).symm.trans (h.beyond b hb) }
  exact hmap.sameBuffer

/-- The plaintext determines the ciphertext, block after block. -/
theorem CbcPair.cipher_unique {s P C C' : State} (h : CbcPair s P C) (k : CbcPair s P C') : SameBuffer C C' := by
  have hblock : ∀ i, i < s.blocks → C'.loadBlock (16 * i) = C.loadBlock (16 * i) := by
    intro i hi
    induction i with
    | zero => exact (k.block 0 hi).trans (h.block 0 hi).symm
    | succ i ih =>
      have hchain : chainBlock s.iv C' (i + 1) = chainBlock s.iv C (i + 1) := ih (Nat.lt_of_succ_lt hi)
      rw [k.block _ hi, h.block _ hi, hchain]
  have hmap : MapsBlocks s.blocks id C C' :=
    { block := hblock
      beyond := fun b hb => (k.beyond b hb).trans (h.beyond b hb).symm }
  exact hmap.sameBuffer

/-! ### `CBCENC` and `CBCDEC` (R162, R163) -/

theorem cbcPair_effectOf_cbcenc (s : State) (p : PadSelect) :
    CbcPair s (s.applyPad p) (effectOf (.cbcenc p) s) := by
  obtain ⟨-, hblock, hkeep, -⟩ := cbcEncLoop_spec s.encrypt s.blocks 0 s.iv (s.applyPad p)
  constructor
  · intro i hi
    simpa only [effectOf, chainBlock, State.loadBlock_complete] using hblock i (Nat.zero_le i) (by omega)
  · intro b hb
    simpa only [effectOf, State.bufByte_complete] using hkeep b (by omega)

theorem cbcPair_effectOf_cbcdec (s : State) : CbcPair s (effectOf .cbcdec s) s := by
  obtain ⟨-, hblock, hkeep, -⟩ := cbcDecLoop_spec s.decrypt s.blocks 0 s.iv s
  constructor
  · intro i hi
    rw [State.eq_encrypt_xorBlock_iff]
    simpa only [effectOf, chainBlock, State.loadBlock_complete] using hblock i (Nat.zero_le i) (by omega)
  · intro b hb
    simpa only [effectOf, State.bufByte_complete] using (hkeep b (by omega)).symm

theorem exec_cbcdec {s : State} (hs : s.Chained) (ha : s.BlockAligned) :
    exec .cbcdec s = .next (effectOf .cbcdec s) := by
  obtain ⟨hrun, hk, hv⟩ := hs
  exact exec_done hrun (firstRaise_cons_eq_none.mpr ⟨needKey_eq_none.mpr hk,
    firstRaise_cons_eq_none.mpr ⟨needIv_eq_none.mpr hv, firstRaise_checkBuffer_eq_none.mpr ha⟩⟩)

/-- In a buffer of whole blocks the last one lies 16 bytes before the end, and without a byte there is none (R150). -/
theorem ite_blocks_eq_zero {s : State} (ha : s.BlockAligned) {α : Type} (x : α) (g : Nat → α) :
    (if s.blocks = 0 then x else g (16 * (0 + s.blocks - 1))) =
      if s.buflen = 0 then x else g (s.buflen.toNat - 16) := by
  have hlen : s.buflen.toNat = 16 * s.blocks := (Nat.mul_div_cancel' (Nat.dvd_of_mod_eq_zero ha.2)).symm
  have hlast : 16 * (0 + s.blocks - 1) = s.buflen.toNat - 16 := by omega
  have hzero : s.blocks = 0 ↔ s.buflen = 0 := by
    rw [← toNat_eq_zero_iff]
    omega
  rw [hlast, if_congr hzero rfl rfl]

/-- Settles O41: the loop leaves the ciphertext of the padded buffer. -/
theorem cbcEncryption : Obligations.CbcEncryption := by
  rintro s p ⟨hrun, hk, hv⟩ ha hp
  have hpair := cbcPair_effectOf_cbcenc s p
  obtain ⟨-, -, -, hstate⟩ := cbcEncLoop_spec s.encrypt s.blocks 0 s.iv (s.applyPad p)
  refine ⟨_, exec_cbcenc ⟨hrun, hk⟩ ha hv p hp, effectOf_cbcenc_frame s p, fun i hi => ?_,
    effectOf_sameBufferOutside (.cbcenc p) s, ?_⟩
  · rw [State.plainBlock_eq_loadBlock]
    exact hpair.block i hi
  · rw [← ite_blocks_eq_zero ha]
    simpa [effectOf] using hstate

/-- Settles O42: the loop leaves the plaintext of which the buffer was the ciphertext. -/
theorem cbcDecryption : Obligations.CbcDecryption := by
  intro s hs ha
  obtain ⟨-, -, -, hstate⟩ := cbcDecLoop_spec s.decrypt s.blocks 0 s.iv s
  refine ⟨_, exec_cbcdec hs ha, effectOf_cbcdec_frame s, fun i hi => (cbcPair_effectOf_cbcdec s).plain_block hi,
    effectOf_sameBufferOutside .cbcdec s, ?_⟩
  exact hstate.trans (ite_blocks_eq_zero ha s.state fun a => s.decrypt (s.loadBlock a))

section
variable {s t : State} (h : ModeFrame s t) (hs : s.Chained) (ha : s.BlockAligned)
include h hs ha

/-- `CBCENC 0` after commands that kept the registers chains from the `IV` of `s`. -/
theorem ModeFrame.cbcenc : ∃ u, exec (.cbcenc .noPad) t = .next u ∧ ModeFrame s u ∧ CbcPair s t u := by
  obtain ⟨m, S, r, rfl⟩ := h
  obtain ⟨hrun, hk, hv⟩ := hs
  obtain ⟨hblock, hbeyond⟩ := cbcPair_effectOf_cbcenc { s with mem := m, state := S, result := r } .noPad
  exact ⟨_, exec_cbcenc (s := { s with mem := m, state := S, result := r }) ⟨hrun, hk⟩ ha hv .noPad nofun,
    ⟨_, _, _, effectOf_cbcenc_frame _ .noPad⟩, hblock, hbeyond⟩

/-- `CBCDEC` after commands that kept the registers chains from the `IV` of `s`. -/
theorem ModeFrame.cbcdec : ∃ u, exec .cbcdec t = .next u ∧ ModeFrame s u ∧ CbcPair s u t := by
  obtain ⟨m, S, r, rfl⟩ := h
  obtain ⟨hblock, hbeyond⟩ := cbcPair_effectOf_cbcdec { s with mem := m, state := S, result := r }
  exact ⟨_, exec_cbcdec (s := { s with mem := m, state := S, result := r }) hs ha,
    ⟨_, _, _, effectOf_cbcdec_frame _⟩, hblock, hbeyond⟩

end

/-- Settles O43: the second command turns the pair of buffers around, and each buffer determines the other. -/
theorem cbcRoundTrip : Obligations.CbcRoundTrip := by
  intro s hs ha
  constructor
  · obtain ⟨t, ht, hframe, hpair⟩ := (ModeFrame.refl s).cbcenc hs ha
    obtain ⟨u, hu, -, hpair'⟩ := hframe.cbcdec hs ha
    exact ⟨t, u, ht, hu, hpair.plain_unique hpair'⟩
  · obtain ⟨t, ht, hframe, hpair⟩ := (ModeFrame.refl s).cbcdec hs ha
    obtain ⟨u, hu, -, hpair'⟩ := hframe.cbcenc hs ha
    exact ⟨t, u, ht, hu, hpair.cipher_unique hpair'⟩

/-! ### The bit-flip property (R164) -/

theorem State.decrypt_injective (s : State) : Function.Injective s.decrypt :=
  Function.LeftInverse.injective s.encrypt_decrypt

/-- A change inside block `j` leaves the other blocks as they were. -/
theorem SameBufferOutside.loadBlock_of_ne {s t : State} {j k : Nat} (h : SameBufferOutside (16 * j) 16 s t)
    (hk : k ≠ j) : t.loadBlock (16 * k) = s.loadBlock (16 * k) :=
  State.loadBlock_congr fun _ _ => h _ (by omega)

/-- A change inside ciphertext block `j` reaches the chaining of block `j + 1` alone. -/
theorem SameBufferOutside.chainBlock_of_ne {s t : State} {j k : Nat} (h : SameBufferOutside (16 * j) 16 s t)
    (hk : k ≠ j + 1) (iv : Block) : chainBlock iv t k = chainBlock iv s k := by
  cases k with
  | zero => rfl
  | succ k => exact h.loadBlock_of_ne (j := j) (k := k) (by omega)

theorem cbcPair_of_exec_cbcdec {s C P : State} (hC : ModeFrame s C) (hs : s.Chained) (ha : s.BlockAligned)
    (h : exec .cbcdec C = .next P) : CbcPair s P C := by
  obtain ⟨u, hu, -, hpair⟩ := hC.cbcdec hs ha
  rwa [Host.Outcome.next.inj (h.symm.trans hu)]

/-- Settles O44: plaintext block `k` depends on ciphertext blocks `k`, through a bijection, and `k - 1`, by XOR. -/
theorem cbcBitFlip : Obligations.CbcBitFlip := by
  intro s s' t t' j D hs ha hj hD hs' hout hflip ht ht'
  have hpair := cbcPair_of_exec_cbcdec (.refl s) hs ha ht
  have hpair' := cbcPair_of_exec_cbcdec ⟨_, _, _, hs'⟩ hs ha ht'
  refine ⟨fun heq => hD ?_, fun hnext => ?_, fun k hk hkj hkj' => ?_⟩
  · rw [hpair.plain_block hj, hpair'.plain_block hj, hout.chainBlock_of_ne (by omega), hflip] at heq
    exact eq_zeroBlock_of_xorBlock_eq_self (s.decrypt_injective (xorBlock_injective _ heq))
  · have hchain : chainBlock s.iv s' (j + 1) = xorBlock (chainBlock s.iv s (j + 1)) D := hflip
    rw [hpair.plain_block hnext, hpair'.plain_block hnext, hout.loadBlock_of_ne (by omega), hchain, xorBlock_assoc]
  · rw [hpair.plain_block hk, hpair'.plain_block hk, hout.loadBlock_of_ne hkj, hout.chainBlock_of_ne hkj']

end Sys2Proof.Machine

namespace Sys2Proof.Machine

/-! Proofs about padding (spec 46_padding.md): what `PAD`, `UNPAD` and `UNPADCHK` do, that the unpad commands take back
what `PAD` wrote, and what `UNPADCHK` answers to a changed pad byte. -/

/-! ### `PAD` (R175, R176) -/

theorem firstFailing_pad (s : State) : firstFailing (checksOf .pad s) =
    if s.params.bufBytes < s.buflen.toNat then some (5, s.buflen)
    else if s.buflen.toNat < s.mlen.toNat then some (7, s.mlen)
    else if 255 < s.buflen.toNat - s.mlen.toNat then some (8, s.buflen - s.mlen) else none := by
  simp [checksOf, padChecks, firstFailing]

/-- Settles O45: the three checks in order, then the fill of the pad region. -/
theorem padCommand : Obligations.PadCommand := by
  refine ⟨decodeInvertsEncode .pad rfl, fun s hs => ⟨fun hr => ?_, fun hb hl => ?_, fun hb hl hp => ?_,
    fun hb hp => ⟨_, exec_pad hs hb hp, rfl, fun a => ?_⟩⟩⟩
  · exact exec_faulted hs (by simp [firstFailing_pad, hr])
  · exact exec_faulted hs (by simp [firstFailing_pad, Nat.not_lt.mpr hb, hl])
  · exact exec_faulted hs (by simp [firstFailing_pad, Nat.not_lt.mpr hb, Nat.not_lt.mpr hl, hp])
  · exact s.bufByte_padFill_eq a

/-! ### The checks and effects of the unpad commands (R177, R178) -/

theorem firstFailing_unpad (s : State) : firstFailing (checksOf .unpad s) =
    if s.params.bufBytes < s.buflen.toNat then some (5, s.buflen)
    else if s.buflen = 0 then some (9, 0)
    else if 16 < s.padByte.toNat then some (10, s.padByte.setWidth 32)
    else if s.buflen.toNat < s.padByte.toNat then some (11, s.padByte.setWidth 32) else none := by
  simp only [checksOf, firstFailing, decide_eq_true_eq]
  rfl

theorem firstFailing_unpadchk (s : State) : firstFailing (checksOf .unpadchk s) =
    if s.params.bufBytes < s.buflen.toNat then some (5, s.buflen)
    else if s.buflen = 0 then some (9, 0)
    else if (1 ≤ s.padByte.toNat ∧ s.padByte.toNat ≤ 16) ∧ s.buflen.toNat < s.padByte.toNat then
      some (11, s.padByte.setWidth 32)
    else none := by
  simp only [checksOf, firstFailing, Bool.and_eq_true, decide_eq_true_eq]
  rfl

theorem State.unpaddedLength_eq_sub {s : State} (h : s.padByte.toNat ≤ s.buflen.toNat) :
    s.unpaddedLength = s.buflen - s.padByte.setWidth 32 := by
  have hwide : (s.padByte.setWidth 32).toNat = s.padByte.toNat := BitVec.toNat_setWidth_of_le (by omega)
  rw [State.unpaddedLength, ← hwide]
  exact ofNat_sub (hwide.trans_le h)

theorem effectOf_unpad {s : State} (h : s.padByte.toNat ≤ s.buflen.toNat) :
    effectOf .unpad s = { s with outlen := s.buflen - s.padByte.setWidth 32, result := 0 } := by
  rw [← State.unpaddedLength_eq_sub h]
  rfl

/-- On success `UNPADCHK` does what `UNPAD` does. -/
theorem effectOf_unpadchk_of_ok {s : State} (h : s.unpadVerdict = .ok) : effectOf .unpadchk s = effectOf .unpad s := by
  simp only [effectOf, State.checkedLength, h]

/-- On a data error `UNPADCHK` writes no length, and the error's number (R178, R203). -/
theorem effectOf_unpadchk_of_error {s : State} {c : ResultCode} (h : s.unpadVerdict = c) (hc : c ≠ .ok) :
    effectOf .unpadchk s = { s with outlen := 0, result := c.number } := by
  cases c with
  | ok => exact absurd rfl hc
  | _ =>
    simp only [effectOf, State.checkedLength, h]
    rfl

/-! ### The verdict of `UNPADCHK` (R178) -/

theorem ZeroPadError.code_ne_ok (e : ZeroPadError) : zeroPadCode e ≠ .ok := by
  cases e <;> decide

section
variable {s : State}

theorem State.unpadVerdict_of_gt (h : 16 < s.padByte.toNat) : s.unpadVerdict = .paddingTooLarge :=
  if_pos h

theorem State.unpadVerdict_of_zero (h : s.padByte = 0) : s.unpadVerdict = zeroPadCode s.params.errZeroPad := by
  simp [State.unpadVerdict, h]

theorem State.unpadVerdict_of_range (h1 : 1 ≤ s.padByte.toNat) (h16 : s.padByte.toNat ≤ 16) :
    s.unpadVerdict = if s.padMismatch then .mismatchingPaddingBytes else .ok := by
  have hz : s.padByte ≠ 0 := fun h => by simp [h] at h1
  rw [State.unpadVerdict, if_neg (Nat.not_lt.mpr h16), if_neg hz]

theorem State.padMismatch_eq_true (hle : s.padByte.toNat ≤ s.buflen.toNat) : s.padMismatch = true ↔
    ∃ j, s.buflen.toNat - s.padByte.toNat ≤ j ∧ j < s.buflen.toNat ∧ s.bufByte j ≠ s.padByte := by
  simp only [State.padMismatch, List.any_eq_true, State.mem_memRead, bne_iff_ne]
  constructor
  · rintro ⟨_, ⟨i, hi, rfl⟩, hne⟩
    exact ⟨_, Nat.le_add_right _ i, by omega, hne⟩
  · rintro ⟨j, hlo, hhi, hne⟩
    exact ⟨_, ⟨j - (s.buflen.toNat - s.padByte.toNat), by omega, rfl⟩, by rwa [Nat.add_sub_cancel' hlo]⟩

theorem State.unpadVerdict_of_mismatch (h16 : s.padByte.toNat ≤ 16) (hle : s.padByte.toNat ≤ s.buflen.toNat)
    (h : ∃ j, s.buflen.toNat - s.padByte.toNat ≤ j ∧ j < s.buflen.toNat ∧ s.bufByte j ≠ s.padByte) :
    s.unpadVerdict = .mismatchingPaddingBytes := by
  have h1 : 1 ≤ s.padByte.toNat := by
    obtain ⟨j, hlo, hhi, -⟩ := h
    omega
  rw [State.unpadVerdict_of_range h1 h16, if_pos ((State.padMismatch_eq_true hle).mpr h)]

theorem State.unpadVerdict_of_match (h1 : 1 ≤ s.padByte.toNat) (h16 : s.padByte.toNat ≤ 16)
    (hle : s.padByte.toNat ≤ s.buflen.toNat)
    (h : ∀ j, s.buflen.toNat - s.padByte.toNat ≤ j → j < s.buflen.toNat → s.bufByte j = s.padByte) :
    s.unpadVerdict = .ok := by
  rw [State.unpadVerdict_of_range h1 h16, if_neg]
  rw [State.padMismatch_eq_true hle]
  rintro ⟨j, hlo, hhi, hne⟩
  exact hne (h j hlo hhi)

/-- Only a pad length of 1 to 16 is accepted. -/
theorem State.padByte_of_unpadVerdict_ok (h : s.unpadVerdict = .ok) :
    1 ≤ s.padByte.toNat ∧ s.padByte.toNat ≤ 16 := by
  by_contra hout
  rcases Nat.lt_or_ge 16 s.padByte.toNat with hgt | hle
  · exact nomatch (State.unpadVerdict_of_gt hgt).symm.trans h
  · have hz : s.padByte = 0 := (toNat_eq_zero_iff _).mp (by omega)
    exact ZeroPadError.code_ne_ok _ ((State.unpadVerdict_of_zero hz).symm.trans h)

end

/-! ### When the unpad commands complete (R177, R178) -/

section
variable {s : State} (hs : s.Running) (hb : s.BufferFits) (hne : s.buflen ≠ 0)
include hs hb hne

theorem exec_unpad (h16 : s.padByte.toNat ≤ 16) (hle : s.padByte.toNat ≤ s.buflen.toNat) :
    exec .unpad s = .next { s with outlen := s.buflen - s.padByte.setWidth 32, result := 0 } := by
  rw [← effectOf_unpad hle]
  refine exec_completes hs ?_
  rw [firstFailing_unpad, if_neg (Nat.not_lt.mpr hb), if_neg hne, if_neg (Nat.not_lt.mpr h16),
    if_neg (Nat.not_lt.mpr hle)]

theorem exec_unpadchk (h : 1 ≤ s.padByte.toNat → s.padByte.toNat ≤ 16 → s.padByte.toNat ≤ s.buflen.toNat) :
    exec .unpadchk s = .next (effectOf .unpadchk s) := by
  refine exec_completes hs ?_
  rw [firstFailing_unpadchk, if_neg (Nat.not_lt.mpr hb), if_neg hne, if_neg]
  rintro ⟨⟨h1, h16⟩, hlt⟩
  exact absurd (h h1 h16) (Nat.not_le.mpr hlt)

theorem exec_unpadchk_of_error {c : ResultCode}
    (h : 1 ≤ s.padByte.toNat → s.padByte.toNat ≤ 16 → s.padByte.toNat ≤ s.buflen.toNat)
    (hv : s.unpadVerdict = c) (hc : c ≠ .ok) :
    exec .unpadchk s = .next { s with outlen := 0, result := c.number } := by
  rw [exec_unpadchk hs hb hne h, effectOf_unpadchk_of_error hv hc]

theorem exec_unpadchk_of_ok (hle : s.padByte.toNat ≤ s.buflen.toNat) (hv : s.unpadVerdict = .ok) :
    exec .unpadchk s = .next { s with outlen := s.buflen - s.padByte.setWidth 32, result := 0 } := by
  rw [exec_unpadchk hs hb hne fun _ _ => hle, effectOf_unpadchk_of_ok hv, effectOf_unpad hle]

end

/-- Settles O46: the four checks in order, and an effect that reads the last byte alone. -/
theorem unpadCommand : Obligations.UnpadCommand := by
  refine ⟨decodeInvertsEncode .unpad rfl, fun s hs => ⟨fun hr => ?_, fun hz => ?_, fun hb hne p hp => ?_⟩⟩
  · exact exec_faulted hs (by simp [firstFailing_unpad, hr])
  · exact exec_faulted hs (by simp [firstFailing_unpad, hz])
  · obtain rfl : p = s.padByte := hp
    have hcheck := firstFailing_unpad s
    rw [if_neg (Nat.not_lt.mpr hb), if_neg hne] at hcheck
    refine ⟨fun hgt => ?_, fun h16 hlt => ?_, exec_unpad hs hb hne⟩
    · exact exec_faulted hs (hcheck.trans (if_pos hgt))
    · exact exec_faulted hs (hcheck.trans ((if_neg (Nat.not_lt.mpr h16)).trans (if_pos hlt)))

/-- Settles O47: the three checks in order, then one verdict per clause. -/
theorem checkedUnpadCommand : Obligations.CheckedUnpadCommand := by
  refine ⟨decodeInvertsEncode .unpadchk rfl, fun s hs => ⟨fun hr => ?_, fun hz => ?_, fun hb hne p hp => ?_⟩⟩
  · exact exec_faulted hs (by simp [firstFailing_unpadchk, hr])
  · exact exec_faulted hs (by simp [firstFailing_unpadchk, hz])
  · obtain rfl : p = s.padByte := hp
    have hzero (h : s.padByte = 0) : exec .unpadchk s =
        .next { s with outlen := 0, result := (zeroPadCode s.params.errZeroPad).number } :=
      exec_unpadchk_of_error hs hb hne (fun h1 _ => by simp [h] at h1) (State.unpadVerdict_of_zero h)
        (ZeroPadError.code_ne_ok _)
    refine ⟨fun hgt => ?_, fun h he => ?_, fun h he => ?_, fun h1 h16 hlt => ?_,
      fun h1 h16 hle => ⟨fun hbad => ?_, fun hall => ?_⟩⟩
    · exact exec_unpadchk_of_error hs hb hne (by omega) (State.unpadVerdict_of_gt hgt) nofun
    · exact (hzero h).trans (by rw [he]; rfl)
    · exact (hzero h).trans (by rw [he]; rfl)
    · refine exec_faulted hs ?_
      rw [firstFailing_unpadchk, if_neg (Nat.not_lt.mpr hb), if_neg hne, if_pos ⟨⟨h1, h16⟩, hlt⟩]
    · exact exec_unpadchk_of_error hs hb hne (fun _ _ => hle) (State.unpadVerdict_of_mismatch h16 hle hbad) nofun
    · exact exec_unpadchk_of_ok hs hb hne hle (State.unpadVerdict_of_match h1 h16 hle hall)

/-- Settles O50: an accepted pad length is 1 to 16 and inside the buffer, so it passes the checks of `UNPAD` too. -/
theorem unpadFormsAgree : Obligations.UnpadFormsAgree := by
  intro s t hs ht hrun hres
  rcases exec_outcomes ht with ⟨hf, -⟩ | ⟨-, code, info, -, rfl⟩ | ⟨-, hpass, rfl⟩
  · exact nomatch hs.symm.trans hf
  · exact nomatch hrun
  · have hok : s.unpadVerdict = .ok := by
      have hn : s.unpadVerdict.number = 0 := hres
      cases hv : s.unpadVerdict with
      | ok => rfl
      | _ => simp [hv, ResultCode.number] at hn
    obtain ⟨h1, h16⟩ := State.padByte_of_unpadVerdict_ok hok
    rw [effectOf_unpadchk_of_ok hok]
    refine exec_completes hs ?_
    simpa [firstFailing_unpadchk, firstFailing_unpad, h1, h16, Nat.not_lt.mpr h16] using hpass

/-! ### The round trip (R180.1, R180.2) -/

theorem buflen_ne_zero_of_lt {s : State} {n : Nat} (h : n < s.buflen.toNat) : s.buflen ≠ 0 :=
  mt (toNat_eq_zero_iff _).mpr (Nat.ne_zero_of_lt h)

section
variable {s : State}

theorem State.toNat_padLength (h : s.padLength ≤ 255) : (BitVec.ofNat 8 s.padLength).toNat = s.padLength :=
  Nat.mod_eq_of_lt (Nat.lt_succ_of_le h)

/-- Dropping the pad length from `BUFLEN` leaves `MLEN`. -/
theorem State.buflen_sub_padLength (hp : s.PadFits) :
    s.buflen - (BitVec.ofNat 8 s.padLength).setWidth 32 = s.mlen := by
  obtain ⟨hle, hlen⟩ := hp
  have hwide : (BitVec.ofNat 8 s.padLength).setWidth 32 = s.buflen - s.mlen := by
    rw [← ofNat_sub hle]
    refine BitVec.eq_of_toNat_eq ?_
    rw [BitVec.toNat_setWidth, State.toNat_padLength hlen, BitVec.toNat_ofNat, State.padLength]
  rw [hwide, sub_sub_self]

theorem State.bufByte_padded {j : Nat} (hlo : s.mlen.toNat ≤ j) (hhi : j < s.buflen.toNat) :
    (s.padFill.complete .ok).bufByte j = BitVec.ofNat 8 s.padLength := by
  rw [State.bufByte_complete, State.bufByte_padFill_eq, if_pos ⟨hlo, hhi⟩]

theorem State.padByte_padded (hlt : s.mlen.toNat < s.buflen.toNat) :
    (s.padFill.complete .ok).padByte = BitVec.ofNat 8 s.padLength :=
  State.bufByte_padded (Nat.le_sub_one_of_lt hlt) (Nat.sub_one_lt_of_lt hlt)

/-- What `PAD` writes for a pad length of 1 to 16, `UNPADCHK` accepts. -/
theorem State.unpadVerdict_padded (hlt : s.mlen.toNat < s.buflen.toNat) (hlen : s.padLength ≤ 16) :
    (s.padFill.complete .ok).unpadVerdict = .ok := by
  have hlength : s.padLength = s.buflen.toNat - s.mlen.toNat := rfl
  have hbuflen : (s.padFill.complete .ok).buflen.toNat = s.buflen.toNat := rfl
  have hbyte := State.padByte_padded hlt
  have hlast := (congrArg BitVec.toNat hbyte).trans (State.toNat_padLength (by omega))
  refine State.unpadVerdict_of_match (by omega) (by omega) (by omega) fun j hlo hhi => ?_
  rw [hbyte]
  exact State.bufByte_padded (by omega) hhi

end

/-- Settles O48: every byte of the pad region is the pad length, which both commands take from `BUFLEN`. -/
theorem padUnpadRoundTrip : Obligations.PadUnpadRoundTrip := by
  intro s hs hb hlt hlen
  have hpad : s.PadFits := ⟨hlt.le, by omega⟩
  have hbyte := State.padByte_padded hlt
  have hlast : (s.padFill.complete .ok).padByte.toNat = s.buflen.toNat - s.mlen.toNat :=
    (congrArg BitVec.toNat hbyte).trans (State.toNat_padLength hpad.2)
  have hne : (s.padFill.complete .ok).buflen ≠ 0 := buflen_ne_zero_of_lt hlt
  have hle : (s.padFill.complete .ok).padByte.toNat ≤ (s.padFill.complete .ok).buflen.toNat :=
    hlast.trans_le (Nat.sub_le ..)
  have hlength : s.buflen - (s.padFill.complete .ok).padByte.setWidth 32 = s.mlen := by
    rw [hbyte, State.buflen_sub_padLength hpad]
  refine ⟨_, _, _, exec_pad hs hb hpad, exec_unpadchk_of_ok hs hb hne hle (State.unpadVerdict_padded hlt hlen),
    exec_unpad hs hb hne (hlast.trans_le hlen) hle, hs, rfl, hlength, hs, hlength, fun a ha => ?_⟩
  exact (s.bufByte_padFill_eq a).trans (if_neg (by omega))

/-! ### Corrupted padding (R180.3) -/

theorem State.unpadVerdict_of_one {s : State} (h : s.padByte = 1) (hne : s.buflen ≠ 0) : s.unpadVerdict = .ok := by
  have hone : s.padByte.toNat = 1 := by rw [h]; rfl
  have hpos : 1 ≤ s.buflen.toNat := Nat.pos_of_ne_zero (mt (toNat_eq_zero_iff _).mp hne)
  refine State.unpadVerdict_of_match hone.ge (by omega) (by omega) fun j hlo hhi => ?_
  exact congrArg s.bufByte (show j = s.buflen.toNat - 1 by omega)

/-- The buffer of `u` is that of `s` after `PAD`, but for a change of the pad byte at `a`. -/
structure PadCorrupted (s u : State) (a : Nat) : Prop where
  buflen_eq : u.buflen = s.buflen
  keeps : ∀ j, j ≠ a → s.mlen.toNat ≤ j → j < s.buflen.toNat → u.bufByte j = BitVec.ofNat 8 s.padLength
  changed : u.bufByte a ≠ BitVec.ofNat 8 s.padLength

theorem padCorrupted_of_sameBufferOutside {s u : State} {a : Nat} (hb : u.buflen = s.buflen)
    (hout : SameBufferOutside a 1 (s.padFill.complete .ok) u)
    (hne : u.bufByte a ≠ (s.padFill.complete .ok).bufByte a) (hlo : s.mlen.toNat ≤ a) (hhi : a < s.buflen.toNat) :
    PadCorrupted s u a where
  buflen_eq := hb
  keeps j hj hlo hhi := (hout j (by omega)).trans (State.bufByte_padded hlo hhi)
  changed := State.bufByte_padded hlo hhi ▸ hne

section
variable {s u : State} {a : Nat} (h : PadCorrupted s u a)
include h

theorem PadCorrupted.padByte_of_last (ha : a + 1 = s.buflen.toNat) : u.padByte = u.bufByte a := by
  rw [State.padByte, h.buflen_eq, ← ha, Nat.add_sub_cancel]

/-- Another pad length in the last byte differs from the pad byte before it. -/
theorem PadCorrupted.unpadVerdict_of_last (ha : a + 1 = s.buflen.toNat) (h2 : 2 ≤ u.padByte.toNat)
    (h16 : u.padByte.toNat ≤ 16) (hle : u.padByte.toNat ≤ u.buflen.toNat)
    (hlen : 2 ≤ s.buflen.toNat - s.mlen.toNat) : u.unpadVerdict = .mismatchingPaddingBytes := by
  have hb : u.buflen.toNat = s.buflen.toNat := congrArg BitVec.toNat h.buflen_eq
  refine State.unpadVerdict_of_mismatch h16 hle ⟨a - 1, by omega, by omega, ?_⟩
  rw [h.keeps (a - 1) (by omega) (by omega) (by omega), h.padByte_of_last ha]
  exact h.changed.symm

/-- A changed byte before the last one differs from the last one. -/
theorem PadCorrupted.unpadVerdict_of_inner (hlo : s.mlen.toNat ≤ a) (ha : a + 1 < s.buflen.toNat)
    (hlen : s.padLength ≤ 16) : u.unpadVerdict = .mismatchingPaddingBytes := by
  have hb : u.buflen.toNat = s.buflen.toNat := congrArg BitVec.toNat h.buflen_eq
  have hlength : s.padLength = s.buflen.toNat - s.mlen.toNat := rfl
  have hbyte : u.padByte = BitVec.ofNat 8 s.padLength := by
    rw [State.padByte, hb]
    exact h.keeps _ (by omega) (by omega) (by omega)
  have hlast := (congrArg BitVec.toNat hbyte).trans (State.toNat_padLength (by omega))
  refine State.unpadVerdict_of_mismatch (by omega) (by omega) ⟨a, by omega, by omega, ?_⟩
  rw [hbyte]
  exact h.changed

end

/-- Settles O49: the changed byte is the last one, which then stands for a pad length of its own, or an earlier one,
which then differs from the last. -/
theorem corruptedPaddingIsRejected : Obligations.CorruptedPaddingIsRejected := by
  intro s t u v a hs hb h16 hlt hlen ht hu hout hne hlo hhi hv
  obtain rfl : s.padFill.complete .ok = t :=
    Host.Outcome.next.inj ((exec_pad hs hb ⟨hlt.le, hlen.trans (by decide)⟩).symm.trans ht)
  have hbuflen : u.buflen = s.buflen := (congrArg State.buflen hu).trans rfl
  have hparams : u.params = s.params := (congrArg State.params hu).trans rfl
  have hrun : u.Running := (congrArg (·.status.fault) hu).trans hs
  have hfits : u.BufferFits := by rwa [State.BufferFits, hbuflen, hparams]
  have hnonempty : u.buflen ≠ 0 := by rw [hbuflen]; exact buflen_ne_zero_of_lt hlt
  have hle (h : u.padByte.toNat ≤ 16) : u.padByte.toNat ≤ u.buflen.toNat := by rw [hbuflen]; omega
  have hcorrupted := padCorrupted_of_sameBufferOutside hbuflen hout hne hlo hhi
  obtain rfl : effectOf .unpadchk u = v :=
    Host.Outcome.next.inj ((exec_unpadchk hrun hfits hnonempty fun _ => hle).symm.trans hv)
  have herror {c : ResultCode} (h : u.unpadVerdict = c) (hc : c ≠ .ok) :
      (effectOf .unpadchk u).result = c.number ∧ (effectOf .unpadchk u).outlen = 0 := by
    rw [effectOf_unpadchk_of_error h hc]
    exact ⟨rfl, rfl⟩
  refine ⟨hrun, fun hlast => ?_, fun hinner => herror (hcorrupted.unpadVerdict_of_inner hlo hinner hlen) nofun⟩
  rw [← hcorrupted.padByte_of_last hlast]
  refine ⟨fun hgt => herror (State.unpadVerdict_of_gt hgt) nofun, fun hz => ?_, fun hone => ?_, fun h2 hq hlen2 =>
    herror (hcorrupted.unpadVerdict_of_last hlast h2 hq (hle hq) hlen2) nofun⟩
  · obtain ⟨hres, hoff⟩ := herror (State.unpadVerdict_of_zero hz) (ZeroPadError.code_ne_ok _)
    refine ⟨hoff, hres.trans ?_⟩
    rw [hparams]
    cases s.params.errZeroPad <;> rfl
  · rw [effectOf_unpadchk_of_ok (State.unpadVerdict_of_one hone hnonempty),
      effectOf_unpad (hle (by simp [hone])), hone, hbuflen]
    exact ⟨rfl, rfl⟩

end Sys2Proof.Machine

namespace Sys2Proof.Machine

/-! Proofs about the host's transactions and the system command (spec 47_system.md): a 32-bit transaction reaches the
register at its offset, an 8-bit one the byte at its buffer address, and every other one is refused; `NOP`. -/

/-! ### The step of a transaction (R194) -/

/-- With an event pending the step performs it. -/
theorem step_of_pending {s : State} {e : Event} {rest : List Event} (hp : s.pending = e :: rest) :
    step s = perform e { s with pending := rest } := by
  simp [step, hp]

/-- The offset of a transaction; a reset has none. -/
def Event.offset : Event → Nat
  | .rd o | .wr o _ | .rdb o | .wrb o _ | .otherWidth o => o
  | .reset | .powerOn => 0

theorem State.select32_of_refused {s : State} {o : Nat} (h : refusedTransaction s.params.bufBytes (.rd o)) :
    ∃ why, s.select32 o = .error why :=
  (s.select32_cases o).elim And.right fun hok => absurd h hok.1

theorem State.select8_of_refused {s : State} {o : Nat} (h : refusedTransaction s.params.bufBytes (.rdb o)) :
    ∃ why, s.select8 o = .error why :=
  (s.select8_cases o).elim And.right fun hok => absurd h hok.1

/-- A refused transaction stops the model with a bus error at its own offset (R45). -/
theorem perform_of_refused {e : Event} {s : State} (h : refusedTransaction s.params.bufBytes e) :
    ∃ why, perform e s = .fault (.busError why e.offset) := by
  cases e with
  | rd | wr =>
    obtain ⟨why, hs⟩ := State.select32_of_refused (s := s) h
    exact ⟨why, by simp [perform, hs, Event.offset]⟩
  | rdb | wrb =>
    obtain ⟨why, hs⟩ := State.select8_of_refused (s := s) h
    exact ⟨why, by simp [perform, hs, Event.offset]⟩
  | otherWidth => exact ⟨_, rfl⟩
  | reset | powerOn => exact h.elim

theorem step_of_refused {s : State} {e : Event} {rest : List Event} (hp : s.pending = e :: rest)
    (h : refusedTransaction s.params.bufBytes e) : ∃ why, step s = .fault (.busError why e.offset) := by
  rw [step_of_pending hp]
  exact perform_of_refused h

/-- A 32-bit transaction in the buffer window or beyond it is refused (R45). -/
theorem refusedTransaction_rd_of_le {n o : Nat} (h : 0x1000 ≤ o) : refusedTransaction n (.rd o) :=
  refusedTransaction_rd.mpr (.inr (.inr h))

/-- An 8-bit transaction beyond the buffer window is refused (R45). -/
theorem refusedTransaction_rdb_of_le {n a : Nat} (h : n ≤ a) : refusedTransaction n (.rdb (0x1000 + a)) :=
  refusedTransaction_rdb.mpr (.inr (Nat.add_le_add_left h _))

/-! ### Registers (R11, R190, R191) -/

theorem Reg.atIndex_offset (r : Reg) : Reg.atIndex (r.offset / 4) = some r := by
  cases r with
  | key i | ivin i | iv i | state i | rk i =>
    revert i
    decide
  | _ => rfl

theorem Reg.offset_lt (r : Reg) : r.offset < bufferBase := by
  cases r <;> simp only [Reg.offset, bufferBase] <;> omega

theorem Reg.offset_aligned (r : Reg) : r.offset % 4 = 0 := by
  cases r <;> simp only [Reg.offset] <;> omega

/-- A 32-bit transaction at the offset of a register reaches it (R44). -/
@[simp] theorem State.select32_offset (s : State) (r : Reg) : s.select32 r.offset = .ok r := by
  simp [State.select32, r.offset_lt, r.offset_aligned, r.atIndex_offset]

/-- What a register reads does not depend on the events to come. -/
theorem State.readReg_pending (s : State) (events : List Event) (r : Reg) :
    { s with pending := events }.readReg r = s.readReg r := by
  cases r <;> rfl

/-- A read of a register answers its value, frozen or not (R190). -/
theorem step_rd {s : State} {r : Reg} {rest : List Event} (hp : s.pending = .rd r.offset :: rest) :
    step s = .next { s with pending := rest, resp := .word (s.readReg r) } := by
  rw [step_of_pending hp]
  simp only [perform, State.select32_offset, State.readReg_pending]

/-- `STATUS` read as a number (R21). -/
theorem Status.toWord_eq_ofNat (t : Status) : t.toWord =
    BitVec.ofNat 32 (8 * t.ksz.code.toNat + 4 * t.ivvalid.toNat + 2 * t.kvalid.toNat + t.fault.toNat) := by
  obtain ⟨fault, kvalid, ivvalid, ksz⟩ := t
  cases ksz <;> revert fault kvalid ivvalid <;> decide

/-- The table of readable words has the value of a register at the register's offset (R11, R190). -/
theorem exists_reg_of_mem_readableWords {s : State} {o : Nat} {v : Word} (h : (o, v) ∈ readableWords s) :
    ∃ r : Reg, r.offset = o ∧ s.readReg r = v := by
  simp only [readableWords, ← Status.toWord_eq_ofNat, List.mem_append, List.mem_cons, List.not_mem_nil, or_false,
    List.mem_map, List.mem_finRange, true_and, Prod.mk.injEq] at h
  rcases h with (((((h | h | h | h | h | h | h | h | h) | ⟨i, h⟩) | ⟨i, h⟩) | ⟨i, h⟩) | ⟨i, h⟩) | ⟨i, h⟩
  · exact ⟨.cmd, h.1.symm, h.2.symm⟩
  · exact ⟨.status, h.1.symm, h.2.symm⟩
  · exact ⟨.result, h.1.symm, h.2.symm⟩
  · exact ⟨.outlen, h.1.symm, h.2.symm⟩
  · exact ⟨.fcode, h.1.symm, h.2.symm⟩
  · exact ⟨.finfo, h.1.symm, h.2.symm⟩
  · exact ⟨.fcmd, h.1.symm, h.2.symm⟩
  · exact ⟨.buflen, h.1.symm, h.2.symm⟩
  · exact ⟨.mlen, h.1.symm, h.2.symm⟩
  · exact ⟨.key i, h⟩
  · exact ⟨.ivin i, h⟩
  · exact ⟨.iv i, h⟩
  · exact ⟨.state i, h⟩
  · exact ⟨.rk i, h⟩

/-- Settles O8: a listed offset is that of a register, whose value the read answers. -/
theorem registerReadsReturnTheRegister : Obligations.RegisterReadsReturnTheRegister := by
  intro s o v rest hp h
  obtain ⟨r, rfl, rfl⟩ := exists_reg_of_mem_readableWords h
  exact step_rd hp

/-- While a fault is latched a write that is not refused completes without effect (R191, R207). -/
theorem step_wr_frozen {s : State} {o : Nat} {v : Word} {rest : List Event} (hf : s.status.fault = true)
    (hp : s.pending = .wr o v :: rest) (h : ¬ refusedTransaction s.params.bufBytes (.wr o v)) :
    step s = .next { s with pending := rest, resp := .completed } := by
  rw [step_of_pending hp]
  rcases State.select32_cases { s with pending := rest } o with ⟨href, -⟩ | ⟨-, r, hs⟩
  · exact absurd href h
  · simp [perform, hs, State.performWrite, hf]

/-- While no fault is latched a write to a register other than `CMD` is its store (R191). -/
theorem step_wr_reg {s : State} {r : Reg} {v : Word} {rest : List Event} (hs : s.Running) (hr : r ≠ .cmd)
    (hp : s.pending = .wr r.offset v :: rest) :
    step s = .next ({ s with pending := rest, resp := .completed }.writeReg r v) := by
  have hf : s.status.fault = false := hs
  rw [step_of_pending hp]
  cases r with
  | cmd => exact absurd rfl hr
  | _ => simp [perform, State.performWrite, hf]

/-- A read-only offset is that of a register whose store does nothing (R11, R191). -/
theorem exists_reg_of_readOnlyOffset {o : Nat} (h : readOnlyOffset o) :
    ∃ r : Reg, r.offset = o ∧ r ≠ .cmd ∧ ∀ s v, State.writeReg s r v = s := by
  obtain ⟨ha, h | h | h⟩ := h
  · obtain rfl | rfl | rfl | rfl | rfl | rfl :
        o = 0x004 ∨ o = 0x008 ∨ o = 0x00C ∨ o = 0x010 ∨ o = 0x014 ∨ o = 0x018 := by omega
    · exact ⟨.status, rfl, nofun, fun _ _ => rfl⟩
    · exact ⟨.result, rfl, nofun, fun _ _ => rfl⟩
    · exact ⟨.outlen, rfl, nofun, fun _ _ => rfl⟩
    · exact ⟨.fcode, rfl, nofun, fun _ _ => rfl⟩
    · exact ⟨.finfo, rfl, nofun, fun _ _ => rfl⟩
    · exact ⟨.fcmd, rfl, nofun, fun _ _ => rfl⟩
  · exact ⟨.iv ⟨(o - 0x070) / 4, by omega⟩, by simp only [Reg.offset]; omega, nofun, fun _ _ => rfl⟩
  · exact ⟨.rk ⟨(o - 0x100) / 4, by omega⟩, by simp only [Reg.offset]; omega, nofun, fun _ _ => rfl⟩

/-- Settles O9: a write that is not refused reaches a register, `CMD` issuing its word and every other one storing its
value. -/
theorem registerWrites : Obligations.RegisterWrites := by
  intro s o v rest hp s'
  refine ⟨fun hf h => step_wr_frozen hf hp h, fun hs => ⟨?_, ?_, ?_, ?_, ?_, ?_, ?_, ?_⟩, step_of_refused hp⟩
  · rintro i rfl hd
    exact (step_wr_cmd hs hp).trans (issue_of_decode_ok (s := s') hs hd)
  · rintro e rfl hd
    exact (step_wr_cmd hs hp).trans (issue_of_decode_error (s := s') hs hd)
  · rintro rfl
    exact step_wr_reg (r := .buflen) hs nofun hp
  · rintro rfl
    exact step_wr_reg (r := .mlen) hs nofun hp
  · rintro i rfl
    exact step_wr_reg (r := .key i) hs nofun hp
  · rintro c rfl
    exact step_wr_reg (r := .ivin c) hs nofun hp
  · rintro c rfl
    exact step_wr_reg (r := .state c) hs nofun hp
  · intro h
    obtain ⟨r, rfl, hr, hkeep⟩ := exists_reg_of_readOnlyOffset h
    rw [step_wr_reg hs hr hp, hkeep]

/-! ### Buffer bytes (R192, R193) -/

/-- An 8-bit transaction in the buffer window reaches the byte at its buffer address (R44). -/
theorem State.select8_of_lt {s : State} {a : Nat} (h : a < s.params.bufBytes) : s.select8 (0x1000 + a) = .ok a := by
  simp [State.select8, State.windowEnd, bufferBase, h]

/-- Writing one byte writes that byte alone. -/
theorem State.bufByte_memWrite_singleton (s : State) (a b : Nat) (v : Byte) :
    (s.memWrite a [v]).bufByte b = if b = a then v else s.bufByte b := by
  rw [State.bufByte_memWrite, List.length_singleton]
  by_cases hb : b = a
  · simp [hb]
  · rw [if_neg (by omega), if_neg hb]

section
variable {s : State} {rest : List Event} {a : Nat} {v : Byte} (ha : a < s.params.bufBytes)
include ha

/-- While a fault is latched a write of a buffer byte completes without effect (R193, R207). -/
theorem step_wrb_frozen (hp : s.pending = .wrb (0x1000 + a) v :: rest) (hf : s.status.fault = true) :
    step s = .next { s with pending := rest, resp := .completed } := by
  rw [step_of_pending hp]
  simp only [perform, State.select8_of_lt (s := { s with pending := rest }) ha, hf, if_true]

/-- While no fault is latched a write of a buffer byte stores it (R193). -/
theorem step_wrb (hp : s.pending = .wrb (0x1000 + a) v :: rest) (hs : s.Running) :
    step s = .next { s with mem := (s.memWrite a [v]).mem, pending := rest, resp := .completed } := by
  have hf : s.status.fault = false := hs
  rw [step_of_pending hp]
  simp only [perform, State.select8_of_lt (s := { s with pending := rest }) ha, hf, Bool.false_eq_true, if_false]
  rfl

/-- A read of a buffer byte answers it, frozen or not (R192). -/
theorem step_rdb (hp : s.pending = .rdb (0x1000 + a) :: rest) :
    step s = .next { s with pending := rest, resp := .byte (s.bufByte a) } := by
  rw [step_of_pending hp]
  simp only [perform, State.select8_of_lt (s := { s with pending := rest }) ha]
  rfl

end

/-- Settles O10: a write in the window is ignored or stores its byte, and the others are refused. -/
theorem bufferByteWrites : Obligations.BufferByteWrites := by
  refine fun s rest => ⟨fun a v hp ha => ⟨step_wrb_frozen ha hp, fun hs => ⟨_, step_wrb ha hp hs, rfl, fun b => ?_⟩⟩,
    fun a v hp ha => step_of_refused hp (refusedTransaction_rdb_of_le ha),
    fun o v hp ho => step_of_refused hp (refusedTransaction_rd_of_le (n := s.params.bufBytes) ho),
    fun o hp => step_of_refused hp trivial⟩
  rw [← State.bufByte_memWrite_singleton]
  exact congrFun (State.bufByte_of_mem rfl rfl) b

/-- Settles O11: a read in the window answers its byte, and the others are refused. -/
theorem bufferByteReads : Obligations.BufferByteReads :=
  fun _ _ => ⟨fun _ hp => ⟨fun ha => step_rdb ha hp, fun ha => step_of_refused hp (refusedTransaction_rdb_of_le ha)⟩,
    fun _ hp ho => step_of_refused hp (refusedTransaction_rd_of_le ho), fun _ hp => step_of_refused hp trivial⟩

/-! ### `NOP` (R195) -/

/-- `NOP` has no argument: no word with its opcode and another bit set decodes (R61). -/
theorem decode_nop_mustBeZero {w : Word} (ho : opField w = 0x00) (hz : argField w ≠ 0) :
    decode w = .error (.mustBeZero (opField w) (argField w)) := by
  have hop : (opField w).toNat = 0x00 := by rw [ho]; rfl
  simp only [decode, hop]
  exact if_neg hz

/-- Settles O20: `NOP` has no check, so it completes unless a latched fault makes the block ignore it. -/
theorem nopClearsResult : Obligations.NopClearsResult :=
  fun _ => ⟨fun hs => exec_completes hs rfl, fun hf => (exec_eq ..).trans (runCommand_frozen hf ..),
    decodeInvertsEncode .nop rfl, fun _ ho hz hs => issue_of_decode_error hs (decode_nop_mustBeZero ho hz)⟩

end Sys2Proof.Machine

namespace Sys2Proof.Machine

/-! Proofs about faults (spec 60_exceptions.md): which check a command reports, fault entry, and the frozen state. -/

/-! ### The first failing check (R202, R206, R212) -/

/-- Settles O19: the checks are those of the table, and the effect of a command leaves the fault registers alone. -/
theorem firstFailingCheckIsReported : Obligations.FirstFailingCheckIsReported := by
  refine fun i s hs => ⟨fun code info h => exec_faulted hs h, fun h => ?_⟩
  obtain ⟨hfault, hcode, hinfo, hcmd⟩ := effectOf_fault i s
  exact ⟨effectOf i s, exec_completes hs h, hfault.trans hs, hcode, hinfo, hcmd⟩

/-- A command issued while no fault is latched ends with a fault only by fault entry, and records its own word. -/
theorem exec_faulted_of_fault {i : Instr} {s t : State} (hs : s.status.fault = false) (h : exec i s = .next t)
    (ht : t.status.fault = true) : t = s.faulted t.fcode t.finfo (encode i) := by
  rcases exec_outcomes h with ⟨hf, -⟩ | ⟨-, code, info, -, rfl⟩ | ⟨-, -, rfl⟩
  · simp [hs] at hf
  · rfl
  · simp [(effectOf_fault i s).1, hs] at ht

/-- Settles O18: a legal word is the word of the command it decodes to, and an illegal one is recorded as it is. -/
theorem faultEntryIsPrecise : Obligations.FaultEntryIsPrecise := by
  intro s t w rest hs hp h ht
  have hs : s.status.fault = false := hs
  rw [step_wr_cmd hs hp] at h
  rcases issue_cases h with ⟨hf, -⟩ | ⟨-, i, hd, hi⟩ | ⟨-, -, rfl⟩
  · simp [hs] at hf
  · obtain ⟨-, hw⟩ := encodeInvertsDecode w i hd
    rw [← hw]
    exact exec_faulted_of_fault hs hi ht
  · rfl

/-! ### The frozen state (R207) -/

/-- A transaction that has a step is not refused (R45). -/
theorem not_refused_of_step {s t : State} {e : Event} {rest : List Event} (hp : s.pending = e :: rest)
    (h : step s = .next t) : ¬ refusedTransaction s.params.bufBytes e := by
  intro href
  obtain ⟨why, hstop⟩ := step_of_refused hp href
  simp [hstop] at h

/-- While a fault is latched an event other than a reset does no more than leave an answer at the port. -/
theorem perform_frozen {e : Event} {s t : State} (hf : s.status.fault = true) (h : perform e s = .next t) :
    e = .reset ∨ e = .powerOn ∨ ∃ r, t = { s with resp := r } := by
  cases e with
  | reset => exact .inl rfl
  | powerOn => exact .inr (.inl rfl)
  | otherWidth o => cases h
  | rd o | wr o v | rdb o | wrb o v =>
    simp only [perform, State.performWrite, hf, if_true] at h
    split at h <;> cases h
    exact .inr (.inr ⟨_, rfl⟩)

/-- Settles O17: of the events that have a step a reset alone does more than answer. -/
theorem frozenUntilReset : Obligations.FrozenUntilReset := by
  refine fun s hf => ⟨fun i => (exec_eq ..).trans (runCommand_frozen hf ..), fun w rest hp => ?_,
    fun o v rest t hp h => ?_, fun o v rest t hp h => ?_,
    fun o v rest hp h => registerReadsReturnTheRegister s o v rest hp h, fun a rest hp ha => step_rdb ha hp,
    fun hp => by simp [step, hp], fun t h ht => ?_⟩
  · exact step_wr_frozen hf hp (by simp [refusedTransaction, reservedOffset])
  · rw [step_wr_frozen hf hp (not_refused_of_step hp h)] at h
    exact (Host.Outcome.next.inj h).symm
  · have hwindow : ¬ (o < 0x1000 ∨ 0x1000 + s.params.bufBytes ≤ o) := not_refused_of_step hp h
    obtain ⟨a, rfl⟩ : ∃ a, o = 0x1000 + a := ⟨o - 0x1000, by omega⟩
    rw [step_wrb_frozen (by omega) hp hf] at h
    exact (Host.Outcome.next.inj h).symm
  · cases hp : s.pending with
    | nil =>
      obtain rfl : s = t := by simpa [step, hp] using h
      simp [hf] at ht
    | cons e rest =>
      rw [step_of_pending hp] at h
      rcases perform_frozen (s := { s with pending := rest }) hf h with rfl | rfl | ⟨r, rfl⟩
      · exact ⟨rest, .inl rfl⟩
      · exact ⟨rest, .inr rfl⟩
      · simp [hf] at ht

end Sys2Proof.Machine

namespace Sys2Proof.Machine

/-! Proofs about resets and the session (spec 70_reset_and_hazards.md): the two reset events, the session state that
`STATUS` shows, and the commands that need the cipher or the CBC instance. -/

/-- Settles O14: the step of a reset event is the reset itself. -/
theorem resetEvent : Obligations.ResetEvent :=
  fun _ _ => ⟨step_of_pending, step_of_pending⟩

/-! ### The session state (R232) -/

theorem State.session_eq_faulted {s : State} : s.session = .faulted ↔ s.status.fault = true := by
  unfold State.session
  split_ifs <;> simp_all

/-! While no fault is latched, `KVALID` and `IVVALID` tell the session. -/

section
variable {s : State} (hs : s.status.fault = false)
include hs

theorem State.session_eq_empty : s.session = .empty ↔ s.status.kvalid = false := by
  unfold State.session
  split_ifs <;> simp_all

theorem State.session_eq_keyed : s.session = .keyed ↔ s.status.kvalid = true ∧ s.status.ivvalid = false := by
  unfold State.session
  split_ifs <;> simp_all

theorem State.session_eq_keyedIv : s.session = .keyedIv ↔ s.status.kvalid = true ∧ s.status.ivvalid = true := by
  unfold State.session
  split_ifs <;> simp_all

end

/-- The session is a function of `STATUS`. -/
theorem State.session_of_status_eq {s t : State} (h : t.status = s.status) : t.session = s.session := by
  simp only [State.session, h]

/-! ### Which commands report `NO_KEY` and `NO_IV` (R201, R202) -/

/-- The fault reported is that of a failing check. -/
theorem mem_of_firstFailing {checks : List (Bool × Word × Word)} {code info : Word}
    (h : firstFailing checks = some (code, info)) : (true, code, info) ∈ checks := by
  induction checks with
  | nil => cases h
  | cons c rest ih =>
    obtain ⟨bad, code', info'⟩ := c
    cases bad with
    | true =>
      cases h
      exact List.mem_cons_self
    | false => exact List.mem_cons_of_mem _ (ih h)

section
variable {i : Instr} {s t : State}

/-- A command that needs the schedule checks for it first. -/
theorem firstFailing_of_no_key (hi : needsKey i = true) (hk : s.status.kvalid = false) :
    firstFailing (checksOf i s) = some (3, 0) := by
  cases i <;> simp_all [needsKey, checksOf, firstFailing]

/-- A command that needs the CBC instance checks for it right after the schedule. -/
theorem firstFailing_of_no_iv (hi : needsIv i = true) (hk : s.status.kvalid = true)
    (hv : s.status.ivvalid = false) : firstFailing (checksOf i s) = some (4, 0) := by
  cases i <;> simp_all [needsIv, checksOf, firstFailing]

/-- Code 3 is that of one check, which the commands that need the schedule make. -/
theorem no_key_of_mem_checksOf {info : Word} (h : (true, 3, info) ∈ checksOf i s) :
    needsKey i = true ∧ s.status.kvalid = false := by
  cases i with
  | ecbenc p | cbcenc p =>
    cases p <;> simp_all [needsKey, checksOf, geometryChecks, selectedPadChecks, padChecks]
  | _ => simp_all [needsKey, checksOf, geometryChecks, padChecks]

/-- Code 4 is that of one check, which the commands that need the CBC instance make. -/
theorem no_iv_of_mem_checksOf {info : Word} (h : (true, 4, info) ∈ checksOf i s) :
    needsIv i = true ∧ s.status.ivvalid = false := by
  cases i with
  | ecbenc p | cbcenc p =>
    cases p <;> simp_all [needsIv, checksOf, geometryChecks, selectedPadChecks, padChecks]
  | _ => simp_all [needsIv, checksOf, geometryChecks, padChecks]

theorem needsKey_of_needsIv (h : needsIv i = true) : needsKey i = true := by
  cases i <;> simp_all [needsIv, needsKey]

theorem reports_no_key_iff : (∃ info, firstFailing (checksOf i s) = some (3, info)) ↔
    needsKey i = true ∧ s.status.kvalid = false :=
  ⟨fun ⟨_, h⟩ => no_key_of_mem_checksOf (mem_of_firstFailing h), fun ⟨hi, hk⟩ => ⟨0, firstFailing_of_no_key hi hk⟩⟩

theorem reports_no_iv_iff : (∃ info, firstFailing (checksOf i s) = some (4, info)) ↔
    needsIv i = true ∧ s.status.kvalid = true ∧ s.status.ivvalid = false := by
  refine ⟨fun ⟨info, h⟩ => ?_, fun ⟨hi, hk, hv⟩ => ⟨0, firstFailing_of_no_iv hi hk hv⟩⟩
  obtain ⟨hi, hv⟩ := no_iv_of_mem_checksOf (mem_of_firstFailing h)
  cases hk : s.status.kvalid with
  | true => exact ⟨hi, rfl, hv⟩
  | false => simp [firstFailing_of_no_key (needsKey_of_needsIv hi) hk] at h

/-- The code of a faulting command is that of its first failing check (R206). -/
theorem fault_with_code_iff (hs : s.status.fault = false) (h : exec i s = .next t) {c : Word} :
    (t.status.fault = true ∧ t.fcode = c) ↔ ∃ info, firstFailing (checksOf i s) = some (c, info) := by
  rcases exec_outcomes h with ⟨hf, -⟩ | ⟨-, code, info, hc, rfl⟩ | ⟨-, hc, rfl⟩
  · simp [hs] at hf
  · simp [hc, State.faulted]
  · simp [hc, (effectOf_fault i s).1, hs]

end

/-- Settles O57: each command moves `STATUS` as the table of R26 says, and the session with it; codes 3 and 4 are each
reported by one check. -/
theorem sessionTransitions : Obligations.SessionTransitions := by
  refine fun i s t hw h => ⟨fun hf => ?_, fun hs => ?_⟩
  · rw [State.session_eq_faulted] at hf
    rw [exec_eq, runCommand_frozen hf] at h
    cases h
    exact State.session_eq_faulted.mpr hf
  have hkey : t.status.fault = true ∧ t.fcode = 3 ↔ needsKey i = true ∧ s.session = .empty := by
    rw [fault_with_code_iff hs h, reports_no_key_iff, State.session_eq_empty hs]
  have hiv : t.status.fault = true ∧ t.fcode = 4 ↔ needsIv i = true ∧ s.session = .keyed := by
    rw [fault_with_code_iff hs h, reports_no_iv_iff, State.session_eq_keyed hs]
  refine ⟨fun ht => ?_, hkey, hiv⟩
  obtain ⟨hkexp, hdrop, hsetiv, hunpadchk, hother⟩ := (flagTable i s t hw hs h).2 ht
  refine ⟨fun k hi => ?_, fun hi => ?_, fun hi => ?_, fun hnk hnd hnv => ?_⟩
  · simp [State.session_eq_keyed ht, (hkexp k hi).1]
  · simp [State.session_eq_empty ht, (hdrop hi).1]
  · have hk : s.status.kvalid = true := by
      by_contra hk
      have hempty : s.session = .empty := (State.session_eq_empty hs).mpr (by simpa using hk)
      have hfault := (hkey.mpr ⟨by rw [hi]; rfl, hempty⟩).1
      simp [hfault] at ht
    rw [State.session_eq_keyed hs, State.session_eq_keyedIv hs, State.session_eq_keyedIv ht, (hsetiv hi).1]
    cases hv : s.status.ivvalid <;> simp [hk]
  · refine State.session_of_status_eq ?_
    by_cases hu : i = .unpadchk
    · exact (hunpadchk hu).1
    · exact (hother hnk hnd hnv hu).1

end Sys2Proof.Machine
